-- ==== Sys2Proof/Word.lean ====
section
/-! DEFINITION. The word types of the engine: 8-bit bytes and slots (spec/10_state.md R25, R27), 64-bit registers
and command words (R13, R14), 32-bit host-port addresses (spec/20_memory.md R40). Every value is unsigned
(spec/00_scope.md R7). -/

namespace Sys2Proof

/-- A byte of a buffer, or one slot (10_state.md R25, R27). -/
abbrev Byte := BitVec 8

/-- A 64-bit register or command word (10_state.md R13). -/
abbrev Word := BitVec 64

/-- A byte address of the host port (20_memory.md R40). -/
abbrev PortAddr := BitVec 32

end Sys2Proof
end

