-- ==== Sys2Proof/Syntax.lean ====
section
/-! DEFINITION. The commands of the engine as syntax: one constructor of `Instr` for each row of
spec/opcode_table.json (spec/30_encoding.md R65). -/

namespace Sys2Proof

/-- The variant of a filter: field `VAR` of a command word and `var` of a context (30_encoding.md R62, 10_state.md R24). -/
inductive Variant where
  /-- Bloom filter, bit value 0. -/
  | bf
  /-- Counting Bloom filter, bit value 1. -/
  | cbf
  deriving DecidableEq, Repr

/-- The counter overflow policy: field `OVF` of a command word and `ovf` of a context (30_encoding.md R62,
10_state.md R24). -/
inductive Policy where
  /-- Modulo 256, bit value 0. -/
  | wrap
  /-- Clamp to 0 .. 255, bit value 1. -/
  | sat
  deriving DecidableEq, Repr

/-- A command with its decoded fields. `ca` and `cb` are the context indices of 30_encoding.md R63. Numeric operands,
keys and texts are no part of a command: they are read from registers and buffers when it runs (R61). -/
inductive Instr where
  /-- 40_lifecycle.md R81. -/
  | config (ca : Nat) (var : Variant) (ovf : Policy)
  /-- 40_lifecycle.md R82. -/
  | destroy (ca : Nat)
  /-- 40_lifecycle.md R83. -/
  | getm (ca : Nat)
  /-- 40_lifecycle.md R84. -/
  | getk (ca : Nat)
  /-- 40_lifecycle.md R85. -/
  | getcount (ca : Nat)
  /-- 40_lifecycle.md R86. -/
  | getslot (ca : Nat)
  /-- 40_lifecycle.md R87. -/
  | getcfg (ca : Nat)
  /-- 41_hash_pipeline.md R103. -/
  | slotidx (ca : Nat)
  /-- 41_hash_pipeline.md R104. -/
  | slots (ca : Nat)
  /-- 42_slot_ops.md R114. -/
  | test (ca : Nat)
  /-- 42_slot_ops.md R115, R116. -/
  | add (ca : Nat)
  /-- 42_slot_ops.md R117, R118. -/
  | testadd (ca : Nat)
  /-- 42_slot_ops.md R119, R120. -/
  | testrem (ca : Nat)
  /-- 43_conversion.md R131: `ca` the source, `cb` the destination. -/
  | tobf (ca cb : Nat)
  /-- 44_codec.md R151. -/
  | ser (ca : Nat)
  /-- 44_codec.md R152. -/
  | deser (ca : Nat) (var : Variant) (ovf : Policy)
  /-- 45_equality.md R161: `ca` the left operand, `cb` the right. -/
  | equals (ca cb : Nat)
  deriving DecidableEq, Repr

end Sys2Proof
end

