-- ==== Sys2Proof/WellFormed.lean ====
section
/-! DEFINITION. Which terms of `Instr` are commands: a context index is a 4-bit number (spec/30_encoding.md R62, R63).
An index that is well formed may still be `>= NCTX`; that is a `BAD_CTX` error of the running command, not an
ill-formed term. -/

namespace Sys2Proof

/-- A context index fits the 4 bits of `CA` or `CB` (30_encoding.md R62). -/
def ctxIndexOk (c : Nat) : Bool := decide (c < 16)

/-- The command can be encoded: each of its context indices fits its field. -/
def Instr.wellFormed : Instr → Bool
  | .config ca _ _ => ctxIndexOk ca
  | .destroy ca => ctxIndexOk ca
  | .getm ca => ctxIndexOk ca
  | .getk ca => ctxIndexOk ca
  | .getcount ca => ctxIndexOk ca
  | .getslot ca => ctxIndexOk ca
  | .getcfg ca => ctxIndexOk ca
  | .slotidx ca => ctxIndexOk ca
  | .slots ca => ctxIndexOk ca
  | .test ca => ctxIndexOk ca
  | .add ca => ctxIndexOk ca
  | .testadd ca => ctxIndexOk ca
  | .testrem ca => ctxIndexOk ca
  | .tobf ca cb => ctxIndexOk ca && ctxIndexOk cb
  | .ser ca => ctxIndexOk ca
  | .deser ca _ _ => ctxIndexOk ca
  | .equals ca cb => ctxIndexOk ca && ctxIndexOk cb

end Sys2Proof
end

