-- ==== Sys2Proof/Decode.lean ====
section
/-! DEFINITION. Decoding and encoding a command word: the fields of spec/30_encoding.md R62, the opcode table of R65
with its masks, decoding by R64, and the encoder written from the same table. -/

namespace Sys2Proof

/-- The operation a row of the opcode table names. -/
inductive Op where
  | config | destroy | getm | getk | getcount | getslot | getcfg
  | slotidx | slots
  | test | add | testadd | testrem
  | tobf
  | ser | deser
  | equals
  deriving DecidableEq, Repr

/-- One row of the opcode table: the word is `op` when `(w AND mask) = pattern` (30_encoding.md R64). -/
structure OpRow where
  op : Op
  pattern : Word
  mask : Word
  deriving DecidableEq, Repr

/-- Why a word is no command (30_encoding.md R66). Both end the command with `ILLEGAL_CMD`. -/
inductive Reject where
  /-- Its opcode byte is not in the table. -/
  | reservedOpcode
  /-- Its opcode is in the table, and a bit outside the row's used fields is set. -/
  | unusedBitSet
  deriving DecidableEq, Repr

/-- Mask of a row that uses `CA` (30_encoding.md R65). -/
def maskA : Word := 0xFFFFFFFFFFFFF0FF

/-- Mask of a row that uses `CA` and `CB` (30_encoding.md R65). -/
def maskAB : Word := 0xFFFFFFFFFFFF00FF

/-- Mask of a row that uses `CA`, `VAR` and `OVF` (30_encoding.md R65). -/
def maskAVO : Word := 0xFFFFFFFFFFFCF0FF

/-- The opcode byte of each operation (30_encoding.md R65). -/
def Op.code : Op → Nat
  | .config => 0x01
  | .destroy => 0x02
  | .getm => 0x03
  | .getk => 0x04
  | .getcount => 0x05
  | .getslot => 0x06
  | .getcfg => 0x07
  | .slotidx => 0x10
  | .slots => 0x11
  | .test => 0x20
  | .add => 0x21
  | .testadd => 0x22
  | .testrem => 0x23
  | .tobf => 0x30
  | .ser => 0x40
  | .deser => 0x41
  | .equals => 0x50

/-- The mask of each operation's row (30_encoding.md R65). -/
def Op.mask : Op → Word
  | .config | .deser => maskAVO
  | .tobf | .equals => maskAB
  | .destroy | .getm | .getk | .getcount | .getslot | .getcfg | .slotidx | .slots
  | .test | .add | .testadd | .testrem | .ser => maskA

/-- The operations in the order of 30_encoding.md R65. -/
def allOps : List Op :=
  [.config, .destroy, .getm, .getk, .getcount, .getslot, .getcfg, .slotidx, .slots,
   .test, .add, .testadd, .testrem, .tobf, .ser, .deser, .equals]

/-- The opcode table of 30_encoding.md R65. -/
def opcodeTable : List OpRow :=
  allOps.map fun o => { op := o, pattern := BitVec.ofNat 64 o.code, mask := o.mask }

/-- Field `CA`, bits 11:8 (30_encoding.md R62). -/
def fieldCA (w : Word) : Nat := (w.extractLsb' 8 4).toNat

/-- Field `CB`, bits 15:12 (30_encoding.md R62). -/
def fieldCB (w : Word) : Nat := (w.extractLsb' 12 4).toNat

/-- Field `VAR`, bit 16 (30_encoding.md R62). -/
def fieldVAR (w : Word) : Variant := if w.getLsbD 16 then .cbf else .bf

/-- Field `OVF`, bit 17 (30_encoding.md R62). -/
def fieldOVF (w : Word) : Policy := if w.getLsbD 17 then .sat else .wrap

/-- The command of operation `o` with the fields of `w` that its row uses (30_encoding.md R63, R65). -/
def Op.command (o : Op) (w : Word) : Instr :=
  match o with
  | .config => .config (fieldCA w) (fieldVAR w) (fieldOVF w)
  | .destroy => .destroy (fieldCA w)
  | .getm => .getm (fieldCA w)
  | .getk => .getk (fieldCA w)
  | .getcount => .getcount (fieldCA w)
  | .getslot => .getslot (fieldCA w)
  | .getcfg => .getcfg (fieldCA w)
  | .slotidx => .slotidx (fieldCA w)
  | .slots => .slots (fieldCA w)
  | .test => .test (fieldCA w)
  | .add => .add (fieldCA w)
  | .testadd => .testadd (fieldCA w)
  | .testrem => .testrem (fieldCA w)
  | .tobf => .tobf (fieldCA w) (fieldCB w)
  | .ser => .ser (fieldCA w)
  | .deser => .deser (fieldCA w) (fieldVAR w) (fieldOVF w)
  | .equals => .equals (fieldCA w) (fieldCB w)

/-- Decoding of 30_encoding.md R64: the first row of the table that the word matches, else a rejection. -/
def decode (w : Word) : Except Reject Instr :=
  match opcodeTable.find? (fun r => (w &&& r.mask) == r.pattern) with
  | some r => .ok (r.op.command w)
  | none => .error (if opcodeTable.any (fun r => (w &&& 0xFF) == r.pattern) then .unusedBitSet else .reservedOpcode)

/-- The word that an opcode-table row of `nbits` bits and value `v` stands for: bits at and above `nbits` are 0. A command
has one length, 64 bits (30_encoding.md R60). -/
def tableWord (nbits v : Nat) : Word := BitVec.ofNat 64 (v % 2 ^ nbits)

/-- The command the decoder reads from an instruction word given as a number. -/
def decodeTableWord (nbits w : Nat) : Option Instr := (decode (tableWord nbits w)).toOption

/-- The bit of a variant (30_encoding.md R62). -/
def Variant.bit : Variant → Nat
  | .bf => 0
  | .cbf => 1

/-- The bit of an overflow policy (30_encoding.md R62). -/
def Policy.bit : Policy → Nat
  | .wrap => 0
  | .sat => 1

/-- A command word from its fields (30_encoding.md R62); all reserved bits are 0. -/
def packFields (o : Op) (ca cb var ovf : Nat) : Word :=
  BitVec.ofNat 64 (o.code + 2 ^ 8 * ca + 2 ^ 12 * cb + 2 ^ 16 * var + 2 ^ 17 * ovf)

/-- The word of a well-formed command; a field the row does not use is 0 (30_encoding.md R62, R63, R65). -/
def encode : Instr → Word
  | .config ca v o => packFields .config ca 0 v.bit o.bit
  | .destroy ca => packFields .destroy ca 0 0 0
  | .getm ca => packFields .getm ca 0 0 0
  | .getk ca => packFields .getk ca 0 0 0
  | .getcount ca => packFields .getcount ca 0 0 0
  | .getslot ca => packFields .getslot ca 0 0 0
  | .getcfg ca => packFields .getcfg ca 0 0 0
  | .slotidx ca => packFields .slotidx ca 0 0 0
  | .slots ca => packFields .slots ca 0 0 0
  | .test ca => packFields .test ca 0 0 0
  | .add ca => packFields .add ca 0 0 0
  | .testadd ca => packFields .testadd ca 0 0 0
  | .testrem ca => packFields .testrem ca 0 0 0
  | .tobf ca cb => packFields .tobf ca cb 0 0
  | .ser ca => packFields .ser ca 0 0 0
  | .deser ca v o => packFields .deser ca 0 v.bit o.bit
  | .equals ca cb => packFields .equals ca cb 0 0

end Sys2Proof
end

