-- ==== Sys2Proof/Config.lean ====
section
/-! DEFINITION. What is fixed for the life of a run (spec/00_scope.md R5, R6): the capacities, the modulus `Q` and the
permutation hash, with the constraints the spec states and no other; and the free values the spec leaves open, each an
opaque constant with no body. -/

namespace Sys2Proof

/-- Which function the permutation hash `PERM` of 00_scope.md R6 is, as plain data. -/
inductive HashFn where
  /-- The hash collaborator number `id`: an unknown function, `Config.collaborator id` (R4, R6). -/
  | collaborator (id : Nat)
  /-- `PERM(x, i) = Fail` for the listed `x`, else `a * x + b * i + c` reduced modulo `Q`; the form of the stub of
  95_test_vectors.md section 2. -/
  | affine (a b c : Nat) (failing : List Nat)
  deriving DecidableEq, Repr, Inhabited

/-- The parameters of 00_scope.md R5. -/
structure Params where
  nctx : Nat
  mMax : Nat
  kMax : Nat
  keyMax : Nat
  serMax : Nat
  q : Nat
  hash : HashFn
  deriving DecidableEq, Repr, Inhabited

/-- Number of decimal digits of `n` by `fuel` divisions; exact for `n < 10 ^ fuel` (44_codec.md R142). -/
def decimalLength : Nat → Nat → Nat
  | 0, _ => 0
  | fuel + 1, n => if n < 10 then 1 else decimalLength fuel (n / 10) + 1

/-- `SERLEN_OF(m, k, count)` of 44_codec.md R145, for numbers below `2 ^ 64` (at most 20 digits). -/
def serlenOf (m k count : Nat) : Nat :=
  4 * ((30 + decimalLength 20 m + decimalLength 20 k + 2 * m + decimalLength 20 count + 2) / 3)

/-- The constraints 00_scope.md R5 puts on the parameters, and nothing more. -/
abbrev Params.Ok (p : Params) : Prop :=
  (2 ≤ p.nctx ∧ p.nctx ≤ 16) ∧
  (1 ≤ p.mMax ∧ p.mMax ≤ 2 ^ 63 - 1) ∧
  serlenOf p.mMax p.kMax (2 ^ 64 - 1) ≤ p.serMax ∧
  (1 ≤ p.kMax ∧ p.kMax ≤ 8192 ∧ p.kMax < p.q) ∧
  (p.keyMax % 8 = 0 ∧ 64 ≤ p.keyMax ∧ p.keyMax ≤ 65536) ∧
  (p.serMax % 8 = 0 ∧ p.serMax ≤ 2 ^ 24) ∧
  Nat.Prime p.q

/-- Parameters that meet 00_scope.md R5. -/
structure Config extends Params where
  ok : toParams.Ok
  deriving DecidableEq, Repr

/-- The test configuration the spec gives in 95_test_vectors.md section 2. It is one configuration that R5 allows; the
spec's vectors are computed under it. -/
def Config.testbench : Config where
  nctx := 4
  mMax := 4096
  kMax := 64
  keyMax := 128
  serMax := 16384
  q := 65521
  hash := .affine 31 17 5 [4242]
  ok := ⟨by decide, by decide, by decide, by decide, by decide, by decide, by norm_num⟩

/-- FREE VALUE (log entry 2). The answer of hash collaborator `id` on the pair `(x, i)`, `none` for `Fail`
(00_scope.md R4, R6): a deterministic function of which nothing is known. -/
opaque Config.collaborator : Nat → Nat → Nat → Option Nat

/-- FREE VALUE (log entry 1). The parameters of the engine that State.reset starts. -/
opaque Config.openParams : Params

/-- The configuration of the engine that State.reset starts: the open parameters where they meet R5. Nothing decides
that they do, so no proof can use a value of any parameter beyond R5's constraints (log entry 1). -/
def Config.engine : Config :=
  if h : Config.openParams.Ok then ⟨Config.openParams, h⟩ else Config.testbench

/-- FREE VALUE (log entry 6). The byte a buffer holds at host-port address `a` after reset number `n`, until it is
written (10_state.md R31). -/
opaque Config.powerOnByte : (n a : Nat) → Byte

/-- FREE VALUE (log entry 7). Slot `j` of context `c` after reset number `n`, until it is written (10_state.md R31). -/
opaque Config.powerOnSlot : (n c j : Nat) → Byte

/-- FREE VALUE (log entry 10). Slot `j` of the storage above a filter's `m` slots when draw number `n` constructs the
filter (10_state.md R26, 43_conversion.md R131). -/
opaque Config.spareSlot : (n j : Nat) → Byte

/-- FREE VALUE (log entry 8). What busy read number `n` of an output returns (70_reset_and_hazards.md R204). -/
opaque Config.busyRead : (n : Nat) → Word

end Sys2Proof
end

