-- ==== Sys2Proof/Machine/State.lean ====
section
/-! DEFINITION. Everything the spec gives the engine as state (spec/10_state.md R12 to R31), the host's coming accesses,
the reasons a step can stop, and the state after reset. -/

namespace Sys2Proof.Machine

/-- The error codes of 60_exceptions.md R166. The reserved codes 10 to 255 are never written, so they are no values. -/
inductive ErrCode where
  /-- 0: success. -/
  | ok
  /-- 1: reserved opcode, or a bit outside the opcode's used fields. -/
  | illegalCmd
  /-- 2: a context index `>= NCTX`. -/
  | badCtx
  /-- 3: the context has `valid = 0`. -/
  | notConfigured
  /-- 4: `KEYLEN > KEY_MAX`, a round index `>= k`, a slot index `>= m`, or `SERLEN > SER_MAX`. -/
  | range
  /-- 5: `m = 0`, `m > M_MAX` or `k > K_MAX` at construction. -/
  | config
  /-- 6: the source of `TOBF` is a BF. -/
  | variant
  /-- 7: `PERM` answered `Fail` for some round. -/
  | hash
  /-- 8: the text is not canonical or breaks a limit. -/
  | decode
  /-- 9: the text is longer than `SER_MAX`. -/
  | serOverflow
  deriving DecidableEq, Repr

/-- One filter context (10_state.md R24). `slots` is the whole array of `M_MAX` slots; its first `m` are the filter's. -/
structure Ctx where
  valid : Bool
  var : Variant
  ovf : Policy
  m : Word
  k : Word
  count : Word
  slots : List Byte
  deriving DecidableEq, Repr

/-- The bytes of `KEYBUF`, `IDXBUF` and `SERBUF` written since the last reset, by host-port byte address
(20_memory.md R41, R42), addresses strictly rising. An address that is not listed has not been written (log entry 6). -/
abbrev Memory := List Host.Cell

/-- What can happen next at the engine's boundary: one entry of the interleaving of 20_memory.md R48. -/
inductive Event where
  /-- `MemRead(addr, size)`. -/
  | read (addr : PortAddr) (size : Nat)
  /-- `MemWrite(addr, size, v)`. -/
  | write (addr : PortAddr) (size : Nat) (v : Word)
  /-- The reset input is asserted (70_reset_and_hazards.md R196). -/
  | reset
  /-- The engine's turn: it completes the pending command if there is one (60_exceptions.md R171). -/
  | engine
  deriving DecidableEq, Repr

/-- A register of the block at offsets `0x000` to `0x068` (10_state.md R13). -/
inductive Reg where
  | cmd | status | ctrl | arg0 | arg1 | result | keylen | serlen | idxcnt
  | capNctx | capMmax | capKmax | capKeymax | capSermax
  deriving DecidableEq, Repr

/-- What stands at a host-port address (20_memory.md R41). -/
inductive Location where
  | reg (r : Reg)
  | keybuf
  | idxbuf
  | serbuf
  /-- Reads as zero, writes ignored (20_memory.md R43). -/
  | razwi
  deriving DecidableEq, Repr

/-- The whole machine. -/
structure State where
  /-- The parameters, which the capability registers read (10_state.md R20). Nothing writes it (R12). -/
  cfg : Config
  /-- `CMD` (R14). -/
  cmd : Word
  /-- The pending-command latch (R22); `STATUS.BUSY` is 1 exactly when it is full. -/
  pending : Option Word
  /-- `STATUS.DONE` (R15). -/
  done : Bool
  /-- `STATUS.OVR` (R15). -/
  ovr : Bool
  /-- `STATUS.CTROVF` (R15). -/
  ctrovf : Bool
  /-- `STATUS.ERR` (R15). -/
  err : ErrCode
  /-- `CTRL.IE` (R16). -/
  ie : Bool
  /-- `ARG0` (R17). -/
  arg0 : Word
  /-- `ARG1` (R17). -/
  arg1 : Word
  /-- `RESULT` (R18). -/
  result : Word
  /-- `KEYLEN` (R19). -/
  keylen : Word
  /-- `SERLEN` (R19). -/
  serlen : Word
  /-- `IDXCNT` (R20). -/
  idxcnt : Word
  /-- The filter contexts `ctx[0] .. ctx[NCTX-1]` (R24). -/
  ctxs : List Ctx
  /-- The buffers (R27, R28, R29). -/
  mem : Memory
  /-- The model's own: how many resets have happened (log entry 6). -/
  resets : Nat
  /-- The model's own: how many free values have been drawn since reset number 0 (log entries 8, 10). -/
  draws : Nat
  /-- The model's own: what the host's last read returned (log entry 5). -/
  rdata : Word
  /-- The model's own: the host accesses, resets and engine turns still to come (log entry 3). -/
  schedule : List Event
  deriving DecidableEq, Repr

/-- Why the machine stops with a fault: never. No behaviour of this engine stops it (93_implementation_defined.md; a
failing command completes with an error code, 60_exceptions.md R173), so there is no constructor (log entry 15). -/
inductive Fault where
  deriving DecidableEq, Repr

/-- Why a step has no meaning. -/
inductive Refusal where
  /-- Raised by `exec`'s arm of an instruction that has no meaning yet. Safe. -/
  | notModelled (mnemonic : String)
  /-- Raised by a host access that is not 8 bytes wide or not 8-aligned: the spec gives it no meaning
  (20_memory.md R40, R45). Safe. -/
  | hostAccess (addr : PortAddr) (size : Nat)
  deriving DecidableEq, Repr

/-- Context `c` after reset number `n` (10_state.md R31): invalid, every field 0, every slot a free value. -/
def Ctx.powerOn (p : Config) (n c : Nat) : Ctx where
  valid := false
  var := .bf
  ovf := .wrap
  m := 0
  k := 0
  count := 0
  slots := (List.range p.mMax).map (Config.powerOnSlot n c)

/-- The engine with parameters `p` after reset number `n` (10_state.md R31), with nothing scheduled. -/
def State.powerOn (p : Config) (n : Nat) : State where
  cfg := p
  cmd := 0
  pending := none
  done := false
  ovr := false
  ctrovf := false
  err := .ok
  ie := false
  arg0 := 0
  arg1 := 0
  result := 0
  keylen := 0
  serlen := 0
  idxcnt := 0
  ctxs := (List.range p.nctx).map (Ctx.powerOn p n)
  mem := []
  resets := n
  draws := 0
  rdata := 0
  schedule := []

/-- The machine right after reset (10_state.md R31, 70_reset_and_hazards.md R196, R198). -/
def State.reset : State := State.powerOn Config.engine 0

end Sys2Proof.Machine
end

