-- ==== Sys2Proof/Machine/Ops.lean ====
section
/-! DEFINITION. The shared operations over the state: the byte memory of the buffers, the filter contexts, the two ends of
a command (spec/60_exceptions.md R171, R172) and its acceptance (spec/10_state.md R14). -/

namespace Sys2Proof.Machine

/-! ### The byte memory -/

/-- The canonical form of a memory: addresses strictly rise, so each address stands at most once. -/
abbrev Memory.wf (m : Memory) : Prop := m.Pairwise (fun x y => x.1 < y.1)

/-- The byte written at `a` since the last reset, if one was. -/
def memGet : Memory → Nat → Option Byte
  | [], _ => none
  | (b, v) :: m, a => if b = a then some v else memGet m a

/-- Writes one byte, keeping the addresses in order. -/
def memSet : Memory → Nat → Byte → Memory
  | [], a, v => [(a, v)]
  | (b, w) :: m, a, v =>
    if a < b then (a, v) :: (b, w) :: m
    else if a = b then (a, v) :: m
    else (b, w) :: memSet m a v

/-- Writes the bytes of a list at consecutive addresses from `a` up. -/
def memSetRange : Memory → Nat → List Byte → Memory
  | m, _, [] => m
  | m, a, v :: vs => memSetRange (memSet m a v) (a + 1) vs

/-- The byte at host-port address `a` of a buffer. A byte not written since the last reset has the value the reset drew
for it (10_state.md R31; log entry 6): this is the one definition of what an unlisted address reads as. -/
def State.byteAt (s : State) (a : Nat) : Byte :=
  match memGet s.mem a with
  | some v => v
  | none => Config.powerOnByte s.resets a

/-- The `n` bytes from address `a` up. -/
def State.bytesAt (s : State) (a : Nat) : Nat → List Byte
  | 0 => []
  | n + 1 => s.byteAt a :: s.bytesAt (a + 1) n

/-- Writes bytes of a buffer from address `a` up. -/
def State.setBytes (s : State) (a : Nat) (vs : List Byte) : State :=
  { s with mem := memSetRange s.mem a vs }

/-! ### 64-bit words in byte memory -/

/-- Little-endian value of a byte list: the first byte is the least significant (20_memory.md R42). -/
def leValue : List Byte → Nat
  | [] => 0
  | b :: bs => b.toNat + 256 * leValue bs

/-- The eight bytes of a word, byte `t` being `v[8t+7:8t]` (20_memory.md R42). -/
def wordBytes (v : Word) : List Byte := (List.range 8).map fun t => v.extractLsb' (8 * t) 8

/-- The 64-bit word at address `a` of a buffer window (20_memory.md R42). -/
def State.wordAt (s : State) (a : Nat) : Word := BitVec.ofNat 64 (leValue (s.bytesAt a 8))

/-- Address of `KEYBUF[0]` (20_memory.md R41). -/
def keybufBase : Nat := 0x00010000

/-- Address of `IDXBUF[0]` (20_memory.md R41). -/
def idxbufBase : Nat := 0x00020000

/-- Address of `SERBUF[0]` (20_memory.md R41). -/
def serbufBase : Nat := 0x01000000

/-- `IDXBUF[i]` (10_state.md R28; log entry 14). -/
def State.idxEntry (s : State) (i : Nat) : Word := s.wordAt (idxbufBase + 8 * i)

/-- `IDXBUF[0], IDXBUF[1], ... <- L` (41_hash_pipeline.md R104; log entry 14). -/
def State.setIdxEntries (s : State) (L : List Nat) : State :=
  s.setBytes idxbufBase (L.flatMap fun j => wordBytes (BitVec.ofNat 64 j))

/-! ### Filter contexts -/

/-- What a context index outside the list reads as: an invalid, empty context. No command reaches it in a state that
meets the invariant, since `check_ctx` comes first (log entry 18). -/
def Ctx.absent : Ctx where
  valid := false
  var := .bf
  ovf := .wrap
  m := 0
  k := 0
  count := 0
  slots := []

/-- `ctx[c]` (10_state.md R24). -/
def State.ctx (s : State) (c : Nat) : Ctx := s.ctxs.getD c Ctx.absent

/-- `ctx[c] <- x`. -/
def State.setCtx (s : State) (c : Nat) (x : Ctx) : State := { s with ctxs := s.ctxs.set c x }

/-- `ctx.slots[j]`. -/
def Ctx.slot (x : Ctx) (j : Nat) : Byte := x.slots.getD j 0

/-- The filter's slots `slots[0 .. m-1]` (10_state.md R26). -/
def Ctx.live (x : Ctx) : List Byte := x.slots.take x.m.toNat

/-- The storage above the first `m` slots of a context when a filter is constructed over it: its values are unspecified
(10_state.md R26, 43_conversion.md R131; log entry 10). -/
def State.spareSlots (s : State) (m : Nat) : List Byte :=
  (List.range (s.cfg.mMax - m)).map fun i => Config.spareSlot s.draws (m + i)

/-- Constructs a filter over context `c`, whatever the context held: the shared write of `CONFIG`, `DESER` and `TOBF`
(40_lifecycle.md R81, 44_codec.md R152, 43_conversion.md R131). `new` are the filter's slots. -/
def State.construct (s : State) (c : Nat) (var : Variant) (ovf : Policy) (m k count : Word) (new : List Byte) : State :=
  { s.setCtx c
      { valid := true, var := var, ovf := ovf, m := m, k := k, count := count, slots := new ++ s.spareSlots new.length } with
    draws := s.draws + 1 }

/-! ### Ends and acceptance of a command -/

/-- `STATUS.BUSY`: the pending latch is full (10_state.md R22). -/
def State.busy (s : State) : Bool := s.pending.isSome

/-- `complete(v)`: the successful end of a command (60_exceptions.md R171). -/
def complete (v : Word) (s : State) : State :=
  { s with result := v, err := .ok, done := true, pending := none }

/-- `raise E`: the failing end of a command, the engine's only form of exception (60_exceptions.md R172, R173). -/
def raise (e : ErrCode) (s : State) : State :=
  { s with result := 0, err := e, done := true, pending := none }

/-- Ends a command started in `s`: on success its writes and result stand; on an error nothing it computed does
(60_exceptions.md R171, R172). -/
def finish (s : State) : Except ErrCode (State × Word) → State
  | .ok (t, v) => complete v t
  | .error e => raise e s

/-- A check of a command: goes on when `b` holds, ends the command with `e` when not (40_lifecycle.md R80). -/
def require (b : Bool) (e : ErrCode) : Except ErrCode Unit := if b then .ok () else .error e

/-- A Boolean result (00_scope.md R8). -/
def boolWord (b : Bool) : Word := if b then 1 else 0

/-- Acceptance of command word `v` (10_state.md R14). -/
def acceptCommand (v : Word) (s : State) : State :=
  { s with cmd := v, pending := some v, done := false }

end Sys2Proof.Machine
end

