-- ==== Sys2Proof/Machine/Operands.lean ====
section
/-! DEFINITION. The operand forms of the commands: the shared checks of spec/40_lifecycle.md R80, the key and the serial
text in their buffers (spec/30_encoding.md R61). A context operand is the index in the command (R63); the numeric operands
are the registers `arg0` and `arg1` read whole (R63). -/

namespace Sys2Proof.Machine

/-- `check_ctx(c)` (40_lifecycle.md R80). -/
def checkCtx (s : State) (c : Nat) : Except ErrCode Unit := require (decide (c < s.cfg.nctx)) .badCtx

/-- `check_valid(c)` (40_lifecycle.md R80). -/
def checkValid (s : State) (c : Nat) : Except ErrCode Unit := require (s.ctx c).valid .notConfigured

/-- `check_key()` (40_lifecycle.md R80). -/
def checkKey (s : State) : Except ErrCode Unit := require (decide (s.keylen.toNat ≤ s.cfg.keyMax)) .range

/-- `key()`: `KEYBUF[0 .. KEYLEN-1]` (40_lifecycle.md R80, 10_state.md R27). -/
def State.key (s : State) : List Byte := s.bytesAt keybufBase s.keylen.toNat

/-- The serial text `SERBUF[0 .. SERLEN-1]` (30_encoding.md R61, 10_state.md R29). -/
def State.text (s : State) : List Byte := s.bytesAt serbufBase s.serlen.toNat

end Sys2Proof.Machine
end

