-- ==== Sys2Proof/Machine/Convert.lean ====
section
/-! DEFINITION. `TOBF`: the projection of a counting filter onto a Bloom filter (spec/43_conversion.md R131, R132). -/

namespace Sys2Proof.Machine

/-- The projection of one slot: a zero test, no arithmetic (43_conversion.md R131, R132). -/
def projectSlot (v : Byte) : Byte := if v = 0 then 0 else 1

/-- 43_conversion.md R131. -/
def tobfCmd (ca cb : Nat) (s : State) : Except ErrCode (State × Word) := do
  checkCtx s ca
  checkCtx s cb
  checkValid s ca
  require (decide ((s.ctx ca).var = .cbf)) .variant
  let a := s.ctx ca
  return (s.construct cb .bf .wrap a.m a.k a.count (a.live.map projectSlot), 0)

/-- `TOBF` (43_conversion.md R131). -/
def execTobf (ca cb : Nat) (s : State) : Host.Outcome State Fault Refusal :=
  .next (finish s (tobfCmd ca cb s))

end Sys2Proof.Machine
end

