-- ==== Sys2Proof/Machine/Equality.lean ====
section
/-! DEFINITION. `EQUALS`: structural equality of two filters (spec/45_equality.md R161). -/

namespace Sys2Proof.Machine

/-- Structural equality: variant, `m`, `k`, `count` and the slots below `m`; not the overflow policy
(45_equality.md R161). -/
def Ctx.same (a b : Ctx) : Bool :=
  decide (a.var = b.var) && decide (a.m = b.m) && decide (a.k = b.k) && decide (a.count = b.count) &&
    decide (a.live = b.live)

/-- 45_equality.md R161. -/
def equalsCmd (ca cb : Nat) (s : State) : Except ErrCode (State × Word) := do
  checkCtx s ca
  checkCtx s cb
  checkValid s ca
  checkValid s cb
  return (s, boolWord ((s.ctx ca).same (s.ctx cb)))

/-- `EQUALS` (45_equality.md R161). -/
def execEquals (ca cb : Nat) (s : State) : Host.Outcome State Fault Refusal :=
  .next (finish s (equalsCmd ca cb s))

end Sys2Proof.Machine
end

