-- ==== Sys2Proof/Machine/Hash.lean ====
section
/-! DEFINITION. The hash-to-slot-index mapper: `Encode`, `PERM`, `SlotIndex` and `SlotsForKey`
(spec/41_hash_pipeline.md R96 to R101). -/

namespace Sys2Proof.Machine

/-- The big-endian value of a byte string: the sum of `b[j] * 256 ^ (L-1-j)` (41_hash_pipeline.md R96). -/
def bigEndian : List Byte → Nat
  | [] => 0
  | b :: bs => b.toNat * 256 ^ bs.length + bigEndian bs

/-- `Encode` (41_hash_pipeline.md R96): exact, never truncated. -/
def encodeKey (p : Config) (b : List Byte) : Nat := bigEndian b % p.q

/-- The function that a `HashFn` names, before its range is enforced. -/
def HashFn.apply : HashFn → Nat → Nat → Option Nat
  | .collaborator id, x, i => Config.collaborator id x i
  | .affine a b c failing, x, i => if x ∈ failing then none else some (a * x + b * i + c)

/-- `PERM(x, i)` (00_scope.md R6), `none` for `Fail`. The result is taken modulo `Q`, which is the identity on every
function whose range is `[0, Q)` as R6 requires (log entry 2). -/
def perm (p : Config) (x i : Nat) : Option Nat := (HashFn.apply p.hash x i).map (· % p.q)

/-- `SlotIndex(b, i, m)` (41_hash_pipeline.md R98). -/
def slotIndex (p : Config) (b : List Byte) (i m : Nat) : Option Nat := (perm p (encodeKey p b) i).map (· % m)

/-- Applies `f` to each entry in order; fails when one application fails (41_hash_pipeline.md R100, R101). -/
def mapRounds (f : Nat → Option Nat) : List Nat → Option (List Nat)
  | [] => some []
  | i :: is =>
    match f i, mapRounds f is with
    | some h, some hs => some (h :: hs)
    | _, _ => none

/-- `SlotsForKey(b, k, m)` (41_hash_pipeline.md R100): `x = Encode(b)` once, then rounds `0 .. k-1`. -/
def slotsForKey (p : Config) (b : List Byte) (k m : Nat) : Option (List Nat) :=
  mapRounds (fun i => (perm p (encodeKey p b) i).map (· % m)) (List.range k)

/-- The touched slots of the current key in context `c`, or the error `HASH` (41_hash_pipeline.md R100, R102). -/
def touchedSlots (s : State) (c : Nat) : Except ErrCode (List Nat) :=
  match slotsForKey s.cfg s.key (s.ctx c).k.toNat (s.ctx c).m.toNat with
  | some L => .ok L
  | none => .error .hash

end Sys2Proof.Machine
end

