-- ==== Sys2Proof/Machine/HashCmds.lean ====
section
/-! DEFINITION. `SLOTIDX` and `SLOTS`, which expose the hash pipeline (spec/41_hash_pipeline.md R103, R104). -/

namespace Sys2Proof.Machine

/-- 41_hash_pipeline.md R103. -/
def slotidxCmd (ca : Nat) (s : State) : Except ErrCode (State × Word) := do
  checkCtx s ca
  checkValid s ca
  checkKey s
  require (decide (s.arg0.toNat < (s.ctx ca).k.toNat)) .range
  match slotIndex s.cfg s.key s.arg0.toNat (s.ctx ca).m.toNat with
  | some r => .ok (s, BitVec.ofNat 64 r)
  | none => .error .hash

/-- `SLOTIDX` (41_hash_pipeline.md R103). -/
def execSlotidx (ca : Nat) (s : State) : Host.Outcome State Fault Refusal :=
  .next (finish s (slotidxCmd ca s))

/-- 41_hash_pipeline.md R104. -/
def slotsCmd (ca : Nat) (s : State) : Except ErrCode (State × Word) := do
  checkCtx s ca
  checkValid s ca
  checkKey s
  let L ← touchedSlots s ca
  return ({ s.setIdxEntries L with idxcnt := (s.ctx ca).k }, (s.ctx ca).k)

/-- `SLOTS` (41_hash_pipeline.md R104). -/
def execSlots (ca : Nat) (s : State) : Host.Outcome State Fault Refusal :=
  .next (finish s (slotsCmd ca s))

end Sys2Proof.Machine
end

