-- ==== Sys2Proof/Machine/Lifecycle.lean ====
section
/-! DEFINITION. `CONFIG`, `DESTROY` and the read accessors `GETM`, `GETK`, `GETCOUNT`, `GETSLOT`, `GETCFG`
(spec/40_lifecycle.md R81 to R87). A `…Cmd` is a command's pseudocode: the state with its writes and its result value,
or the error it raises; `exec…` ends the command. -/

namespace Sys2Proof.Machine

/-- 40_lifecycle.md R81. -/
def configCmd (ca : Nat) (var : Variant) (ovf : Policy) (s : State) : Except ErrCode (State × Word) := do
  checkCtx s ca
  require (decide (s.arg0 ≠ 0)) .config
  require (decide (s.arg0.toNat ≤ s.cfg.mMax)) .config
  require (decide (s.arg1.toNat ≤ s.cfg.kMax)) .config
  return (s.construct ca var ovf s.arg0 s.arg1 0 (List.replicate s.arg0.toNat 0), 0)

/-- `CONFIG` (40_lifecycle.md R81). -/
def execConfig (ca : Nat) (var : Variant) (ovf : Policy) (s : State) : Host.Outcome State Fault Refusal :=
  .next (finish s (configCmd ca var ovf s))

/-- 40_lifecycle.md R82. The other fields keep what they held (log entry 11). -/
def destroyCmd (ca : Nat) (s : State) : Except ErrCode (State × Word) := do
  checkCtx s ca
  return (s.setCtx ca { s.ctx ca with valid := false }, 0)

/-- `DESTROY` (40_lifecycle.md R82). -/
def execDestroy (ca : Nat) (s : State) : Host.Outcome State Fault Refusal :=
  .next (finish s (destroyCmd ca s))

/-- The shape of `GETM`, `GETK` and `GETCOUNT`: read one field of a valid context (40_lifecycle.md R83 to R85). -/
def accessorCmd (field : Ctx → Word) (ca : Nat) (s : State) : Except ErrCode (State × Word) := do
  checkCtx s ca
  checkValid s ca
  return (s, field (s.ctx ca))

/-- `GETM` (40_lifecycle.md R83). -/
def execGetm (ca : Nat) (s : State) : Host.Outcome State Fault Refusal :=
  .next (finish s (accessorCmd Ctx.m ca s))

/-- `GETK` (40_lifecycle.md R84). -/
def execGetk (ca : Nat) (s : State) : Host.Outcome State Fault Refusal :=
  .next (finish s (accessorCmd Ctx.k ca s))

/-- `GETCOUNT` (40_lifecycle.md R85). -/
def execGetcount (ca : Nat) (s : State) : Host.Outcome State Fault Refusal :=
  .next (finish s (accessorCmd Ctx.count ca s))

/-- 40_lifecycle.md R86. -/
def getslotCmd (ca : Nat) (s : State) : Except ErrCode (State × Word) := do
  checkCtx s ca
  checkValid s ca
  require (decide (s.arg0.toNat < (s.ctx ca).m.toNat)) .range
  return (s, ((s.ctx ca).slot s.arg0.toNat).setWidth 64)

/-- `GETSLOT` (40_lifecycle.md R86). -/
def execGetslot (ca : Nat) (s : State) : Host.Outcome State Fault Refusal :=
  .next (finish s (getslotCmd ca s))

/-- `zext_64({ovf, var, valid})`, and 0 for an invalid context (40_lifecycle.md R87). -/
def Ctx.cfgWord (x : Ctx) : Word :=
  if x.valid then BitVec.ofNat 64 (1 + 2 * x.var.bit + 4 * x.ovf.bit) else 0

/-- 40_lifecycle.md R87. -/
def getcfgCmd (ca : Nat) (s : State) : Except ErrCode (State × Word) := do
  checkCtx s ca
  return (s, (s.ctx ca).cfgWord)

/-- `GETCFG` (40_lifecycle.md R87). -/
def execGetcfg (ca : Nat) (s : State) : Host.Outcome State Fault Refusal :=
  .next (finish s (getcfgCmd ca s))

end Sys2Proof.Machine
end

