-- ==== Sys2Proof/Machine/Codec.lean ====
section
/-! DEFINITION. The serialized form of a filter and its strict decoder: `Dec`, `Hex`, `Text`, `Base64`, `Ser` and `Decode`
(spec/44_codec.md R140 to R146). Texts are lists of ASCII byte codes. -/

namespace Sys2Proof.Machine

/-- What a serialized text carries (44_codec.md R140): no variant and no policy. -/
structure Filter where
  m : Nat
  k : Nat
  count : Nat
  slots : List Byte
  deriving DecidableEq, Repr

/-- The filter a context holds. -/
def Ctx.filter (x : Ctx) : Filter where
  m := x.m.toNat
  k := x.k.toNat
  count := x.count.toNat
  slots := x.live

/-! ### The structured text -/

/-- The five characters before the numeral of `M`: left brace, quote, `M`, quote, colon (44_codec.md R141). -/
def litM : List Byte := [0x7B, 0x22, 0x4D, 0x22, 0x3A]

/-- The five characters `,"K":` (44_codec.md R141). -/
def litK : List Byte := [0x2C, 0x22, 0x4B, 0x22, 0x3A]

/-- The nine characters `,"Data":"` (44_codec.md R141). -/
def litData : List Byte := [0x2C, 0x22, 0x44, 0x61, 0x74, 0x61, 0x22, 0x3A, 0x22]

/-- The ten characters `","Count":` (44_codec.md R141). -/
def litCount : List Byte := [0x22, 0x2C, 0x22, 0x43, 0x6F, 0x75, 0x6E, 0x74, 0x22, 0x3A]

/-- The closing right brace (44_codec.md R141). -/
def litEnd : List Byte := [0x7D]

/-- The ASCII digit of a number below 10 (44_codec.md R142). -/
def decDigit (d : Nat) : Byte := BitVec.ofNat 8 (0x30 + d)

/-- The shortest decimal numeral of `n`, for `n < 10 ^ fuel` (44_codec.md R142). -/
def decimal : Nat → Nat → List Byte
  | 0, _ => []
  | fuel + 1, n => if n < 10 then [decDigit n] else decimal fuel (n / 10) ++ [decDigit (n % 10)]

/-- `Dec(n)` for `n < 2 ^ 64`: at most 20 digits (44_codec.md R142). -/
def dec (n : Nat) : List Byte := decimal 20 n

/-- The lowercase hexadecimal character of a nibble (44_codec.md R143). -/
def hexDigit (d : Nat) : Byte := BitVec.ofNat 8 (if d < 10 then 0x30 + d else 0x61 + (d - 10))

/-- `Hex`: high nibble then low nibble of each slot in index order (44_codec.md R143). -/
def hex : List Byte → List Byte
  | [] => []
  | v :: vs => hexDigit (v.toNat / 16) :: hexDigit (v.toNat % 16) :: hex vs

/-- `Text(f)` (44_codec.md R141). -/
def textOf (f : Filter) : List Byte :=
  litM ++ dec f.m ++ litK ++ dec f.k ++ litData ++ hex f.slots ++ litCount ++ dec f.count ++ litEnd

/-! ### Base64 -/

/-- `ALPHA[v]` (44_codec.md R144). -/
def alpha (v : Nat) : Byte :=
  BitVec.ofNat 8
    (if v < 26 then 0x41 + v
     else if v < 52 then 0x61 + (v - 26)
     else if v < 62 then 0x30 + (v - 52)
     else if v = 62 then 0x2B
     else 0x2F)

/-- The pad character (44_codec.md R144). -/
def pad : Byte := 0x3D

/-- `Base64(b)` (44_codec.md R144). -/
def base64 : List Byte → List Byte
  | [] => []
  | [a] =>
    let v := a.toNat * 65536
    [alpha (v / 262144), alpha (v / 4096 % 64), pad, pad]
  | [a, b] =>
    let v := a.toNat * 65536 + b.toNat * 256
    [alpha (v / 262144), alpha (v / 4096 % 64), alpha (v / 64 % 64), pad]
  | a :: b :: c :: rest =>
    let v := a.toNat * 65536 + b.toNat * 256 + c.toNat
    alpha (v / 262144) :: alpha (v / 4096 % 64) :: alpha (v / 64 % 64) :: alpha (v % 64) :: base64 rest

/-- `Ser(f)` (44_codec.md R144). -/
def serialize (f : Filter) : List Byte := base64 (textOf f)

/-! ### The strict decoder (44_codec.md R146) -/

/-- The 6-bit value of an alphabet character, if it is one. -/
def unalpha (c : Byte) : Option Nat :=
  let n := c.toNat
  if 0x41 ≤ n ∧ n ≤ 0x5A then some (n - 0x41)
  else if 0x61 ≤ n ∧ n ≤ 0x7A then some (n - 0x61 + 26)
  else if 0x30 ≤ n ∧ n ≤ 0x39 then some (n - 0x30 + 52)
  else if n = 0x2B then some 62
  else if n = 0x2F then some 63
  else none

/-- A four-character group with no pad: three bytes. -/
def unbase64Full (a b c d : Byte) : Option (List Byte) :=
  match unalpha a, unalpha b, unalpha c, unalpha d with
  | some w, some x, some y, some z =>
    let v := ((w * 64 + x) * 64 + y) * 64 + z
    some [BitVec.ofNat 8 (v / 65536), BitVec.ofNat 8 (v / 256 % 256), BitVec.ofNat 8 (v % 256)]
  | _, _, _, _ => none

/-- The last four-character group: with two, one or no pad; the unused low bits of a padded group must be 0. -/
def unbase64Last (a b c d : Byte) : Option (List Byte) :=
  if d = pad then
    if c = pad then
      match unalpha a, unalpha b with
      | some w, some x =>
        let v := w * 64 + x
        if v % 16 = 0 then some [BitVec.ofNat 8 (v / 16)] else none
      | _, _ => none
    else
      match unalpha a, unalpha b, unalpha c with
      | some w, some x, some y =>
        let v := (w * 64 + x) * 64 + y
        if v % 4 = 0 then some [BitVec.ofNat 8 (v / 1024), BitVec.ofNat 8 (v / 4 % 256)] else none
      | _, _, _ => none
  else unbase64Full a b c d

/-- Layer 1: strict base64 of a text that is not empty (44_codec.md R146). -/
def unbase64 : List Byte → Option (List Byte)
  | [a, b, c, d] => unbase64Last a b c d
  | a :: b :: c :: d :: rest =>
    match unbase64Full a b c d, unbase64 rest with
    | some x, some y => some (x ++ y)
    | _, _ => none
  | _ => none

/-- Removes a literal from the front of a text. -/
def takeLit : List Byte → List Byte → Option (List Byte)
  | [], t => some t
  | _ :: _, [] => none
  | c :: cs, x :: xs => if x = c then takeLit cs xs else none

/-- The value of a decimal digit character, if it is one. -/
def undigit (c : Byte) : Option Nat :=
  if 0x30 ≤ c.toNat ∧ c.toNat ≤ 0x39 then some (c.toNat - 0x30) else none

/-- The longest run of digits at the front of a text, and the rest. -/
def takeDigits : List Byte → List Nat × List Byte
  | [] => ([], [])
  | c :: cs =>
    match undigit c with
    | some d => (d :: (takeDigits cs).1, (takeDigits cs).2)
    | none => ([], c :: cs)

/-- The number a digit list writes, most significant digit first. -/
def digitsValue (ds : List Nat) : Nat := ds.foldl (fun n d => n * 10 + d) 0

/-- A numeral `"0" | [1-9][0-9]*` at the front of a text: its value and the rest (44_codec.md R146). -/
def takeNumber (t : List Byte) : Option (Nat × List Byte) :=
  match takeDigits t with
  | ([], _) => none
  | ([d], r) => some (d, r)
  | (0 :: _ :: _, _) => none
  | (ds, r) => some (digitsValue ds, r)

/-- The value of a lowercase hexadecimal character, if it is one. -/
def unhexDigit (c : Byte) : Option Nat :=
  if 0x30 ≤ c.toNat ∧ c.toNat ≤ 0x39 then some (c.toNat - 0x30)
  else if 0x61 ≤ c.toNat ∧ c.toNat ≤ 0x66 then some (c.toNat - 0x61 + 10)
  else none

/-- The longest run of hexadecimal pairs at the front of a text, as bytes, and the rest. -/
def takeHex : List Byte → List Byte × List Byte
  | a :: b :: r =>
    match unhexDigit a, unhexDigit b with
    | some x, some y => (BitVec.ofNat 8 (x * 16 + y) :: (takeHex r).1, (takeHex r).2)
    | _, _ => ([], a :: b :: r)
  | r => ([], r)

/-- Layer 2: the structured text, matched in full (44_codec.md R146). -/
def parseText (j : List Byte) : Option Filter := do
  let r ← takeLit litM j
  let (m, r) ← takeNumber r
  let r ← takeLit litK r
  let (k, r) ← takeNumber r
  let r ← takeLit litData r
  let (slots, r) := takeHex r
  let r ← takeLit litCount r
  let (count, r) ← takeNumber r
  let r ← takeLit litEnd r
  if r = [] then some { m := m, k := k, count := count, slots := slots } else none

/-- A filter that fits 64-bit fields, has as many slots as it says, and meets the engine's limits for the target variant
(44_codec.md R146, layer 3). -/
abbrev Filter.Fits (p : Config) (var : Variant) (f : Filter) : Prop :=
  (f.m < 2 ^ 64 ∧ f.k < 2 ^ 64 ∧ f.count < 2 ^ 64) ∧
  f.slots.length = f.m ∧
  (1 ≤ f.m ∧ f.m ≤ p.mMax ∧ f.k ≤ p.kMax) ∧
  (var = .bf → ∀ v ∈ f.slots, v.toNat ≤ 1)

/-- `Decode(t, var)` (44_codec.md R146), `none` for `Fail`. -/
def decodeText (p : Config) (var : Variant) (t : List Byte) : Option Filter := do
  let j ← unbase64 t
  let f ← parseText j
  if f.Fits p var then some f else none

end Sys2Proof.Machine
end

