-- ==== Sys2Proof/Machine/SerDes.lean ====
section
/-! DEFINITION. `SER` and `DESER` (spec/44_codec.md R151, R152). -/

namespace Sys2Proof.Machine

/-- 44_codec.md R151. -/
def serCmd (ca : Nat) (s : State) : Except ErrCode (State × Word) := do
  checkCtx s ca
  checkValid s ca
  let t := serialize (s.ctx ca).filter
  require (decide (t.length ≤ s.cfg.serMax)) .serOverflow
  return ({ s.setBytes serbufBase t with serlen := BitVec.ofNat 64 t.length }, BitVec.ofNat 64 t.length)

/-- `SER` (44_codec.md R151). -/
def execSer (ca : Nat) (s : State) : Host.Outcome State Fault Refusal :=
  .next (finish s (serCmd ca s))

/-- 44_codec.md R152. -/
def deserCmd (ca : Nat) (var : Variant) (ovf : Policy) (s : State) : Except ErrCode (State × Word) := do
  checkCtx s ca
  require (decide (s.serlen.toNat ≤ s.cfg.serMax)) .range
  match decodeText s.cfg var s.text with
  | some f =>
    .ok (s.construct ca var ovf (BitVec.ofNat 64 f.m) (BitVec.ofNat 64 f.k) (BitVec.ofNat 64 f.count) f.slots, 0)
  | none => .error .decode

/-- `DESER` (44_codec.md R152). -/
def execDeser (ca : Nat) (var : Variant) (ovf : Policy) (s : State) : Host.Outcome State Fault Refusal :=
  .next (finish s (deserCmd ca var ovf s))

end Sys2Proof.Machine
end

