-- ==== Sys2Proof/Machine/Flags.lean ====
section
/-! DEFINITION. Every flag computation: the `STATUS` word and its write-one-to-clear write (spec/10_state.md R15), `CTRL`
(R16), the interrupt line (R30), and the counter arithmetic that sets `CTROVF` (spec/42_slot_ops.md R112). -/

namespace Sys2Proof.Machine

/-- The code of an error (60_exceptions.md R166). -/
def ErrCode.code : ErrCode → Nat
  | .ok => 0
  | .illegalCmd => 1
  | .badCtx => 2
  | .notConfigured => 3
  | .range => 4
  | .config => 5
  | .variant => 6
  | .hash => 7
  | .decode => 8
  | .serOverflow => 9

/-- What `STATUS` reads as (10_state.md R15). -/
def State.statusWord (s : State) : Word :=
  BitVec.ofNat 64 (s.busy.toNat + 2 * s.done.toNat + 4 * s.ovr.toNat + 8 * s.ctrovf.toNat + 256 * s.err.code)

/-- A host write of `v` to `STATUS`: bits 1, 2 and 3 written as 1 clear `DONE`, `OVR` and `CTROVF` (10_state.md R15). -/
def writeStatus (v : Word) (s : State) : State :=
  { s with
    done := s.done && !v.getLsbD 1
    ovr := s.ovr && !v.getLsbD 2
    ctrovf := s.ctrovf && !v.getLsbD 3 }

/-- What `CTRL` reads as (10_state.md R16). -/
def State.ctrlWord (s : State) : Word := boolWord s.ie

/-- A host write of `v` to `CTRL` (10_state.md R16). -/
def writeCtrl (v : Word) (s : State) : State := { s with ie := v.getLsbD 0 }

/-- The interrupt output (10_state.md R30, 60_exceptions.md R176). -/
def State.irq (s : State) : Bool := s.done && s.ie

/-- `inc` of 42_slot_ops.md R112: the new slot value, and whether the increment started at 255. -/
def incSlot (p : Policy) (v : Byte) : Byte × Bool :=
  if v = 255 then
    match p with
    | .sat => (255, true)
    | .wrap => (0, true)
  else (v + 1, false)

/-- `dec` of 42_slot_ops.md R112: the new slot value, and whether the decrement started at 0. -/
def decSlot (p : Policy) (v : Byte) : Byte × Bool :=
  if v = 0 then
    match p with
    | .sat => (0, true)
    | .wrap => (255, true)
  else (v - 1, false)

/-- The slot update of a BF: set to 1; it never overflows (42_slot_ops.md R115). -/
def setSlot (_ : Byte) : Byte × Bool := (1, false)

end Sys2Proof.Machine
end

