-- ==== Sys2Proof/Machine/SlotOps.lean ====
section
/-! DEFINITION. `TEST`, `ADD`, `TESTADD` and `TESTREM` in their BF and CBF forms (spec/42_slot_ops.md R111 to R122). -/

namespace Sys2Proof.Machine

/-- `Member(A, L)` (42_slot_ops.md R111). -/
def member (slots : List Byte) (L : List Nat) : Bool := L.all fun j => decide (slots.getD j 0 ≠ 0)

/-- Visits `L` once per occurrence, replacing each visited slot by `f` of it; the flag says whether some visit overflowed
(42_slot_ops.md R112, R122). -/
def touchEach (f : Byte → Byte × Bool) : List Nat → List Byte → List Byte × Bool
  | [], slots => (slots, false)
  | j :: L, slots =>
    let r := f (slots.getD j 0)
    let t := touchEach f L (slots.set j r.1)
    (t.1, r.2 || t.2)

/-- Applies `f` to the touched slots of context `c`, counts the operation, and sets `CTROVF` if a counter overflowed
(42_slot_ops.md R112, R121). -/
def mutate (s : State) (c : Nat) (f : Byte → Byte × Bool) (L : List Nat) : State :=
  let x := s.ctx c
  let t := touchEach f L x.slots
  { s.setCtx c { x with slots := t.1, count := x.count + 1 } with ctrovf := s.ctrovf || t.2 }

/-- What an add-class operation does to a slot: set it in a BF, increment it in a CBF (42_slot_ops.md R115, R116). -/
def Ctx.addStep (x : Ctx) : Byte → Byte × Bool :=
  match x.var with
  | .bf => setSlot
  | .cbf => incSlot x.ovf

/-- 42_slot_ops.md R114. -/
def testCmd (ca : Nat) (s : State) : Except ErrCode (State × Word) := do
  checkCtx s ca
  checkValid s ca
  checkKey s
  let L ← touchedSlots s ca
  return (s, boolWord (member (s.ctx ca).slots L))

/-- `TEST` (42_slot_ops.md R114). -/
def execTest (ca : Nat) (s : State) : Host.Outcome State Fault Refusal :=
  .next (finish s (testCmd ca s))

/-- 42_slot_ops.md R115, R116. -/
def addCmd (ca : Nat) (s : State) : Except ErrCode (State × Word) := do
  checkCtx s ca
  checkValid s ca
  checkKey s
  let L ← touchedSlots s ca
  return (mutate s ca (s.ctx ca).addStep L, 0)

/-- `ADD` (42_slot_ops.md R115, R116). -/
def execAdd (ca : Nat) (s : State) : Host.Outcome State Fault Refusal :=
  .next (finish s (addCmd ca s))

/-- 42_slot_ops.md R117, R118: the result is membership before the mutation. -/
def testaddCmd (ca : Nat) (s : State) : Except ErrCode (State × Word) := do
  checkCtx s ca
  checkValid s ca
  checkKey s
  let L ← touchedSlots s ca
  return (mutate s ca (s.ctx ca).addStep L, boolWord (member (s.ctx ca).slots L))

/-- `TESTADD` (42_slot_ops.md R117, R118). -/
def execTestadd (ca : Nat) (s : State) : Host.Outcome State Fault Refusal :=
  .next (finish s (testaddCmd ca s))

/-- The CBF form of `TESTREM`, after its context checks (42_slot_ops.md R120). -/
def testremCounting (ca : Nat) (s : State) : Except ErrCode (State × Word) := do
  checkKey s
  let L ← touchedSlots s ca
  return (if member (s.ctx ca).slots L then mutate s ca (decSlot (s.ctx ca).ovf) L else s,
    boolWord (member (s.ctx ca).slots L))

/-- 42_slot_ops.md R119, R120. A BF reads no key, runs no hash and answers 0. -/
def testremCmd (ca : Nat) (s : State) : Except ErrCode (State × Word) := do
  checkCtx s ca
  checkValid s ca
  match (s.ctx ca).var with
  | .bf => return (s, 0)
  | .cbf => testremCounting ca s

/-- `TESTREM` (42_slot_ops.md R119, R120). -/
def execTestrem (ca : Nat) (s : State) : Host.Outcome State Fault Refusal :=
  .next (finish s (testremCmd ca s))

end Sys2Proof.Machine
end

