-- ==== Sys2Proof/Machine/Dispatch.lean ====
section
/-! DEFINITION. The meaning of each command: one arm per constructor of `Instr`. -/

namespace Sys2Proof.Machine

/-- The completion step of a decoded command (spec/60_exceptions.md R171). -/
def exec (i : Instr) (s : State) : Host.Outcome State Fault Refusal :=
  match i with
  | .config ca var ovf => Sys2Proof.Machine.execConfig ca var ovf s
  | .destroy ca => Sys2Proof.Machine.execDestroy ca s
  | .getm ca => Sys2Proof.Machine.execGetm ca s
  | .getk ca => Sys2Proof.Machine.execGetk ca s
  | .getcount ca => Sys2Proof.Machine.execGetcount ca s
  | .getslot ca => Sys2Proof.Machine.execGetslot ca s
  | .getcfg ca => Sys2Proof.Machine.execGetcfg ca s
  | .slotidx ca => Sys2Proof.Machine.execSlotidx ca s
  | .slots ca => Sys2Proof.Machine.execSlots ca s
  | .test ca => Sys2Proof.Machine.execTest ca s
  | .add ca => Sys2Proof.Machine.execAdd ca s
  | .testadd ca => Sys2Proof.Machine.execTestadd ca s
  | .testrem ca => Sys2Proof.Machine.execTestrem ca s
  | .tobf ca cb => Sys2Proof.Machine.execTobf ca cb s
  | .ser ca => Sys2Proof.Machine.execSer ca s
  | .deser ca var ovf => Sys2Proof.Machine.execDeser ca var ovf s
  | .equals ca cb => Sys2Proof.Machine.execEquals ca cb s

end Sys2Proof.Machine
end

