-- ==== Sys2Proof/Machine/HostPort.lean ====
section
/-! DEFINITION. The host's side: the address map and the register block (spec/10_state.md R13, spec/20_memory.md R41), reads
and writes at the host port (R40 to R46), the busy protocol (spec/70_reset_and_hazards.md R203, R204) and reset (R196). -/

namespace Sys2Proof.Machine

/-- The register at an offset of the register block, if there is one (10_state.md R13). -/
def regAt (offset : Nat) : Option Reg :=
  match offset with
  | 0x000 => some .cmd
  | 0x008 => some .status
  | 0x010 => some .ctrl
  | 0x018 => some .arg0
  | 0x020 => some .arg1
  | 0x028 => some .result
  | 0x030 => some .keylen
  | 0x038 => some .serlen
  | 0x040 => some .idxcnt
  | 0x048 => some .capNctx
  | 0x050 => some .capMmax
  | 0x058 => some .capKmax
  | 0x060 => some .capKeymax
  | 0x068 => some .capSermax
  | _ => none

/-- What stands at address `a` of the host port (20_memory.md R41). -/
def locate (p : Config) (a : Nat) : Location :=
  if a < 0x00010000 then
    match regAt a with
    | some r => .reg r
    | none => .razwi
  else if a < 0x00020000 then if a < keybufBase + p.keyMax then .keybuf else .razwi
  else if a < 0x00030000 then if a < idxbufBase + 8 * p.kMax then .idxbuf else .razwi
  else if a < 0x01000000 then .razwi
  else if a < 0x02000000 then if a < serbufBase + p.serMax then .serbuf else .razwi
  else .razwi

/-- The value of a register (10_state.md R14 to R20). -/
def readReg (s : State) : Reg → Word
  | .cmd => s.cmd
  | .status => s.statusWord
  | .ctrl => s.ctrlWord
  | .arg0 => s.arg0
  | .arg1 => s.arg1
  | .result => s.result
  | .keylen => s.keylen
  | .serlen => s.serlen
  | .idxcnt => s.idxcnt
  | .capNctx => BitVec.ofNat 64 s.cfg.nctx
  | .capMmax => BitVec.ofNat 64 s.cfg.mMax
  | .capKmax => BitVec.ofNat 64 s.cfg.kMax
  | .capKeymax => BitVec.ofNat 64 s.cfg.keyMax
  | .capSermax => BitVec.ofNat 64 s.cfg.serMax

/-- The value at address `a` (20_memory.md R41 to R43). -/
def portValue (s : State) (a : Nat) : Word :=
  match locate s.cfg a with
  | .reg r => readReg s r
  | .keybuf => s.wordAt a
  | .idxbuf => s.wordAt a
  | .serbuf => s.wordAt a
  | .razwi => 0

/-- A command output, whose value is unspecified while a command is pending (70_reset_and_hazards.md R204; log entry 9). -/
def Location.isOutput : Location → Bool
  | .reg .result | .reg .serlen | .reg .idxcnt | .idxbuf | .serbuf => true
  | .reg .cmd | .reg .status | .reg .ctrl | .reg .arg0 | .reg .arg1 | .reg .keylen
  | .reg .capNctx | .reg .capMmax | .reg .capKmax | .reg .capKeymax | .reg .capSermax
  | .keybuf | .razwi => false

/-- `MemRead(a, 8)`: `rdata` takes the value; a busy read of an output takes a fresh draw (20_memory.md R46,
70_reset_and_hazards.md R204). -/
def hostRead (a : Nat) (s : State) : State :=
  if s.busy && (locate s.cfg a).isOutput then
    { s with rdata := Config.busyRead s.draws, draws := s.draws + 1 }
  else { s with rdata := portValue s a }

/-- A write to a command input: it stands when the engine is idle, and while a command is pending it is lost and sets
`OVR` (70_reset_and_hazards.md R203). -/
def inputWrite (s t : State) : State := if s.busy then { s with ovr := true } else t

/-- A host write of `v` to a register (10_state.md R14 to R20; a read-only register ignores it, R13). -/
def writeReg (r : Reg) (v : Word) (s : State) : State :=
  match r with
  | .cmd => inputWrite s (acceptCommand v s)
  | .status => writeStatus v s
  | .ctrl => writeCtrl v s
  | .arg0 => inputWrite s { s with arg0 := v }
  | .arg1 => inputWrite s { s with arg1 := v }
  | .keylen => inputWrite s { s with keylen := v }
  | .serlen => inputWrite s { s with serlen := v }
  | .result | .idxcnt | .capNctx | .capMmax | .capKmax | .capKeymax | .capSermax => s

/-- `MemWrite(a, 8, v)` (20_memory.md R41 to R43, R46). -/
def hostWrite (a : Nat) (v : Word) (s : State) : State :=
  match locate s.cfg a with
  | .reg r => writeReg r v s
  | .keybuf => inputWrite s (s.setBytes a (wordBytes v))
  | .serbuf => inputWrite s (s.setBytes a (wordBytes v))
  | .idxbuf => s
  | .razwi => s

/-- The reset input: every piece of the engine's state takes its value of 10_state.md R31, with new draws for what is
unspecified; the host's own fields go on (70_reset_and_hazards.md R196, R197; log entry 19). -/
def hostReset (s : State) : State :=
  { State.powerOn s.cfg (s.resets + 1) with draws := s.draws, rdata := s.rdata, schedule := s.schedule }

/-- An access the host port has a meaning for: 8 bytes, 8-aligned (20_memory.md R40, R45). -/
def accessOk (a : PortAddr) (size : Nat) : Bool := decide (size = 8) && decide (a.toNat % 8 = 0)

end Sys2Proof.Machine
end

