-- ==== Sys2Proof/Machine/Engine.lean ====
section
/-! DEFINITION. What one step does: the engine's completion (spec/60_exceptions.md R171) or one event of the interleaving
(spec/20_memory.md R48). -/

namespace Sys2Proof.Machine

/-- The engine's turn: decode and complete the latched word; a word that is no command fails with `ILLEGAL_CMD`
(60_exceptions.md R171, 30_encoding.md R64); with an empty latch nothing happens (70_reset_and_hazards.md R198). -/
def engineTurn (s : State) : Host.Outcome State Fault Refusal :=
  match s.pending with
  | none => .next s
  | some w =>
    match decode w with
    | .ok i => exec i s
    | .error _ => .next (raise .illegalCmd s)

/-- One event of the interleaving, in a state whose schedule no longer holds it. -/
def eventTurn (e : Event) (s : State) : Host.Outcome State Fault Refusal :=
  match e with
  | .engine => engineTurn s
  | .reset => .next (hostReset s)
  | .read a size => if accessOk a size then .next (hostRead a.toNat s) else .refused (.hostAccess a size)
  | .write a size v => if accessOk a size then .next (hostWrite a.toNat v s) else .refused (.hostAccess a size)

/-- The next move: the first scheduled event, or the engine's turn when none is scheduled (log entry 3). -/
def nextMove (s : State) : Host.Outcome State Fault Refusal :=
  match s.schedule with
  | [] => engineTurn s
  | e :: es => eventTurn e { s with schedule := es }

/-- The state in which the host has just had command word `v` accepted (10_state.md R14) and the engine moves next; it
stands for the host's `CMD` write (log entry 4). -/
def latchCommand (v : Word) (s : State) : State := { acceptCommand v s with schedule := [] }

end Sys2Proof.Machine
end

