-- ==== Sys2Proof/Machine/Step.lean ====
section
/-! DEFINITION. One step of the machine, and the placing of a command where the next step runs it. -/

namespace Sys2Proof.Machine

/-- One step: an event of the interleaving of spec/20_memory.md R48 or a completion of the engine. -/
def step (s : State) : Host.Outcome State Fault Refusal := nextMove s

/-- `s` with the given command word accepted as by a host write to `CMD` (spec/10_state.md R14) and the engine to move
next. There is no fetch (R21): this is what takes the place of one (log entry 4). -/
def State.withFetchWord (s : State) (nbits w : Nat) : State := latchCommand (tableWord nbits w) s

end Sys2Proof.Machine
end

