-- ==== Sys2Proof/Safety.lean ====
section
/-! DEFINITION. What counts as a good state and a safe run, in the terms the statements use: the invariant of the engine
(spec/10_state.md R22, R24 to R26, R28) and the host events the host port has a meaning for (spec/20_memory.md R40). -/

namespace Sys2Proof.Safety

open Sys2Proof.Machine

/-- What 10_state.md R24 and R26 say of one context: its array has `M_MAX` slots, and if it is valid then `m` and `k` are
in range and a BF holds only 0 and 1. -/
def CtxOk (p : Config) (x : Ctx) : Prop :=
  x.slots.length = p.mMax ∧
  (x.valid = true →
    1 ≤ x.m.toNat ∧ x.m.toNat ≤ p.mMax ∧ x.k.toNat ≤ p.kMax ∧
    (x.var = .bf → ∀ v ∈ x.live, v = 0 ∨ v = 1))

/-- An address inside one of the three buffers (20_memory.md R41). -/
def InBuffer (p : Config) (a : Nat) : Prop :=
  (keybufBase ≤ a ∧ a < keybufBase + p.keyMax) ∨
  (idxbufBase ≤ a ∧ a < idxbufBase + 8 * p.kMax) ∨
  (serbufBase ≤ a ∧ a < serbufBase + p.serMax)

/-- The invariant of the engine. -/
structure EngineInv (s : State) : Prop where
  /-- There are `NCTX` contexts (10_state.md R12). -/
  ctxCount : s.ctxs.length = s.cfg.nctx
  /-- Each context meets R26. -/
  ctxsOk : ∀ x ∈ s.ctxs, CtxOk s.cfg x
  /-- The latched word is the `CMD` register, and `DONE` is 0 while a command is pending (R14, R22). -/
  latch : ∀ w, s.pending = some w → s.cmd = w ∧ s.done = false
  /-- `IDXCNT` counts entries of `IDXBUF` (R20, R28). -/
  idxcntOk : s.idxcnt.toNat ≤ s.cfg.kMax
  /-- The byte memory is in its canonical form. -/
  memCanonical : Memory.wf s.mem
  /-- Only bytes of the buffers are ever written. -/
  memInBuffers : ∀ c ∈ s.mem, InBuffer s.cfg c.1

/-- A host event the port has a meaning for: accesses are 8 bytes wide and 8-aligned (20_memory.md R40). -/
def LegalEvent : Event → Prop
  | .read a size => accessOk a size = true
  | .write a size _ => accessOk a size = true
  | .reset => True
  | .engine => True

/-- A run in which the host makes only accesses that have a meaning. -/
def LegalSchedule (s : State) : Prop := ∀ e ∈ s.schedule, LegalEvent e

end Sys2Proof.Safety
end

