-- ==== Sys2Proof/Certificates/Slice0/Obligations.lean ====
section
/-! DEFINITION. The statements about the engine, for the provers. The first part holds the vocabulary they share, written
from the spec's rules and not from the model's meanings where the two could differ. -/

namespace Sys2Proof.Claims

open Sys2Proof.Machine

/-- A context index that exists and holds a filter: what `check_ctx` and `check_valid` ask (40_lifecycle.md R80). -/
abbrev Ready (s : State) (c : Nat) : Prop := c < s.cfg.nctx ∧ (s.ctx c).valid = true

/-- What the checks of a key command ask (40_lifecycle.md R80). -/
abbrev KeyReady (s : State) (c : Nat) : Prop := Ready s c ∧ s.keylen.toNat ≤ s.cfg.keyMax

/-- `L` is `SlotsForKey` of the current key in context `c` (41_hash_pipeline.md R100). -/
abbrev Touches (s : State) (c : Nat) (L : List Nat) : Prop :=
  slotsForKey s.cfg s.key (s.ctx c).k.toNat (s.ctx c).m.toNat = some L

/-- Every slot of `L` is nonzero (42_slot_ops.md R111). -/
abbrev AllSet (x : Ctx) (L : List Nat) : Prop := ∀ j ∈ L, x.slots.getD j 0 ≠ 0

/-- A slot after `n` increments under a policy (42_slot_ops.md R112, R122). -/
def raised (p : Policy) (v : Byte) (n : Nat) : Byte :=
  match p with
  | .wrap => BitVec.ofNat 8 (v.toNat + n)
  | .sat => BitVec.ofNat 8 (min 255 (v.toNat + n))

/-- A slot after `n` decrements under a policy (42_slot_ops.md R112, R122). -/
def lowered (p : Policy) (v : Byte) (n : Nat) : Byte :=
  match p with
  | .wrap => v - BitVec.ofNat 8 n
  | .sat => BitVec.ofNat 8 (v.toNat - n)

/-- Some increment of a visit of `L` started at 255 (42_slot_ops.md R112). -/
abbrev Overflows (x : Ctx) (L : List Nat) : Prop := ∃ j ∈ L, 255 < (x.slots.getD j 0).toNat + L.count j

/-- Some decrement of a visit of `L` started at 0 (42_slot_ops.md R112). -/
abbrev Underflows (x : Ctx) (L : List Nat) : Prop := ∃ j ∈ L, (x.slots.getD j 0).toNat < L.count j

/-- The context with every slot of `L` set to 1 and the operation counted (42_slot_ops.md R115). -/
def marked (x : Ctx) (L : List Nat) : Ctx :=
  { x with slots := x.slots.mapIdx (fun j v => if j ∈ L then 1 else v), count := x.count + 1 }

/-- The context with every slot incremented once per occurrence in `L` and the operation counted
(42_slot_ops.md R116). -/
def incremented (x : Ctx) (L : List Nat) : Ctx :=
  { x with slots := x.slots.mapIdx (fun j v => raised x.ovf v (L.count j)), count := x.count + 1 }

/-- The context with every slot decremented once per occurrence in `L` and the operation counted
(42_slot_ops.md R120). -/
def decremented (x : Ctx) (L : List Nat) : Ctx :=
  { x with slots := x.slots.mapIdx (fun j v => lowered x.ovf v (L.count j)), count := x.count + 1 }

/-- The next step is the engine's turn: nothing is scheduled before it, or its turn is what is scheduled next (log entry 3). -/
abbrev EngineNext (s : State) : Prop := s.schedule = [] ∨ ∃ rest, s.schedule = .engine :: rest

/-- The checks of each command in the order of 60_exceptions.md R167, rows 2 to 12: whether the check passes, and the
code it reports when it does not. -/
def checksOf (s : State) : Instr → List (Bool × ErrCode)
  | .config ca _ _ =>
    [(decide (ca < s.cfg.nctx), .badCtx),
     (decide (1 ≤ s.arg0.toNat ∧ s.arg0.toNat ≤ s.cfg.mMax ∧ s.arg1.toNat ≤ s.cfg.kMax), .config)]
  | .destroy ca | .getcfg ca => [(decide (ca < s.cfg.nctx), .badCtx)]
  | .getm ca | .getk ca | .getcount ca =>
    [(decide (ca < s.cfg.nctx), .badCtx), ((s.ctx ca).valid, .notConfigured)]
  | .getslot ca =>
    [(decide (ca < s.cfg.nctx), .badCtx), ((s.ctx ca).valid, .notConfigured),
     (decide (s.arg0.toNat < (s.ctx ca).m.toNat), .range)]
  | .slotidx ca =>
    [(decide (ca < s.cfg.nctx), .badCtx), ((s.ctx ca).valid, .notConfigured),
     (decide (s.keylen.toNat ≤ s.cfg.keyMax), .range), (decide (s.arg0.toNat < (s.ctx ca).k.toNat), .range),
     ((slotIndex s.cfg s.key s.arg0.toNat (s.ctx ca).m.toNat).isSome, .hash)]
  | .slots ca | .test ca | .add ca | .testadd ca =>
    [(decide (ca < s.cfg.nctx), .badCtx), ((s.ctx ca).valid, .notConfigured),
     (decide (s.keylen.toNat ≤ s.cfg.keyMax), .range),
     ((slotsForKey s.cfg s.key (s.ctx ca).k.toNat (s.ctx ca).m.toNat).isSome, .hash)]
  | .testrem ca =>
    [(decide (ca < s.cfg.nctx), .badCtx), ((s.ctx ca).valid, .notConfigured),
     (decide ((s.ctx ca).var = .bf ∨ s.keylen.toNat ≤ s.cfg.keyMax), .range),
     (decide ((s.ctx ca).var = .bf) ||
       (slotsForKey s.cfg s.key (s.ctx ca).k.toNat (s.ctx ca).m.toNat).isSome, .hash)]
  | .tobf ca cb =>
    [(decide (ca < s.cfg.nctx), .badCtx), (decide (cb < s.cfg.nctx), .badCtx), ((s.ctx ca).valid, .notConfigured),
     (decide ((s.ctx ca).var = .cbf), .variant)]
  | .ser ca =>
    [(decide (ca < s.cfg.nctx), .badCtx), ((s.ctx ca).valid, .notConfigured),
     (decide ((serialize (s.ctx ca).filter).length ≤ s.cfg.serMax), .serOverflow)]
  | .deser ca var _ =>
    [(decide (ca < s.cfg.nctx), .badCtx), (decide (s.serlen.toNat ≤ s.cfg.serMax), .range),
     ((decodeText s.cfg var s.text).isSome, .decode)]
  | .equals ca cb =>
    [(decide (ca < s.cfg.nctx), .badCtx), (decide (cb < s.cfg.nctx), .badCtx), ((s.ctx ca).valid, .notConfigured),
     ((s.ctx cb).valid, .notConfigured)]

/-- The code of the first check that does not pass, and `OK` when all pass (60_exceptions.md R167). -/
def firstFailure : List (Bool × ErrCode) → ErrCode
  | [] => .ok
  | (pass, e) :: rest => if pass then firstFailure rest else e

/-- The context a command may write (60_exceptions.md R185). -/
def writesCtx : Instr → Option Nat
  | .config ca _ _ | .destroy ca | .add ca | .testadd ca | .testrem ca | .deser ca _ _ => some ca
  | .tobf _ cb => some cb
  | .getm _ | .getk _ | .getcount _ | .getslot _ | .getcfg _ | .slotidx _ | .slots _ | .test _ | .ser _
  | .equals _ _ => none

/-- The contexts a command names (60_exceptions.md R185). -/
def namesCtx : Instr → List Nat
  | .tobf ca cb | .equals ca cb => [ca, cb]
  | .config ca _ _ | .destroy ca | .add ca | .testadd ca | .testrem ca | .deser ca _ _
  | .getm ca | .getk ca | .getcount ca | .getslot ca | .getcfg ca | .slotidx ca | .slots ca | .test ca
  | .ser ca => [ca]

/-- The command replaces or ends the filter of context `c`: construction, deserialization, projection onto it, destruction
(42_slot_ops.md R124). -/
def replaces (c : Nat) : Instr → Bool
  | .config ca _ _ | .destroy ca | .deser ca _ _ => decide (ca = c)
  | .tobf _ cb => decide (cb = c)
  | .getm _ | .getk _ | .getcount _ | .getslot _ | .getcfg _ | .slotidx _ | .slots _ | .test _ | .add _
  | .testadd _ | .testrem _ | .ser _ | .equals _ _ => false

/-- An 8-aligned address that the maps of 10_state.md R13 and 20_memory.md R41 mark RAZ/WI. -/
def RazWi (p : Config) (a : Nat) : Prop :=
  (0x70 ≤ a ∧ a < 0x10000) ∨ (0x10000 + p.keyMax ≤ a ∧ a < 0x20000) ∨
  (0x20000 + 8 * p.kMax ≤ a ∧ a < 0x1000000) ∨ 0x1000000 + p.serMax ≤ a

/-- A write to this address is ignored always: RAZ/WI, a read-only register, or the `IDXBUF` window (20_memory.md R43). -/
def WriteIgnored (p : Config) (a : Nat) : Prop :=
  RazWi p a ∨ a ∈ [0x28, 0x40, 0x48, 0x50, 0x58, 0x60, 0x68] ∨ (0x20000 ≤ a ∧ a < 0x30000)

/-- A command input at the host port (70_reset_and_hazards.md R203). -/
def InputAddr (p : Config) (a : Nat) : Prop :=
  a ∈ [0x00, 0x18, 0x20, 0x30, 0x38] ∨ (0x10000 ≤ a ∧ a < 0x10000 + p.keyMax) ∨
  (0x1000000 ≤ a ∧ a < 0x1000000 + p.serMax)

/-- A command output at the host port (70_reset_and_hazards.md R204). -/
def OutputAddr (p : Config) (a : Nat) : Prop :=
  a ∈ [0x28, 0x38, 0x40] ∨ (0x20000 ≤ a ∧ a < 0x20000 + 8 * p.kMax) ∨
  (0x1000000 ≤ a ∧ a < 0x1000000 + p.serMax)

/-- The opcodes of 30_encoding.md R65. -/
def listedOpcodes : List Nat :=
  [0x01, 0x02, 0x03, 0x04, 0x05, 0x06, 0x07, 0x10, 0x11, 0x20, 0x21, 0x22, 0x23, 0x30, 0x40, 0x41, 0x50]

/-- A word that 30_encoding.md R66 calls illegal: a reserved opcode, a set reserved bit, `VAR` or `OVF` set where only
`CONFIG` and `DESER` use them, or `CB` set where only `TOBF` and `EQUALS` use it. -/
def IllegalWord (w : Word) : Prop :=
  w.toNat % 256 ∉ listedOpcodes ∨ w.toNat / 2 ^ 18 ≠ 0 ∨
  (w.toNat % 256 ∉ [0x01, 0x41] ∧ w.toNat / 2 ^ 16 % 4 ≠ 0) ∨
  (w.toNat % 256 ∉ [0x30, 0x50] ∧ w.toNat / 2 ^ 12 % 16 ≠ 0)

end Sys2Proof.Claims

open Sys2Proof Sys2Proof.Machine Sys2Proof.Safety Sys2Proof.Claims

/-! ### Encoding -/

/-- Decoding the word of a well-formed command gives the command back, with every field (30_encoding.md R62 to R65). -/
def Obligations.DecodeInvertsEncode : Prop :=
  ∀ i : Instr, i.wellFormed = true → decode (encode i) = .ok i

/-- Every word that decodes is the word of the well-formed command it decodes to, so no two words mean one command and no
bit is ignored (30_encoding.md R62 to R66). -/
def Obligations.EncodeInvertsDecode : Prop :=
  ∀ (w : Word) (i : Instr), decode w = .ok i → i.wellFormed = true ∧ encode i = w

/-- Words written out from 30_encoding.md R62 and R65, one of each family, decode to their commands. -/
def Obligations.SpecWordsDecode : Prop :=
  decode 0x0000000000030201 = .ok (.config 2 .cbf .sat) ∧
  decode 0x0000000000000105 = .ok (.getcount 1) ∧
  decode 0x0000000000000311 = .ok (.slots 3) ∧
  decode 0x0000000000000F23 = .ok (.testrem 15) ∧
  decode 0x0000000000002130 = .ok (.tobf 1 2) ∧
  decode 0x0000000000010241 = .ok (.deser 2 .cbf .wrap) ∧
  decode 0x0000000000001050 = .ok (.equals 0 1)

/-- 30_encoding.md R66: a reserved opcode, a set reserved bit or a set bit of a field the opcode does not use fails with
`ILLEGAL_CMD` on the engine's turn, scheduled or not, changing nothing but `STATUS` and `RESULT`; the zero word is one of these
words. The schedule, of which the step takes the turn, is the model's own (log entry 3). -/
def Obligations.IllegalWordsFail : Prop :=
  IllegalWord 0 ∧
  ∀ (s : State) (w : Word), EngineNext s → s.pending = some w → IllegalWord w →
    step s = .next { s with schedule := s.schedule.tail
                            result := 0, err := .illegalCmd, done := true, pending := none }

/-! ### The engine's step -/

/-- When it is the engine's turn and the latched word decodes, the step is the meaning of that command; a command placed by
`withFetchWord` runs in the very next step; with an empty latch the engine's turn changes nothing
(60_exceptions.md R171, 70_reset_and_hazards.md R198). That an empty schedule gives the engine the turn, and `withFetchWord`,
are the model's (log entries 3, 4). -/
def Obligations.StepRunsTheLatchedCommand : Prop :=
  (∀ (s : State) (w : Word) (i : Instr), s.pending = some w → decode w = .ok i →
    (s.schedule = [] → step s = exec i s) ∧
    (∀ rest, s.schedule = .engine :: rest → step s = exec i { s with schedule := rest })) ∧
  (∀ (s : State) (w : Word) (i : Instr), decode w = .ok i →
    step (s.withFetchWord 64 w.toNat) =
      exec i { s with cmd := w, pending := some w, done := false, schedule := [] }) ∧
  (∀ s : State, s.pending = none →
    (s.schedule = [] → step s = .next s) ∧
    (∀ rest, s.schedule = .engine :: rest → step s = .next { s with schedule := rest }))

/-- 60_exceptions.md R167: of the errors that apply to a command, the first in the table's order is reported, decoding
before every check; and a command to which none applies ends with code 0. It holds of the engine's turn, scheduled or not, and
of every command. -/
def Obligations.FirstErrorInOrderIsReported : Prop :=
  (∀ (s : State) (w : Word), EngineNext s → s.pending = some w →
    ∃ t, step s = .next t ∧
      ((∀ i, decode w = .ok i → t.err = firstFailure (checksOf s i)) ∧
       (∀ r, decode w = .error r → t.err = .illegalCmd))) ∧
  (∀ (i : Instr) (s : State), ∃ t, exec i s = .next t ∧ t.err = firstFailure (checksOf s i))

/-- 60_exceptions.md R172: a command that ends with an error writes `RESULT = 0`, the code, `DONE` and `BUSY`, and nothing
else; a step in which one ends also takes the turn off the model's own schedule (log entry 3). -/
def Obligations.FailedCommandChangesNothingElse : Prop :=
  (∀ (i : Instr) (s t : State), exec i s = .next t → t.err ≠ .ok →
    t = { s with result := 0, err := t.err, done := true, pending := none }) ∧
  (∀ s t : State, s.busy = true → EngineNext s → step s = .next t → t.err ≠ .ok →
    t = { s with schedule := s.schedule.tail, result := 0, err := t.err, done := true, pending := none })

/-- Whatever the host does, as long as its accesses have a meaning, after its last scheduled event and one more step no
command is pending: the progress of 20_memory.md R55 in the model's schedule, whose end gives the engine the turn (log
entries 3, 16). -/
def Obligations.AcceptedCommandsComplete : Prop :=
  ∀ s : State, LegalSchedule s →
    ∃ t, core.run (s.schedule.length + 1) s = .next t ∧ t.busy = false

/-! ### Lifecycle and accessors -/

/-- `CONFIG` with sizes in range constructs a fresh filter over the context, whatever it held, with every slot below `m` at 0,
and changes nothing else; `m = 0`, `m > M_MAX` and `k > K_MAX` fail with `CONFIG` (40_lifecycle.md R81). Nothing is said of the
storage above `m`, which is unspecified; `draws` is the model's own counter of such values (log entry 10). -/
def Obligations.ConfigConstructsFilter : Prop :=
  ∀ (s : State) (ca : Nat) (var : Variant) (ovf : Policy), ca < s.cfg.nctx →
    (1 ≤ s.arg0.toNat → s.arg0.toNat ≤ s.cfg.mMax → s.arg1.toNat ≤ s.cfg.kMax →
      ∃ x t, exec (.config ca var ovf) s = .next t ∧
        t = { s with ctxs := s.ctxs.set ca x, draws := t.draws, result := 0, err := .ok, done := true, pending := none } ∧
        x.valid = true ∧ x.var = var ∧ x.ovf = ovf ∧ x.m = s.arg0 ∧ x.k = s.arg1 ∧ x.count = 0 ∧
        x.slots.length = s.cfg.mMax ∧ ∀ j, j < s.arg0.toNat → x.slots.getD j 255 = 0) ∧
    (s.arg0 = 0 ∨ s.cfg.mMax < s.arg0.toNat ∨ s.cfg.kMax < s.arg1.toNat →
      exec (.config ca var ovf) s = .next { s with result := 0, err := .config, done := true, pending := none })

/-- 70_reset_and_hazards.md R200: after `CONFIG` completes, `GETCOUNT` answers 0 and every slot is 0, and with `k > 0` `TEST`
answers 0 for every key. `u` is any later state with the same contexts, whatever key it holds. -/
def Obligations.FreshFilterHoldsNothing : Prop :=
  ∀ (s t u : State) (ca : Nat) (var : Variant) (ovf : Policy), EngineInv s →
    exec (.config ca var ovf) s = .next t → t.err = .ok → u.cfg = t.cfg → u.ctxs = t.ctxs →
    (∃ v, exec (.getcount ca) u = .next v ∧ v.err = .ok ∧ v.result = 0) ∧
    (∀ j, j < s.arg0.toNat → (u.ctx ca).slots.getD j 0 = 0) ∧
    (0 < s.arg1.toNat → ∀ v, exec (.test ca) u = .next v → v.err = .ok → v.result = 0)

/-- `DESTROY` clears `valid` and nothing else; afterwards `GETM`, `GETK`, `GETCOUNT` and `GETSLOT` of the context fail with
`NOT_CONFIGURED`, and `GETCFG` answers 0 (40_lifecycle.md R82 to R87). That the other fields are kept is the model's choice
(log entry 11). -/
def Obligations.DestroyEndsFilter : Prop :=
  ∀ (s : State) (ca : Nat), s.ctxs.length = s.cfg.nctx → ca < s.cfg.nctx →
    ∃ t, exec (.destroy ca) s = .next t ∧
      t = { s with ctxs := s.ctxs.set ca { s.ctx ca with valid := false }
                   result := 0, err := .ok, done := true, pending := none } ∧
      (∀ i ∈ [Instr.getm ca, .getk ca, .getcount ca, .getslot ca],
        exec i t = .next { t with result := 0, err := .notConfigured, done := true, pending := none }) ∧
      exec (.getcfg ca) t = .next { t with result := 0, err := .ok, done := true, pending := none }

/-- `GETM`, `GETK` and `GETCOUNT` answer the field of a valid context and change nothing but `RESULT` and `STATUS`
(40_lifecycle.md R83, R84, R85). -/
def Obligations.AccessorsAnswerFields : Prop :=
  ∀ (s : State) (ca : Nat), Ready s ca →
    exec (.getm ca) s = .next { s with result := (s.ctx ca).m, err := .ok, done := true, pending := none } ∧
    exec (.getk ca) s = .next { s with result := (s.ctx ca).k, err := .ok, done := true, pending := none } ∧
    exec (.getcount ca) s = .next { s with result := (s.ctx ca).count, err := .ok, done := true, pending := none }

/-- `GETSLOT` answers slot `ARG0`, zero-extended, when `ARG0 < m`, and fails with `RANGE` when not
(40_lifecycle.md R86). -/
def Obligations.GetslotAnswersOneSlot : Prop :=
  ∀ (s : State) (ca : Nat), Ready s ca →
    (s.arg0.toNat < (s.ctx ca).m.toNat →
      ∃ t, exec (.getslot ca) s = .next t ∧
        t = { s with result := t.result, err := .ok, done := true, pending := none } ∧
        t.result.toNat = ((s.ctx ca).slots.getD s.arg0.toNat 0).toNat) ∧
    ((s.ctx ca).m.toNat ≤ s.arg0.toNat →
      exec (.getslot ca) s = .next { s with result := 0, err := .range, done := true, pending := none })

/-- `GETCFG` answers `{ovf, var, 1}` for a valid context and 0 for any other; an invalid context is no error
(40_lifecycle.md R87). -/
def Obligations.GetcfgPacksConfiguration : Prop :=
  ∀ (s : State) (ca : Nat), ca < s.cfg.nctx →
    ∃ t, exec (.getcfg ca) s = .next t ∧
      t = { s with result := t.result, err := .ok, done := true, pending := none } ∧
      ((s.ctx ca).valid = false → t.result = 0) ∧
      ((s.ctx ca).valid = true →
        t.result.getLsbD 0 = true ∧ (t.result.getLsbD 1 = true ↔ (s.ctx ca).var = .cbf) ∧
        (t.result.getLsbD 2 = true ↔ (s.ctx ca).ovf = .sat) ∧ t.result.toNat < 8)

/-! ### The hash pipeline -/

/-- 41_hash_pipeline.md R97: the byte-serial form of `Encode` gives the same value, leading zero bytes do not change it, and
keys whose integers are congruent modulo `Q` hash to the same slots. -/
def Obligations.EncodeHasSerialForm : Prop :=
  (∀ (p : Config) (b : List Byte), encodeKey p b = b.foldl (fun x v => (x * 256 + v.toNat) % p.q) 0) ∧
  (∀ (p : Config) (b : List Byte), encodeKey p (0 :: b) = encodeKey p b ∧
    ∀ k m, slotsForKey p (0 :: b) k m = slotsForKey p b k m) ∧
  (∀ (p : Config) (b d : List Byte) (k m : Nat), bigEndian b % p.q = bigEndian d % p.q →
    slotsForKey p b k m = slotsForKey p d k m)

/-- `SlotsForKey` has length `k`, its entry `i` is `SlotIndex` of round `i`, every entry is below `m`, and it fails exactly
when some round fails; with `k = 0` it is empty and does not fail (41_hash_pipeline.md R98, R100). -/
def Obligations.PipelineEntriesAreRounds : Prop :=
  ∀ (p : Config) (b : List Byte) (k m : Nat), 0 < m →
    (∀ L, slotsForKey p b k m = some L ↔ L.length = k ∧ ∀ i (h : i < L.length), slotIndex p b i m = some L[i]) ∧
    (∀ L, slotsForKey p b k m = some L → ∀ j ∈ L, j < m) ∧
    (slotsForKey p b k m = none ↔ ∃ i, i < k ∧ slotIndex p b i m = none) ∧
    slotsForKey p b 0 m = some []

/-- `SLOTIDX` answers the slot index of round `ARG0`, which is below `m`; it fails with `RANGE` for a round index not below
`k` and with `HASH` when `PERM` fails; it changes nothing but `RESULT` and `STATUS` (41_hash_pipeline.md R103). -/
def Obligations.SlotidxRunsOneRound : Prop :=
  ∀ (s : State) (ca : Nat), EngineInv s → KeyReady s ca →
    (∀ h, s.arg0.toNat < (s.ctx ca).k.toNat → slotIndex s.cfg s.key s.arg0.toNat (s.ctx ca).m.toNat = some h →
      h < (s.ctx ca).m.toNat ∧
      exec (.slotidx ca) s = .next
        { s with result := BitVec.ofNat 64 h, err := .ok, done := true, pending := none }) ∧
    (s.arg0.toNat < (s.ctx ca).k.toNat → slotIndex s.cfg s.key s.arg0.toNat (s.ctx ca).m.toNat = none →
      exec (.slotidx ca) s = .next { s with result := 0, err := .hash, done := true, pending := none }) ∧
    ((s.ctx ca).k.toNat ≤ s.arg0.toNat →
      exec (.slotidx ca) s = .next { s with result := 0, err := .range, done := true, pending := none })

/-- `SLOTS` writes the `k` slot indices to `IDXBUF[0 .. k-1]`, `k` to `IDXCNT` and to `RESULT`, and leaves every other byte
of the buffers and every other part of the state (41_hash_pipeline.md R104). -/
def Obligations.SlotsFillsIndexBuffer : Prop :=
  ∀ (s : State) (ca : Nat) (L : List Nat), EngineInv s → KeyReady s ca → Touches s ca L →
    ∃ t, exec (.slots ca) s = .next t ∧
      t = { s with mem := t.mem, idxcnt := (s.ctx ca).k, result := (s.ctx ca).k
                   err := .ok, done := true, pending := none } ∧
      L.length = (s.ctx ca).k.toNat ∧
      (∀ i (h : i < L.length), (t.idxEntry i).toNat = L[i]) ∧
      (∀ a, ¬(idxbufBase ≤ a ∧ a < idxbufBase + 8 * L.length) → t.byteAt a = s.byteAt a)

/-- When a round of the hash fails, `SLOTS`, `TEST`, `ADD`, `TESTADD` and a CBF `TESTREM` fail with `HASH` and change nothing
but `STATUS` and `RESULT`: no slot, no `count` (41_hash_pipeline.md R101, R102). -/
def Obligations.HashFailureAbortsCommand : Prop :=
  ∀ (s : State) (ca : Nat) (i : Instr), KeyReady s ca →
    slotsForKey s.cfg s.key (s.ctx ca).k.toNat (s.ctx ca).m.toNat = none →
    (i ∈ [.slots ca, .test ca, .add ca, .testadd ca] ∨ (i = .testrem ca ∧ (s.ctx ca).var = .cbf)) →
    exec i s = .next { s with result := 0, err := .hash, done := true, pending := none }

/-! ### Slot query and mutation -/

/-- `TEST` answers 1 when every touched slot is nonzero and 0 when not, in both variants, and mutates nothing
(42_slot_ops.md R111, R114). -/
def Obligations.TestAnswersMembership : Prop :=
  ∀ (s : State) (ca : Nat) (L : List Nat), KeyReady s ca → Touches s ca L →
    exec (.test ca) s = .next
      { s with result := if AllSet (s.ctx ca) L then 1 else 0, err := .ok, done := true, pending := none }

/-- `ADD` on a BF sets exactly the touched slots to 1 and adds 1 to `count` (42_slot_ops.md R115). -/
def Obligations.AddSetsBloomSlots : Prop :=
  ∀ (s : State) (ca : Nat) (L : List Nat), KeyReady s ca → Touches s ca L → (s.ctx ca).var = .bf →
    exec (.add ca) s = .next
      { s with ctxs := s.ctxs.set ca (marked (s.ctx ca) L), result := 0, err := .ok, done := true, pending := none }

/-- `ADD` on a CBF raises each slot by the number of its occurrences among the touched slots, by the context's policy, adds 1
to `count`, and sets `CTROVF` exactly when some increment starts at 255 (42_slot_ops.md R112, R116, R122). -/
def Obligations.AddRaisesCounters : Prop :=
  ∀ (s : State) (ca : Nat) (L : List Nat), EngineInv s → KeyReady s ca → Touches s ca L → (s.ctx ca).var = .cbf →
    exec (.add ca) s = .next
      { s with ctxs := s.ctxs.set ca (incremented (s.ctx ca) L)
               ctrovf := s.ctrovf || decide (Overflows (s.ctx ca) L)
               result := 0, err := .ok, done := true, pending := none }

/-- `TESTADD` on a BF answers the membership before the mutation and then acts as `ADD` (42_slot_ops.md R117). -/
def Obligations.TestaddSetsBloomSlots : Prop :=
  ∀ (s : State) (ca : Nat) (L : List Nat), KeyReady s ca → Touches s ca L → (s.ctx ca).var = .bf →
    exec (.testadd ca) s = .next
      { s with ctxs := s.ctxs.set ca (marked (s.ctx ca) L)
               result := if AllSet (s.ctx ca) L then 1 else 0
               err := .ok, done := true, pending := none }

/-- `TESTADD` on a CBF answers the membership before the mutation and then acts as `ADD` (42_slot_ops.md R118). -/
def Obligations.TestaddRaisesCounters : Prop :=
  ∀ (s : State) (ca : Nat) (L : List Nat), EngineInv s → KeyReady s ca → Touches s ca L → (s.ctx ca).var = .cbf →
    exec (.testadd ca) s = .next
      { s with ctxs := s.ctxs.set ca (incremented (s.ctx ca) L)
               ctrovf := s.ctrovf || decide (Overflows (s.ctx ca) L)
               result := if AllSet (s.ctx ca) L then 1 else 0
               err := .ok, done := true, pending := none }

/-- `TESTREM` on a BF answers 0 for every key, checks no key length, runs no hash and changes nothing
(42_slot_ops.md R119). -/
def Obligations.TestremOnBloomAnswersZero : Prop :=
  ∀ (s : State) (ca : Nat), Ready s ca → (s.ctx ca).var = .bf →
    exec (.testrem ca) s = .next { s with result := 0, err := .ok, done := true, pending := none }

/-- `TESTREM` on a CBF: if every touched slot is nonzero it lowers each slot by the number of its occurrences, by the
context's policy, adds 1 to `count`, sets `CTROVF` exactly when some decrement starts at 0, and answers 1; if not it
answers 0 and changes nothing (42_slot_ops.md R112, R120, R122). -/
def Obligations.TestremLowersCounters : Prop :=
  ∀ (s : State) (ca : Nat) (L : List Nat), EngineInv s → KeyReady s ca → Touches s ca L → (s.ctx ca).var = .cbf →
    (AllSet (s.ctx ca) L →
      exec (.testrem ca) s = .next
        { s with ctxs := s.ctxs.set ca (decremented (s.ctx ca) L)
                 ctrovf := s.ctrovf || decide (Underflows (s.ctx ca) L)
                 result := 1, err := .ok, done := true, pending := none }) ∧
    (¬AllSet (s.ctx ca) L →
      exec (.testrem ca) s = .next { s with result := 0, err := .ok, done := true, pending := none })

/-- 42_slot_ops.md R121: when they succeed, `ADD`, `TESTADD` and a CBF `TESTREM` with result 1 add 1 to the `count` of their
context, `CONFIG` sets it to 0, `TOBF` copies it and `DESER` replaces it; and it changes in no other way. -/
def Obligations.CountChangesOnlyAsCounted : Prop :=
  (∀ (i : Instr) (s t : State) (c : Nat), EngineInv s → exec i s = .next t → t.err = .ok →
    (i = .add c ∨ i = .testadd c ∨ (i = .testrem c ∧ (s.ctx c).var = .cbf ∧ t.result = 1) →
      (t.ctx c).count = (s.ctx c).count + 1) ∧
    (∀ v o, i = .config c v o → (t.ctx c).count = 0) ∧
    (∀ a, i = .tobf a c → (t.ctx c).count = (s.ctx a).count) ∧
    (∀ v o, i = .deser c v o → ∃ f, decodeText s.cfg v s.text = some f ∧ (t.ctx c).count.toNat = f.count)) ∧
  ∀ (i : Instr) (s t : State) (c : Nat), exec i s = .next t → (t.ctx c).count ≠ (s.ctx c).count →
    t.err = .ok ∧
    (((i = .add c ∨ i = .testadd c ∨ (i = .testrem c ∧ (s.ctx c).var = .cbf ∧ t.result = 1)) ∧
        (t.ctx c).count = (s.ctx c).count + 1) ∨
     ((∃ v o, i = .config c v o) ∧ (t.ctx c).count = 0) ∨
     (∃ a, i = .tobf a c ∧ (t.ctx c).count = (s.ctx a).count) ∨
     (∃ v o f, i = .deser c v o ∧ decodeText s.cfg v s.text = some f ∧ (t.ctx c).count.toNat = f.count))

/-- If no increment of an `ADD` starts at 255, then the `TESTREM` of the same key that follows answers 1, brings every slot
back and leaves `count` two higher (42_slot_ops.md R123). -/
def Obligations.AddThenRemoveRestores : Prop :=
  ∀ (s t : State) (ca : Nat) (L : List Nat), EngineInv s → KeyReady s ca → Touches s ca L → (s.ctx ca).var = .cbf →
    ¬Overflows (s.ctx ca) L → exec (.add ca) s = .next t →
    ∃ u, exec (.testrem ca) t = .next u ∧ u.err = .ok ∧ u.result = 1 ∧
      u.ctxs = s.ctxs.set ca { s.ctx ca with count := (s.ctx ca).count + 2 }

/-- No false negatives on a BF: after an `ADD`, `TEST` of the same key answers 1; and no command lowers a slot of a BF, except
one that replaces or ends the filter, so the answer stays 1 (42_slot_ops.md R124). -/
def Obligations.BloomHasNoFalseNegatives : Prop :=
  (∀ (s t : State) (ca : Nat), EngineInv s → (s.ctx ca).var = .bf → exec (.add ca) s = .next t → t.err = .ok →
    ∃ u, exec (.test ca) t = .next u ∧ u.err = .ok ∧ u.result = 1) ∧
  (∀ (i : Instr) (s t : State) (c : Nat), (s.ctx c).valid = true → (s.ctx c).var = .bf →
    replaces c i = false → exec i s = .next t →
    (t.ctx c).valid = true ∧ (t.ctx c).var = .bf ∧ (t.ctx c).m = (s.ctx c).m ∧ (t.ctx c).k = (s.ctx c).k ∧
    ∀ j, (s.ctx c).slots.getD j 0 ≠ 0 → (t.ctx c).slots.getD j 0 ≠ 0)

/-! ### Conversion and equality -/

/-- `TOBF` gives context B a BF with A's `m`, `k` and `count` and with slot `j` set to 1 where A's counter is nonzero and 0
where it is zero, `A = B` included, and changes nothing else; a BF source fails with `VARIANT` (43_conversion.md R131, R132).
Nothing is said of B's storage above `m`, which is unspecified; `draws` is the model's own counter of such values
(log entry 10). -/
def Obligations.TobfProjectsCounters : Prop :=
  ∀ (s : State) (ca cb : Nat), EngineInv s → Ready s ca → cb < s.cfg.nctx →
    ((s.ctx ca).var = .cbf →
      ∃ x t, exec (.tobf ca cb) s = .next t ∧
        t = { s with ctxs := s.ctxs.set cb x, draws := t.draws, result := 0, err := .ok, done := true, pending := none } ∧
        x.valid = true ∧ x.var = .bf ∧ x.ovf = .wrap ∧ x.m = (s.ctx ca).m ∧ x.k = (s.ctx ca).k ∧
        x.count = (s.ctx ca).count ∧ x.slots.length = s.cfg.mMax ∧
        ∀ j, j < x.m.toNat → x.slots.getD j 0 = if (s.ctx ca).slots.getD j 0 = 0 then 0 else 1) ∧
    ((s.ctx ca).var = .bf →
      exec (.tobf ca cb) s = .next { s with result := 0, err := .variant, done := true, pending := none })

/-- 43_conversion.md R133: for every key, `TEST` on the destination after `TOBF` answers as `TEST` on the source before. -/
def Obligations.ProjectionPreservesMembership : Prop :=
  ∀ (s t : State) (ca cb : Nat), EngineInv s → exec (.tobf ca cb) s = .next t → t.err = .ok →
    ∃ u v, exec (.test cb) t = .next u ∧ exec (.test ca) s = .next v ∧ u.err = v.err ∧ u.result = v.result

/-- `EQUALS` answers 1 exactly when variant, `m`, `k`, `count` and the slots below `m` are equal, and changes nothing but
`RESULT` and `STATUS`; `ovf` is not compared (45_equality.md R161). -/
def Obligations.EqualsComparesFilters : Prop :=
  ∀ (s : State) (ca cb : Nat), EngineInv s → Ready s ca → Ready s cb →
    ∃ t, exec (.equals ca cb) s = .next t ∧
      t = { s with result := t.result, err := .ok, done := true, pending := none } ∧
      (t.result = 0 ∨ t.result = 1) ∧
      (t.result = 1 ↔
        (s.ctx ca).var = (s.ctx cb).var ∧ (s.ctx ca).m = (s.ctx cb).m ∧ (s.ctx ca).k = (s.ctx cb).k ∧
        (s.ctx ca).count = (s.ctx cb).count ∧
        ∀ j, j < (s.ctx ca).m.toNat → (s.ctx ca).slots.getD j 0 = (s.ctx cb).slots.getD j 0)

/-- 45_equality.md R162: on valid contexts `EQUALS` is reflexive, symmetric and transitive. -/
def Obligations.EqualsIsEquivalence : Prop :=
  ∀ (s : State) (a b c : Nat), Ready s a → Ready s b → Ready s c →
    (∃ t, exec (.equals a a) s = .next t ∧ t.result = 1) ∧
    (∃ t u, exec (.equals a b) s = .next t ∧ exec (.equals b a) s = .next u ∧ t.result = u.result) ∧
    (∃ t u v, exec (.equals a b) s = .next t ∧ exec (.equals b c) s = .next u ∧ exec (.equals a c) s = .next v ∧
      (t.result = 1 → u.result = 1 → v.result = 1))

/-! ### The codec -/

/-- 44_codec.md R145: the length of the structured text and of its base64 form. -/
def Obligations.SerialTextLength : Prop :=
  ∀ f : Filter, f.slots.length = f.m → f.m < 2 ^ 64 → f.k < 2 ^ 64 → f.count < 2 ^ 64 →
    (textOf f).length = 30 + (dec f.m).length + (dec f.k).length + 2 * f.m + (dec f.count).length ∧
    (serialize f).length = serlenOf f.m f.k f.count ∧
    serlenOf f.m f.k f.count =
      4 * ((30 + (dec f.m).length + (dec f.k).length + 2 * f.m + (dec f.count).length + 2) / 3)

/-- 44_codec.md R146: a text decodes to a filter when and only when it is the serialized form of that filter and the filter
meets the limits; so the decoder takes exactly the canonical texts. -/
def Obligations.DecoderTakesExactlyCanonicalTexts : Prop :=
  ∀ (p : Config) (var : Variant) (t : List Byte) (f : Filter),
    decodeText p var t = some f ↔
      t = serialize f ∧ f.slots.length = f.m ∧ 1 ≤ f.m ∧ f.m ≤ p.mMax ∧ f.k ≤ p.kMax ∧ f.count < 2 ^ 64 ∧
      (var = .bf → ∀ v ∈ f.slots, v = 0 ∨ v = 1)

/-- `SER` of a valid context always fits: it writes the canonical text to `SERBUF[0 .. L-1]` and `L` to `SERLEN` and `RESULT`,
and leaves every other byte of the buffers and every other part of the state (44_codec.md R151). -/
def Obligations.SerWritesCanonicalText : Prop :=
  ∀ (s : State) (ca : Nat), EngineInv s → Ready s ca →
    ∃ t, exec (.ser ca) s = .next t ∧
      t = { s with mem := t.mem, serlen := t.serlen, result := t.serlen, err := .ok, done := true, pending := none } ∧
      t.serlen.toNat = (serialize (s.ctx ca).filter).length ∧
      t.text = serialize (s.ctx ca).filter ∧
      (∀ a, ¬(serbufBase ≤ a ∧ a < serbufBase + t.serlen.toNat) → t.byteAt a = s.byteAt a)

/-- `DESER` of a text that decodes gives the context the decoded filter with the command's variant and policy, whatever the
context held, and changes nothing else (44_codec.md R152). Nothing is said of the storage above `m`; `draws` is the model's
own counter of such values (log entry 10). -/
def Obligations.DeserRebuildsFilter : Prop :=
  ∀ (s : State) (ca : Nat) (var : Variant) (ovf : Policy) (f : Filter), ca < s.cfg.nctx →
    s.serlen.toNat ≤ s.cfg.serMax → decodeText s.cfg var s.text = some f →
    ∃ x t, exec (.deser ca var ovf) s = .next t ∧
      t = { s with ctxs := s.ctxs.set ca x, draws := t.draws, result := 0, err := .ok, done := true, pending := none } ∧
      x.valid = true ∧ x.var = var ∧ x.ovf = ovf ∧ x.m.toNat = f.m ∧ x.k.toNat = f.k ∧ x.count.toNat = f.count ∧
      x.slots.length = s.cfg.mMax ∧ x.live = f.slots

/-- `DESER` fails with `RANGE` when `SERLEN > SER_MAX` and with `DECODE` when the text does not decode, and then changes no
context (44_codec.md R152). -/
def Obligations.DeserRejectsBadText : Prop :=
  ∀ (s : State) (ca : Nat) (var : Variant) (ovf : Policy), ca < s.cfg.nctx →
    (s.cfg.serMax < s.serlen.toNat →
      exec (.deser ca var ovf) s = .next { s with result := 0, err := .range, done := true, pending := none }) ∧
    (s.serlen.toNat ≤ s.cfg.serMax → decodeText s.cfg var s.text = none →
      exec (.deser ca var ovf) s = .next { s with result := 0, err := .decode, done := true, pending := none })

/-- 44_codec.md R153: `SER` of a valid context, then `DESER` with its variant and policy, succeeds and leaves the
destination equal to it, and `EQUALS` then answers 1. -/
def Obligations.SerDeserRoundTrip : Prop :=
  ∀ (s : State) (ca cb : Nat), EngineInv s → Ready s ca → cb < s.cfg.nctx →
    ∃ t u v, exec (.ser ca) s = .next t ∧ t.err = .ok ∧
      exec (.deser cb (s.ctx ca).var (s.ctx ca).ovf) t = .next u ∧ u.err = .ok ∧
      (u.ctx cb).m = (s.ctx ca).m ∧ (u.ctx cb).k = (s.ctx ca).k ∧ (u.ctx cb).count = (s.ctx ca).count ∧
      (u.ctx cb).live = (s.ctx ca).live ∧ (u.ctx cb).var = (s.ctx ca).var ∧ (u.ctx cb).ovf = (s.ctx ca).ovf ∧
      exec (.equals ca cb) u = .next v ∧ v.err = .ok ∧ v.result = 1

/-- 44_codec.md R154: two valid contexts serialize to the same text exactly when `m`, `k`, `count` and the slots below `m` are
equal; so `EQUALS` answers 1 exactly when the texts and the variants are equal. -/
def Obligations.EqualTextsMeanEqualFilters : Prop :=
  ∀ (s : State) (ca cb : Nat), EngineInv s → Ready s ca → Ready s cb →
    (serialize (s.ctx ca).filter = serialize (s.ctx cb).filter ↔
      (s.ctx ca).m = (s.ctx cb).m ∧ (s.ctx ca).k = (s.ctx cb).k ∧ (s.ctx ca).count = (s.ctx cb).count ∧
      (s.ctx ca).live = (s.ctx cb).live) ∧
    (∀ t, exec (.equals ca cb) s = .next t →
      (t.result = 1 ↔
        serialize (s.ctx ca).filter = serialize (s.ctx cb).filter ∧ (s.ctx ca).var = (s.ctx cb).var))

/-! ### What commands leave alone -/

/-- 60_exceptions.md R185: a command writes at most the one context its fields name as written, and its answer, the new value
of that context and every other effect depend only on the contexts its fields name. `other` is any change of the other
contexts. -/
def Obligations.CommandsTouchOnlyNamedContexts : Prop :=
  (∀ (i : Instr) (s t : State) (c : Nat), exec i s = .next t → writesCtx i ≠ some c → t.ctx c = s.ctx c) ∧
  (∀ (i : Instr) (s t : State) (other : List Ctx), exec i s = .next t →
    (∀ c ∈ namesCtx i, other.getD c Ctx.absent = s.ctx c) →
    ∃ t', exec i { s with ctxs := other } = .next t' ∧ { t' with ctxs := t.ctxs } = t ∧
      (other.length = s.ctxs.length → ∀ c, writesCtx i = some c → t'.ctx c = t.ctx c))

/-- No command writes `CMD`, `CTRL`, `ARG0`, `ARG1`, `KEYLEN`, `OVR`, the parameters or a byte of `KEYBUF`; only `SER` writes
`SERLEN` and `SERBUF`, only `SLOTS` writes `IDXCNT` and `IDXBUF`; `CTROVF` is never cleared and is set only on a CBF
(10_state.md R15 to R20, R27 to R29, 42_slot_ops.md R112). -/
def Obligations.CommandsLeaveHostInputs : Prop :=
  ∀ (i : Instr) (s t : State), EngineInv s → exec i s = .next t →
    (t.cfg = s.cfg ∧ t.cmd = s.cmd ∧ t.ie = s.ie ∧ t.arg0 = s.arg0 ∧ t.arg1 = s.arg1 ∧ t.keylen = s.keylen ∧
      t.ovr = s.ovr) ∧
    (∀ a, keybufBase ≤ a → a < keybufBase + s.cfg.keyMax → t.byteAt a = s.byteAt a) ∧
    ((∀ ca, i ≠ .ser ca) → t.serlen = s.serlen ∧ ∀ a, serbufBase ≤ a → t.byteAt a = s.byteAt a) ∧
    ((∀ ca, i ≠ .slots ca) →
      t.idxcnt = s.idxcnt ∧ ∀ a, idxbufBase ≤ a → a < idxbufBase + 8 * s.cfg.kMax → t.byteAt a = s.byteAt a) ∧
    (s.ctrovf = true → t.ctrovf = true) ∧
    (t.ctrovf ≠ s.ctrovf →
      ∃ ca, (i = .add ca ∨ i = .testadd ca ∨ i = .testrem ca) ∧ (s.ctx ca).var = .cbf ∧ t.err = .ok)

/-! ### The host port -/

/-- 10_state.md R14: a write of `CMD` is accepted when idle, whatever the value, and only sets `OVR` when busy; a read returns
the last accepted word at any time, and 0 after reset. -/
def Obligations.CmdWriteStartsCommand : Prop :=
  (∀ (s : State) (v : Word) (rest : List Event), s.schedule = .write 0x000 8 v :: rest →
    (s.busy = false →
      step s = .next { s with schedule := rest, cmd := v, pending := some v, done := false }) ∧
    (s.busy = true → step s = .next { s with schedule := rest, ovr := true })) ∧
  (∀ (s : State) (rest : List Event), s.schedule = .read 0x000 8 :: rest →
    step s = .next { s with schedule := rest, rdata := s.cmd }) ∧
  State.reset.cmd = 0

/-- 70_reset_and_hazards.md R203: while a command is pending, a write to an input is lost and sets `OVR`; writes to `STATUS`
and `CTRL` are accepted; writes to read-only or RAZ/WI addresses are ignored and do not set `OVR`. -/
def Obligations.BusyWritesAreLost : Prop :=
  ∀ (s : State) (a : PortAddr) (v : Word) (rest : List Event),
    s.busy = true → s.schedule = .write a 8 v :: rest → a.toNat % 8 = 0 →
    (InputAddr s.cfg a.toNat → step s = .next { s with schedule := rest, ovr := true }) ∧
    (a = 0x008 → step s = .next
      { s with schedule := rest, done := s.done && !v.getLsbD 1, ovr := s.ovr && !v.getLsbD 2
               ctrovf := s.ctrovf && !v.getLsbD 3 }) ∧
    (a = 0x010 → step s = .next { s with schedule := rest, ie := v.getLsbD 0 }) ∧
    (WriteIgnored s.cfg a.toNat → step s = .next { s with schedule := rest })

/-- When the engine is idle, writes of `ARG0`, `ARG1`, `KEYLEN` and `SERLEN` store any 64-bit value and nothing else
(10_state.md R17, R19). -/
def Obligations.IdleWritesStoreOperands : Prop :=
  ∀ (s : State) (v : Word) (rest : List Event), s.busy = false →
    (s.schedule = .write 0x018 8 v :: rest → step s = .next { s with schedule := rest, arg0 := v }) ∧
    (s.schedule = .write 0x020 8 v :: rest → step s = .next { s with schedule := rest, arg1 := v }) ∧
    (s.schedule = .write 0x030 8 v :: rest → step s = .next { s with schedule := rest, keylen := v }) ∧
    (s.schedule = .write 0x038 8 v :: rest → step s = .next { s with schedule := rest, serlen := v })

/-- A write of `STATUS` clears the flags among bits 1, 2, 3 that are written as 1 and changes nothing else, busy or idle; a
write of `CTRL` sets `IE` from bit 0; `STATUS` reads `BUSY`, `DONE`, `OVR`, `CTROVF` in bits 0 to 3 and the error code in bits
15:8, all other bits 0 (10_state.md R15, R16). -/
def Obligations.StatusAndCtrlAccess : Prop :=
  ∀ (s : State) (v : Word) (rest : List Event),
    (s.schedule = .write 0x008 8 v :: rest → step s = .next
      { s with schedule := rest, done := s.done && !v.getLsbD 1, ovr := s.ovr && !v.getLsbD 2
               ctrovf := s.ctrovf && !v.getLsbD 3 }) ∧
    (s.schedule = .write 0x010 8 v :: rest → step s = .next { s with schedule := rest, ie := v.getLsbD 0 }) ∧
    (s.schedule = .read 0x008 8 :: rest →
      ∃ r : Word, step s = .next { s with schedule := rest, rdata := r } ∧
        r.getLsbD 0 = s.busy ∧ r.getLsbD 1 = s.done ∧ r.getLsbD 2 = s.ovr ∧ r.getLsbD 3 = s.ctrovf ∧
        r.toNat / 16 % 16 = 0 ∧ r.toNat / 256 = s.err.code) ∧
    (s.schedule = .read 0x010 8 :: rest →
      step s = .next { s with schedule := rest, rdata := if s.ie then 1 else 0 })

/-- A read of a RAZ/WI address returns 0; a write there, to a read-only register or to the `IDXBUF` window changes no state,
whatever `BUSY` is (20_memory.md R41, R43). That a window's addresses at and above the buffer's size are RAZ/WI also while
`BUSY = 1`, where 70_reset_and_hazards.md R204 names the whole window, is the model's reading (log entry 9). -/
def Obligations.ReservedAddressesReadZero : Prop :=
  ∀ (s : State) (a : PortAddr) (v : Word) (rest : List Event), a.toNat % 8 = 0 →
    (RazWi s.cfg a.toNat → s.schedule = .read a 8 :: rest →
      step s = .next { s with schedule := rest, rdata := 0 }) ∧
    (WriteIgnored s.cfg a.toNat → s.schedule = .write a 8 v :: rest → step s = .next { s with schedule := rest })

/-- A word written to the `KEYBUF` or `SERBUF` window while idle puts byte `v[8t+7:8t]` at offset `t` for `t = 0 .. 7` and leaves
every other byte and all other state, whatever the host does next; a read of the same word that follows gives it back
(20_memory.md R42). -/
def Obligations.BufferWordsPackLittleEndian : Prop :=
  ∀ (s : State) (a : PortAddr) (v : Word) (rest : List Event), s.busy = false → a.toNat % 8 = 0 →
    ((0x10000 ≤ a.toNat ∧ a.toNat < 0x10000 + s.cfg.keyMax) ∨
      (0x1000000 ≤ a.toNat ∧ a.toNat < 0x1000000 + s.cfg.serMax)) →
    s.schedule = .write a 8 v :: rest →
    ∃ t, step s = .next t ∧
      t = { s with schedule := rest, mem := t.mem } ∧
      (∀ i, i < 8 → t.byteAt (a.toNat + i) = v.extractLsb' (8 * i) 8) ∧
      (∀ b, ¬(a.toNat ≤ b ∧ b < a.toNat + 8) → t.byteAt b = s.byteAt b) ∧
      ∀ later, rest = .read a 8 :: later → step t = .next { t with schedule := later, rdata := v }

/-- A busy read of an output returns the next free value, a new one for each read; registers that are no outputs, `KEYBUF`
and the capability registers read their current values at any time (70_reset_and_hazards.md R204). The free value and its
counter are the model's form of an unspecified value (log entry 8). -/
def Obligations.BusyReadsOfOutputsAreDrawn : Prop :=
  ∀ (s : State) (a : PortAddr) (rest : List Event), a.toNat % 8 = 0 → s.schedule = .read a 8 :: rest →
    (s.busy = true → OutputAddr s.cfg a.toNat →
      step s = .next { s with schedule := rest, rdata := Config.busyRead s.draws, draws := s.draws + 1 }) ∧
    (a = 0x000 → step s = .next { s with schedule := rest, rdata := s.cmd }) ∧
    (a = 0x008 → step s = .next { s with schedule := rest, rdata := s.statusWord }) ∧
    (a = 0x010 → step s = .next { s with schedule := rest, rdata := s.ctrlWord }) ∧
    (a = 0x018 → step s = .next { s with schedule := rest, rdata := s.arg0 }) ∧
    (a = 0x020 → step s = .next { s with schedule := rest, rdata := s.arg1 }) ∧
    (a = 0x030 → step s = .next { s with schedule := rest, rdata := s.keylen }) ∧
    (a = 0x048 → step s = .next { s with schedule := rest, rdata := BitVec.ofNat 64 s.cfg.nctx }) ∧
    (a = 0x050 → step s = .next { s with schedule := rest, rdata := BitVec.ofNat 64 s.cfg.mMax }) ∧
    (a = 0x058 → step s = .next { s with schedule := rest, rdata := BitVec.ofNat 64 s.cfg.kMax }) ∧
    (a = 0x060 → step s = .next { s with schedule := rest, rdata := BitVec.ofNat 64 s.cfg.keyMax }) ∧
    (a = 0x068 → step s = .next { s with schedule := rest, rdata := BitVec.ofNat 64 s.cfg.serMax }) ∧
    (0x10000 ≤ a.toNat → a.toNat < 0x10000 + s.cfg.keyMax →
      ∃ r : Word, step s = .next { s with schedule := rest, rdata := r } ∧
        ∀ i, i < 8 → r.extractLsb' (8 * i) 8 = s.byteAt (a.toNat + i))

/-- When the engine is idle, the output registers and windows read their contents: `RESULT`, `SERLEN`, `IDXCNT`, entry `i` of
`IDXBUF`, and the bytes of `SERBUF` packed little-endian (10_state.md R18 to R20, R28, R29, 20_memory.md R41, R42). -/
def Obligations.IdleReadsOfOutputs : Prop :=
  ∀ (s : State) (a : PortAddr) (rest : List Event), s.busy = false → a.toNat % 8 = 0 →
    s.schedule = .read a 8 :: rest →
    (a = 0x028 → step s = .next { s with schedule := rest, rdata := s.result }) ∧
    (a = 0x038 → step s = .next { s with schedule := rest, rdata := s.serlen }) ∧
    (a = 0x040 → step s = .next { s with schedule := rest, rdata := s.idxcnt }) ∧
    (∀ i, i < s.cfg.kMax → a.toNat = 0x20000 + 8 * i →
      step s = .next { s with schedule := rest, rdata := s.idxEntry i }) ∧
    (0x1000000 ≤ a.toNat → a.toNat < 0x1000000 + s.cfg.serMax →
      ∃ r : Word, step s = .next { s with schedule := rest, rdata := r } ∧
        ∀ i, i < 8 → r.extractLsb' (8 * i) 8 = s.byteAt (a.toNat + i))

/-- No read has a side effect on the engine: it changes only what the host has read and the model's own draw counter
(20_memory.md R46). -/
def Obligations.ReadsHaveNoSideEffect : Prop :=
  ∀ (s : State) (a : PortAddr) (rest : List Event), a.toNat % 8 = 0 → s.schedule = .read a 8 :: rest →
    ∃ t, step s = .next t ∧ t = { s with schedule := rest, rdata := t.rdata, draws := t.draws }

/-- An access that is not 8 bytes wide or not 8-aligned has no meaning: the model refuses it (20_memory.md R40, R45; the form
of the refusal is the model's, log entry 12). -/
def Obligations.OtherAccessesAreRefused : Prop :=
  ∀ (s : State) (a : PortAddr) (size : Nat) (v : Word) (rest : List Event), size ≠ 8 ∨ a.toNat % 8 ≠ 0 →
    (s.schedule = .read a size :: rest → step s = .refused (.hostAccess a size)) ∧
    (s.schedule = .write a size v :: rest → step s = .refused (.hostAccess a size))

/-- While a command is pending no host read reveals anything of a context or of a command output: two busy states that differ
only in those answer every read alike (10_state.md R23, 20_memory.md R56). -/
def Obligations.BusyReadsRevealNoOutput : Prop :=
  ∀ (s s' t t' : State) (a : PortAddr) (rest : List Event),
    s.busy = true → s.schedule = .read a 8 :: rest → a.toNat % 8 = 0 →
    s' = { s with ctxs := s'.ctxs, result := s'.result, serlen := s'.serlen, idxcnt := s'.idxcnt, mem := s'.mem } →
    (∀ b, keybufBase ≤ b → b < keybufBase + s.cfg.keyMax → s'.byteAt b = s.byteAt b) →
    step s = .next t → step s' = .next t' → t'.rdata = t.rdata

/-! ### Interrupt and reset -/

/-- `IRQ` is 1 exactly when `DONE` and `IE` are: a completion raises it when `IE = 1`; setting `IE` while `DONE = 1` raises it;
clearing `DONE`, clearing `IE`, an accepted `CMD` write and reset drop it (60_exceptions.md R176). -/
def Obligations.IrqFollowsDoneAndEnable : Prop :=
  (∀ s : State, s.irq = (s.done && s.ie)) ∧
  (∀ (s t : State), EngineNext s → s.busy = true → step s = .next t → t.irq = s.ie) ∧
  (∀ (s t : State) (v : Word) (rest : List Event), step s = .next t →
    (s.schedule = .write 0x010 8 v :: rest → t.irq = (s.done && v.getLsbD 0)) ∧
    (s.schedule = .write 0x008 8 v :: rest → v.getLsbD 1 = true → t.irq = false) ∧
    (s.schedule = .write 0x000 8 v :: rest → s.busy = false → t.irq = false) ∧
    (s.schedule = .reset :: rest → t.irq = false))

/-- The reset input at any time gives every register and every context its reset value, empties the latch, so that a pending
command never completes, and leaves the buffers at free values of the new reset (10_state.md R31,
70_reset_and_hazards.md R196, R197). The counter that selects the free values is the model's own (log entries 6, 7). -/
def Obligations.ResetRestoresEveryRegister : Prop :=
  ∀ (s : State) (rest : List Event), s.schedule = .reset :: rest →
    ∃ t, step s = .next t ∧ t.cfg = s.cfg ∧ t.cmd = 0 ∧ t.statusWord = 0 ∧ t.ie = false ∧ t.irq = false ∧
      t.arg0 = 0 ∧ t.arg1 = 0 ∧ t.result = 0 ∧ t.keylen = 0 ∧ t.serlen = 0 ∧ t.idxcnt = 0 ∧ t.pending = none ∧
      t.ctxs.length = t.cfg.nctx ∧
      (∀ x ∈ t.ctxs, x.valid = false ∧ x.var = .bf ∧ x.ovf = .wrap ∧ x.m = 0 ∧ x.k = 0 ∧ x.count = 0) ∧
      (∀ a, t.byteAt a = Config.powerOnByte (s.resets + 1) a) ∧
      t.schedule = rest

/-- The machine right after reset: every register 0, the latch empty, every context invalid with all fields 0, the engine idle
(10_state.md R31). -/
def Obligations.ResetStateIsIdle : Prop :=
  State.reset.cmd = 0 ∧ State.reset.statusWord = 0 ∧ State.reset.ie = false ∧ State.reset.arg0 = 0 ∧
  State.reset.arg1 = 0 ∧ State.reset.result = 0 ∧ State.reset.keylen = 0 ∧ State.reset.serlen = 0 ∧
  State.reset.idxcnt = 0 ∧ State.reset.pending = none ∧ State.reset.irq = false ∧
  State.reset.ctxs.length = State.reset.cfg.nctx ∧
  ∀ c, c < State.reset.cfg.nctx →
    (State.reset.ctx c).valid = false ∧ (State.reset.ctx c).var = .bf ∧ (State.reset.ctx c).ovf = .wrap ∧
    (State.reset.ctx c).m = 0 ∧ (State.reset.ctx c).k = 0 ∧ (State.reset.ctx c).count = 0

/-! ### Whole-machine invariants -/

/-- Every step keeps the invariant: `NCTX` contexts, each of `M_MAX` slots and in range when valid, a BF holding only 0 and 1;
the latch equal to `CMD` and `DONE` clear while busy; `IDXCNT` at most `K_MAX`; the memory canonical and inside the buffers
(10_state.md R22, R25, R26). -/
def Obligations.StepKeepsInvariant : Prop :=
  ∀ s t : State, EngineInv s → step s = .next t → EngineInv t

/-- The invariant holds right after reset. -/
def Obligations.ResetMeetsInvariant : Prop := EngineInv State.reset

/-- The parameters are fixed for the life of a run, and no step stops the machine: with a legal next event a step always gives a
next state (10_state.md R12, 60_exceptions.md R173). -/
def Obligations.LegalStepsNeverStop : Prop :=
  ∀ s : State, (∀ e, s.schedule.head? = some e → LegalEvent e) →
    ∃ t, step s = .next t ∧ t.cfg = s.cfg ∧ t.schedule = s.schedule.tail
end

