-- ==== Sys2Proof/Laws/State.lean ====
section
/-! SUPPORT. One lemma per field per named update of the state, each true by `rfl`, so that no later proof unfolds a record
update; and the same for reads that go through an update. -/

namespace Sys2Proof.Laws

open Sys2Proof.Machine

/-! ### `complete` -/

@[simp] theorem complete_cfg (v : Word) (s : State) : (complete v s).cfg = s.cfg := rfl
@[simp] theorem complete_cmd (v : Word) (s : State) : (complete v s).cmd = s.cmd := rfl
@[simp] theorem complete_pending (v : Word) (s : State) : (complete v s).pending = none := rfl
@[simp] theorem complete_done (v : Word) (s : State) : (complete v s).done = true := rfl
@[simp] theorem complete_ovr (v : Word) (s : State) : (complete v s).ovr = s.ovr := rfl
@[simp] theorem complete_ctrovf (v : Word) (s : State) : (complete v s).ctrovf = s.ctrovf := rfl
@[simp] theorem complete_err (v : Word) (s : State) : (complete v s).err = .ok := rfl
@[simp] theorem complete_ie (v : Word) (s : State) : (complete v s).ie = s.ie := rfl
@[simp] theorem complete_arg0 (v : Word) (s : State) : (complete v s).arg0 = s.arg0 := rfl
@[simp] theorem complete_arg1 (v : Word) (s : State) : (complete v s).arg1 = s.arg1 := rfl
@[simp] theorem complete_result (v : Word) (s : State) : (complete v s).result = v := rfl
@[simp] theorem complete_keylen (v : Word) (s : State) : (complete v s).keylen = s.keylen := rfl
@[simp] theorem complete_serlen (v : Word) (s : State) : (complete v s).serlen = s.serlen := rfl
@[simp] theorem complete_idxcnt (v : Word) (s : State) : (complete v s).idxcnt = s.idxcnt := rfl
@[simp] theorem complete_ctxs (v : Word) (s : State) : (complete v s).ctxs = s.ctxs := rfl
@[simp] theorem complete_mem (v : Word) (s : State) : (complete v s).mem = s.mem := rfl
@[simp] theorem complete_resets (v : Word) (s : State) : (complete v s).resets = s.resets := rfl
@[simp] theorem complete_draws (v : Word) (s : State) : (complete v s).draws = s.draws := rfl
@[simp] theorem complete_rdata (v : Word) (s : State) : (complete v s).rdata = s.rdata := rfl
@[simp] theorem complete_schedule (v : Word) (s : State) : (complete v s).schedule = s.schedule := rfl

@[simp] theorem complete_ctx (v : Word) (s : State) (d : Nat) : (complete v s).ctx d = s.ctx d := rfl

theorem complete_byteAt (v : Word) (s : State) (i : Nat) : (complete v s).byteAt i = s.byteAt i := rfl

/-! ### `raise` -/

@[simp] theorem raise_cfg (e : ErrCode) (s : State) : (raise e s).cfg = s.cfg := rfl
@[simp] theorem raise_cmd (e : ErrCode) (s : State) : (raise e s).cmd = s.cmd := rfl
@[simp] theorem raise_pending (e : ErrCode) (s : State) : (raise e s).pending = none := rfl
@[simp] theorem raise_done (e : ErrCode) (s : State) : (raise e s).done = true := rfl
@[simp] theorem raise_ovr (e : ErrCode) (s : State) : (raise e s).ovr = s.ovr := rfl
@[simp] theorem raise_ctrovf (e : ErrCode) (s : State) : (raise e s).ctrovf = s.ctrovf := rfl
@[simp] theorem raise_err (e : ErrCode) (s : State) : (raise e s).err = e := rfl
@[simp] theorem raise_ie (e : ErrCode) (s : State) : (raise e s).ie = s.ie := rfl
@[simp] theorem raise_arg0 (e : ErrCode) (s : State) : (raise e s).arg0 = s.arg0 := rfl
@[simp] theorem raise_arg1 (e : ErrCode) (s : State) : (raise e s).arg1 = s.arg1 := rfl
@[simp] theorem raise_result (e : ErrCode) (s : State) : (raise e s).result = 0 := rfl
@[simp] theorem raise_keylen (e : ErrCode) (s : State) : (raise e s).keylen = s.keylen := rfl
@[simp] theorem raise_serlen (e : ErrCode) (s : State) : (raise e s).serlen = s.serlen := rfl
@[simp] theorem raise_idxcnt (e : ErrCode) (s : State) : (raise e s).idxcnt = s.idxcnt := rfl
@[simp] theorem raise_ctxs (e : ErrCode) (s : State) : (raise e s).ctxs = s.ctxs := rfl
@[simp] theorem raise_mem (e : ErrCode) (s : State) : (raise e s).mem = s.mem := rfl
@[simp] theorem raise_resets (e : ErrCode) (s : State) : (raise e s).resets = s.resets := rfl
@[simp] theorem raise_draws (e : ErrCode) (s : State) : (raise e s).draws = s.draws := rfl
@[simp] theorem raise_rdata (e : ErrCode) (s : State) : (raise e s).rdata = s.rdata := rfl
@[simp] theorem raise_schedule (e : ErrCode) (s : State) : (raise e s).schedule = s.schedule := rfl

@[simp] theorem raise_ctx (e : ErrCode) (s : State) (d : Nat) : (raise e s).ctx d = s.ctx d := rfl

theorem raise_byteAt (e : ErrCode) (s : State) (i : Nat) : (raise e s).byteAt i = s.byteAt i := rfl

/-! ### `setCtx` -/

@[simp] theorem setCtx_cfg (s : State) (c : Nat) (x : Ctx) : (s.setCtx c x).cfg = s.cfg := rfl
@[simp] theorem setCtx_cmd (s : State) (c : Nat) (x : Ctx) : (s.setCtx c x).cmd = s.cmd := rfl
@[simp] theorem setCtx_pending (s : State) (c : Nat) (x : Ctx) : (s.setCtx c x).pending = s.pending := rfl
@[simp] theorem setCtx_done (s : State) (c : Nat) (x : Ctx) : (s.setCtx c x).done = s.done := rfl
@[simp] theorem setCtx_ovr (s : State) (c : Nat) (x : Ctx) : (s.setCtx c x).ovr = s.ovr := rfl
@[simp] theorem setCtx_ctrovf (s : State) (c : Nat) (x : Ctx) : (s.setCtx c x).ctrovf = s.ctrovf := rfl
@[simp] theorem setCtx_err (s : State) (c : Nat) (x : Ctx) : (s.setCtx c x).err = s.err := rfl
@[simp] theorem setCtx_ie (s : State) (c : Nat) (x : Ctx) : (s.setCtx c x).ie = s.ie := rfl
@[simp] theorem setCtx_arg0 (s : State) (c : Nat) (x : Ctx) : (s.setCtx c x).arg0 = s.arg0 := rfl
@[simp] theorem setCtx_arg1 (s : State) (c : Nat) (x : Ctx) : (s.setCtx c x).arg1 = s.arg1 := rfl
@[simp] theorem setCtx_result (s : State) (c : Nat) (x : Ctx) : (s.setCtx c x).result = s.result := rfl
@[simp] theorem setCtx_keylen (s : State) (c : Nat) (x : Ctx) : (s.setCtx c x).keylen = s.keylen := rfl
@[simp] theorem setCtx_serlen (s : State) (c : Nat) (x : Ctx) : (s.setCtx c x).serlen = s.serlen := rfl
@[simp] theorem setCtx_idxcnt (s : State) (c : Nat) (x : Ctx) : (s.setCtx c x).idxcnt = s.idxcnt := rfl
@[simp] theorem setCtx_ctxs (s : State) (c : Nat) (x : Ctx) : (s.setCtx c x).ctxs = s.ctxs.set c x := rfl
@[simp] theorem setCtx_mem (s : State) (c : Nat) (x : Ctx) : (s.setCtx c x).mem = s.mem := rfl
@[simp] theorem setCtx_resets (s : State) (c : Nat) (x : Ctx) : (s.setCtx c x).resets = s.resets := rfl
@[simp] theorem setCtx_draws (s : State) (c : Nat) (x : Ctx) : (s.setCtx c x).draws = s.draws := rfl
@[simp] theorem setCtx_rdata (s : State) (c : Nat) (x : Ctx) : (s.setCtx c x).rdata = s.rdata := rfl
@[simp] theorem setCtx_schedule (s : State) (c : Nat) (x : Ctx) : (s.setCtx c x).schedule = s.schedule := rfl

theorem setCtx_byteAt (s : State) (c : Nat) (x : Ctx) (i : Nat) : (s.setCtx c x).byteAt i = s.byteAt i := rfl

/-! ### `construct` -/

@[simp] theorem construct_cfg (s : State) (c : Nat) (var : Variant) (ovf : Policy) (m k n : Word) (new : List Byte) :
    (s.construct c var ovf m k n new).cfg = s.cfg := rfl
@[simp] theorem construct_cmd (s : State) (c : Nat) (var : Variant) (ovf : Policy) (m k n : Word) (new : List Byte) :
    (s.construct c var ovf m k n new).cmd = s.cmd := rfl
@[simp] theorem construct_pending (s : State) (c : Nat) (var : Variant) (ovf : Policy) (m k n : Word) (new : List Byte) :
    (s.construct c var ovf m k n new).pending = s.pending := rfl
@[simp] theorem construct_done (s : State) (c : Nat) (var : Variant) (ovf : Policy) (m k n : Word) (new : List Byte) :
    (s.construct c var ovf m k n new).done = s.done := rfl
@[simp] theorem construct_ovr (s : State) (c : Nat) (var : Variant) (ovf : Policy) (m k n : Word) (new : List Byte) :
    (s.construct c var ovf m k n new).ovr = s.ovr := rfl
@[simp] theorem construct_ctrovf (s : State) (c : Nat) (var : Variant) (ovf : Policy) (m k n : Word) (new : List Byte) :
    (s.construct c var ovf m k n new).ctrovf = s.ctrovf := rfl
@[simp] theorem construct_err (s : State) (c : Nat) (var : Variant) (ovf : Policy) (m k n : Word) (new : List Byte) :
    (s.construct c var ovf m k n new).err = s.err := rfl
@[simp] theorem construct_ie (s : State) (c : Nat) (var : Variant) (ovf : Policy) (m k n : Word) (new : List Byte) :
    (s.construct c var ovf m k n new).ie = s.ie := rfl
@[simp] theorem construct_arg0 (s : State) (c : Nat) (var : Variant) (ovf : Policy) (m k n : Word) (new : List Byte) :
    (s.construct c var ovf m k n new).arg0 = s.arg0 := rfl
@[simp] theorem construct_arg1 (s : State) (c : Nat) (var : Variant) (ovf : Policy) (m k n : Word) (new : List Byte) :
    (s.construct c var ovf m k n new).arg1 = s.arg1 := rfl
@[simp] theorem construct_result (s : State) (c : Nat) (var : Variant) (ovf : Policy) (m k n : Word) (new : List Byte) :
    (s.construct c var ovf m k n new).result = s.result := rfl
@[simp] theorem construct_keylen (s : State) (c : Nat) (var : Variant) (ovf : Policy) (m k n : Word) (new : List Byte) :
    (s.construct c var ovf m k n new).keylen = s.keylen := rfl
@[simp] theorem construct_serlen (s : State) (c : Nat) (var : Variant) (ovf : Policy) (m k n : Word) (new : List Byte) :
    (s.construct c var ovf m k n new).serlen = s.serlen := rfl
@[simp] theorem construct_idxcnt (s : State) (c : Nat) (var : Variant) (ovf : Policy) (m k n : Word) (new : List Byte) :
    (s.construct c var ovf m k n new).idxcnt = s.idxcnt := rfl
@[simp] theorem construct_ctxs (s : State) (c : Nat) (var : Variant) (ovf : Policy) (m k n : Word) (new : List Byte) :
    (s.construct c var ovf m k n new).ctxs = s.ctxs.set c
      { valid := true, var := var, ovf := ovf, m := m, k := k, count := n, slots := new ++ s.spareSlots new.length } := rfl
@[simp] theorem construct_mem (s : State) (c : Nat) (var : Variant) (ovf : Policy) (m k n : Word) (new : List Byte) :
    (s.construct c var ovf m k n new).mem = s.mem := rfl
@[simp] theorem construct_resets (s : State) (c : Nat) (var : Variant) (ovf : Policy) (m k n : Word) (new : List Byte) :
    (s.construct c var ovf m k n new).resets = s.resets := rfl
@[simp] theorem construct_draws (s : State) (c : Nat) (var : Variant) (ovf : Policy) (m k n : Word) (new : List Byte) :
    (s.construct c var ovf m k n new).draws = s.draws + 1 := rfl
@[simp] theorem construct_rdata (s : State) (c : Nat) (var : Variant) (ovf : Policy) (m k n : Word) (new : List Byte) :
    (s.construct c var ovf m k n new).rdata = s.rdata := rfl
@[simp] theorem construct_schedule (s : State) (c : Nat) (var : Variant) (ovf : Policy) (m k n : Word) (new : List Byte) :
    (s.construct c var ovf m k n new).schedule = s.schedule := rfl

theorem construct_byteAt (s : State) (c : Nat) (var : Variant) (ovf : Policy) (m k n : Word) (new : List Byte) (i : Nat) :
    (s.construct c var ovf m k n new).byteAt i = s.byteAt i := rfl

/-! ### `setBytes` -/

@[simp] theorem setBytes_cfg (s : State) (a : Nat) (vs : List Byte) : (s.setBytes a vs).cfg = s.cfg := rfl
@[simp] theorem setBytes_cmd (s : State) (a : Nat) (vs : List Byte) : (s.setBytes a vs).cmd = s.cmd := rfl
@[simp] theorem setBytes_pending (s : State) (a : Nat) (vs : List Byte) : (s.setBytes a vs).pending = s.pending := rfl
@[simp] theorem setBytes_done (s : State) (a : Nat) (vs : List Byte) : (s.setBytes a vs).done = s.done := rfl
@[simp] theorem setBytes_ovr (s : State) (a : Nat) (vs : List Byte) : (s.setBytes a vs).ovr = s.ovr := rfl
@[simp] theorem setBytes_ctrovf (s : State) (a : Nat) (vs : List Byte) : (s.setBytes a vs).ctrovf = s.ctrovf := rfl
@[simp] theorem setBytes_err (s : State) (a : Nat) (vs : List Byte) : (s.setBytes a vs).err = s.err := rfl
@[simp] theorem setBytes_ie (s : State) (a : Nat) (vs : List Byte) : (s.setBytes a vs).ie = s.ie := rfl
@[simp] theorem setBytes_arg0 (s : State) (a : Nat) (vs : List Byte) : (s.setBytes a vs).arg0 = s.arg0 := rfl
@[simp] theorem setBytes_arg1 (s : State) (a : Nat) (vs : List Byte) : (s.setBytes a vs).arg1 = s.arg1 := rfl
@[simp] theorem setBytes_result (s : State) (a : Nat) (vs : List Byte) : (s.setBytes a vs).result = s.result := rfl
@[simp] theorem setBytes_keylen (s : State) (a : Nat) (vs : List Byte) : (s.setBytes a vs).keylen = s.keylen := rfl
@[simp] theorem setBytes_serlen (s : State) (a : Nat) (vs : List Byte) : (s.setBytes a vs).serlen = s.serlen := rfl
@[simp] theorem setBytes_idxcnt (s : State) (a : Nat) (vs : List Byte) : (s.setBytes a vs).idxcnt = s.idxcnt := rfl
@[simp] theorem setBytes_ctxs (s : State) (a : Nat) (vs : List Byte) : (s.setBytes a vs).ctxs = s.ctxs := rfl
@[simp] theorem setBytes_mem (s : State) (a : Nat) (vs : List Byte) :
    (s.setBytes a vs).mem = memSetRange s.mem a vs := rfl
@[simp] theorem setBytes_resets (s : State) (a : Nat) (vs : List Byte) : (s.setBytes a vs).resets = s.resets := rfl
@[simp] theorem setBytes_draws (s : State) (a : Nat) (vs : List Byte) : (s.setBytes a vs).draws = s.draws := rfl
@[simp] theorem setBytes_rdata (s : State) (a : Nat) (vs : List Byte) : (s.setBytes a vs).rdata = s.rdata := rfl
@[simp] theorem setBytes_schedule (s : State) (a : Nat) (vs : List Byte) :
    (s.setBytes a vs).schedule = s.schedule := rfl

@[simp] theorem setBytes_ctx (s : State) (a : Nat) (vs : List Byte) (d : Nat) : (s.setBytes a vs).ctx d = s.ctx d := rfl

/-! ### `setIdxEntries` -/

@[simp] theorem setIdxEntries_cfg (s : State) (L : List Nat) : (s.setIdxEntries L).cfg = s.cfg := rfl
@[simp] theorem setIdxEntries_cmd (s : State) (L : List Nat) : (s.setIdxEntries L).cmd = s.cmd := rfl
@[simp] theorem setIdxEntries_pending (s : State) (L : List Nat) : (s.setIdxEntries L).pending = s.pending := rfl
@[simp] theorem setIdxEntries_done (s : State) (L : List Nat) : (s.setIdxEntries L).done = s.done := rfl
@[simp] theorem setIdxEntries_ovr (s : State) (L : List Nat) : (s.setIdxEntries L).ovr = s.ovr := rfl
@[simp] theorem setIdxEntries_ctrovf (s : State) (L : List Nat) : (s.setIdxEntries L).ctrovf = s.ctrovf := rfl
@[simp] theorem setIdxEntries_err (s : State) (L : List Nat) : (s.setIdxEntries L).err = s.err := rfl
@[simp] theorem setIdxEntries_ie (s : State) (L : List Nat) : (s.setIdxEntries L).ie = s.ie := rfl
@[simp] theorem setIdxEntries_arg0 (s : State) (L : List Nat) : (s.setIdxEntries L).arg0 = s.arg0 := rfl
@[simp] theorem setIdxEntries_arg1 (s : State) (L : List Nat) : (s.setIdxEntries L).arg1 = s.arg1 := rfl
@[simp] theorem setIdxEntries_result (s : State) (L : List Nat) : (s.setIdxEntries L).result = s.result := rfl
@[simp] theorem setIdxEntries_keylen (s : State) (L : List Nat) : (s.setIdxEntries L).keylen = s.keylen := rfl
@[simp] theorem setIdxEntries_serlen (s : State) (L : List Nat) : (s.setIdxEntries L).serlen = s.serlen := rfl
@[simp] theorem setIdxEntries_idxcnt (s : State) (L : List Nat) : (s.setIdxEntries L).idxcnt = s.idxcnt := rfl
@[simp] theorem setIdxEntries_ctxs (s : State) (L : List Nat) : (s.setIdxEntries L).ctxs = s.ctxs := rfl
@[simp] theorem setIdxEntries_mem (s : State) (L : List Nat) :
    (s.setIdxEntries L).mem = memSetRange s.mem idxbufBase (L.flatMap fun j => wordBytes (BitVec.ofNat 64 j)) := rfl
@[simp] theorem setIdxEntries_resets (s : State) (L : List Nat) : (s.setIdxEntries L).resets = s.resets := rfl
@[simp] theorem setIdxEntries_draws (s : State) (L : List Nat) : (s.setIdxEntries L).draws = s.draws := rfl
@[simp] theorem setIdxEntries_rdata (s : State) (L : List Nat) : (s.setIdxEntries L).rdata = s.rdata := rfl
@[simp] theorem setIdxEntries_schedule (s : State) (L : List Nat) : (s.setIdxEntries L).schedule = s.schedule := rfl

@[simp] theorem setIdxEntries_ctx (s : State) (L : List Nat) (d : Nat) : (s.setIdxEntries L).ctx d = s.ctx d := rfl

/-! ### `acceptCommand` -/

@[simp] theorem acceptCommand_cfg (v : Word) (s : State) : (acceptCommand v s).cfg = s.cfg := rfl
@[simp] theorem acceptCommand_cmd (v : Word) (s : State) : (acceptCommand v s).cmd = v := rfl
@[simp] theorem acceptCommand_pending (v : Word) (s : State) : (acceptCommand v s).pending = some v := rfl
@[simp] theorem acceptCommand_done (v : Word) (s : State) : (acceptCommand v s).done = false := rfl
@[simp] theorem acceptCommand_ovr (v : Word) (s : State) : (acceptCommand v s).ovr = s.ovr := rfl
@[simp] theorem acceptCommand_ctrovf (v : Word) (s : State) : (acceptCommand v s).ctrovf = s.ctrovf := rfl
@[simp] theorem acceptCommand_err (v : Word) (s : State) : (acceptCommand v s).err = s.err := rfl
@[simp] theorem acceptCommand_ie (v : Word) (s : State) : (acceptCommand v s).ie = s.ie := rfl
@[simp] theorem acceptCommand_arg0 (v : Word) (s : State) : (acceptCommand v s).arg0 = s.arg0 := rfl
@[simp] theorem acceptCommand_arg1 (v : Word) (s : State) : (acceptCommand v s).arg1 = s.arg1 := rfl
@[simp] theorem acceptCommand_result (v : Word) (s : State) : (acceptCommand v s).result = s.result := rfl
@[simp] theorem acceptCommand_keylen (v : Word) (s : State) : (acceptCommand v s).keylen = s.keylen := rfl
@[simp] theorem acceptCommand_serlen (v : Word) (s : State) : (acceptCommand v s).serlen = s.serlen := rfl
@[simp] theorem acceptCommand_idxcnt (v : Word) (s : State) : (acceptCommand v s).idxcnt = s.idxcnt := rfl
@[simp] theorem acceptCommand_ctxs (v : Word) (s : State) : (acceptCommand v s).ctxs = s.ctxs := rfl
@[simp] theorem acceptCommand_mem (v : Word) (s : State) : (acceptCommand v s).mem = s.mem := rfl
@[simp] theorem acceptCommand_resets (v : Word) (s : State) : (acceptCommand v s).resets = s.resets := rfl
@[simp] theorem acceptCommand_draws (v : Word) (s : State) : (acceptCommand v s).draws = s.draws := rfl
@[simp] theorem acceptCommand_rdata (v : Word) (s : State) : (acceptCommand v s).rdata = s.rdata := rfl
@[simp] theorem acceptCommand_schedule (v : Word) (s : State) : (acceptCommand v s).schedule = s.schedule := rfl

@[simp] theorem acceptCommand_ctx (v : Word) (s : State) (d : Nat) : (acceptCommand v s).ctx d = s.ctx d := rfl

theorem acceptCommand_byteAt (v : Word) (s : State) (i : Nat) : (acceptCommand v s).byteAt i = s.byteAt i := rfl

/-! ### `writeStatus` -/

@[simp] theorem writeStatus_cfg (v : Word) (s : State) : (writeStatus v s).cfg = s.cfg := rfl
@[simp] theorem writeStatus_cmd (v : Word) (s : State) : (writeStatus v s).cmd = s.cmd := rfl
@[simp] theorem writeStatus_pending (v : Word) (s : State) : (writeStatus v s).pending = s.pending := rfl
@[simp] theorem writeStatus_done (v : Word) (s : State) : (writeStatus v s).done = (s.done && !v.getLsbD 1) := rfl
@[simp] theorem writeStatus_ovr (v : Word) (s : State) : (writeStatus v s).ovr = (s.ovr && !v.getLsbD 2) := rfl
@[simp] theorem writeStatus_ctrovf (v : Word) (s : State) :
    (writeStatus v s).ctrovf = (s.ctrovf && !v.getLsbD 3) := rfl
@[simp] theorem writeStatus_err (v : Word) (s : State) : (writeStatus v s).err = s.err := rfl
@[simp] theorem writeStatus_ie (v : Word) (s : State) : (writeStatus v s).ie = s.ie := rfl
@[simp] theorem writeStatus_arg0 (v : Word) (s : State) : (writeStatus v s).arg0 = s.arg0 := rfl
@[simp] theorem writeStatus_arg1 (v : Word) (s : State) : (writeStatus v s).arg1 = s.arg1 := rfl
@[simp] theorem writeStatus_result (v : Word) (s : State) : (writeStatus v s).result = s.result := rfl
@[simp] theorem writeStatus_keylen (v : Word) (s : State) : (writeStatus v s).keylen = s.keylen := rfl
@[simp] theorem writeStatus_serlen (v : Word) (s : State) : (writeStatus v s).serlen = s.serlen := rfl
@[simp] theorem writeStatus_idxcnt (v : Word) (s : State) : (writeStatus v s).idxcnt = s.idxcnt := rfl
@[simp] theorem writeStatus_ctxs (v : Word) (s : State) : (writeStatus v s).ctxs = s.ctxs := rfl
@[simp] theorem writeStatus_mem (v : Word) (s : State) : (writeStatus v s).mem = s.mem := rfl
@[simp] theorem writeStatus_resets (v : Word) (s : State) : (writeStatus v s).resets = s.resets := rfl
@[simp] theorem writeStatus_draws (v : Word) (s : State) : (writeStatus v s).draws = s.draws := rfl
@[simp] theorem writeStatus_rdata (v : Word) (s : State) : (writeStatus v s).rdata = s.rdata := rfl
@[simp] theorem writeStatus_schedule (v : Word) (s : State) : (writeStatus v s).schedule = s.schedule := rfl

@[simp] theorem writeStatus_ctx (v : Word) (s : State) (d : Nat) : (writeStatus v s).ctx d = s.ctx d := rfl

theorem writeStatus_byteAt (v : Word) (s : State) (i : Nat) : (writeStatus v s).byteAt i = s.byteAt i := rfl

/-! ### `writeCtrl` -/

@[simp] theorem writeCtrl_cfg (v : Word) (s : State) : (writeCtrl v s).cfg = s.cfg := rfl
@[simp] theorem writeCtrl_cmd (v : Word) (s : State) : (writeCtrl v s).cmd = s.cmd := rfl
@[simp] theorem writeCtrl_pending (v : Word) (s : State) : (writeCtrl v s).pending = s.pending := rfl
@[simp] theorem writeCtrl_done (v : Word) (s : State) : (writeCtrl v s).done = s.done := rfl
@[simp] theorem writeCtrl_ovr (v : Word) (s : State) : (writeCtrl v s).ovr = s.ovr := rfl
@[simp] theorem writeCtrl_ctrovf (v : Word) (s : State) : (writeCtrl v s).ctrovf = s.ctrovf := rfl
@[simp] theorem writeCtrl_err (v : Word) (s : State) : (writeCtrl v s).err = s.err := rfl
@[simp] theorem writeCtrl_ie (v : Word) (s : State) : (writeCtrl v s).ie = v.getLsbD 0 := rfl
@[simp] theorem writeCtrl_arg0 (v : Word) (s : State) : (writeCtrl v s).arg0 = s.arg0 := rfl
@[simp] theorem writeCtrl_arg1 (v : Word) (s : State) : (writeCtrl v s).arg1 = s.arg1 := rfl
@[simp] theorem writeCtrl_result (v : Word) (s : State) : (writeCtrl v s).result = s.result := rfl
@[simp] theorem writeCtrl_keylen (v : Word) (s : State) : (writeCtrl v s).keylen = s.keylen := rfl
@[simp] theorem writeCtrl_serlen (v : Word) (s : State) : (writeCtrl v s).serlen = s.serlen := rfl
@[simp] theorem writeCtrl_idxcnt (v : Word) (s : State) : (writeCtrl v s).idxcnt = s.idxcnt := rfl
@[simp] theorem writeCtrl_ctxs (v : Word) (s : State) : (writeCtrl v s).ctxs = s.ctxs := rfl
@[simp] theorem writeCtrl_mem (v : Word) (s : State) : (writeCtrl v s).mem = s.mem := rfl
@[simp] theorem writeCtrl_resets (v : Word) (s : State) : (writeCtrl v s).resets = s.resets := rfl
@[simp] theorem writeCtrl_draws (v : Word) (s : State) : (writeCtrl v s).draws = s.draws := rfl
@[simp] theorem writeCtrl_rdata (v : Word) (s : State) : (writeCtrl v s).rdata = s.rdata := rfl
@[simp] theorem writeCtrl_schedule (v : Word) (s : State) : (writeCtrl v s).schedule = s.schedule := rfl

@[simp] theorem writeCtrl_ctx (v : Word) (s : State) (d : Nat) : (writeCtrl v s).ctx d = s.ctx d := rfl

theorem writeCtrl_byteAt (v : Word) (s : State) (i : Nat) : (writeCtrl v s).byteAt i = s.byteAt i := rfl

end Sys2Proof.Laws
end

