-- ==== Sys2Proof/Laws/Memory.lean ====
section
/-! SUPPORT. The laws of the byte memory: a read after a write, and the canonical form that every write keeps. -/

namespace Sys2Proof.Laws

open Sys2Proof.Machine

theorem memGet_memSet (m : Memory) (a b : Nat) (v : Byte) :
    memGet (memSet m a v) b = if b = a then some v else memGet m b := by
  induction m with
  | nil => simp only [memSet, memGet, eq_comm (a := a)]
  | cons c m ih =>
    obtain ⟨x, w⟩ := c
    simp only [memSet]
    split
    · simp only [memGet, eq_comm (a := a)]
    · split
      · subst_vars
        by_cases h : b = x
        · simp [memGet, h]
        · simp [memGet, h, Ne.symm h]
      · rename_i h1 h2
        simp only [memGet, ih]
        by_cases h : b = a
        · subst h
          simp [Ne.symm h2]
        · simp [h]

@[simp] theorem memGet_memSet_same (m : Memory) (a : Nat) (v : Byte) : memGet (memSet m a v) a = some v := by
  simp [memGet_memSet]

theorem memGet_memSet_ne (m : Memory) {a b : Nat} (v : Byte) (h : b ≠ a) :
    memGet (memSet m a v) b = memGet m b := by
  simp [memGet_memSet, h]

/-- The addresses of a memory after a write: the written one and the old ones. -/
theorem mem_memSet {m : Memory} {a : Nat} {v : Byte} {c : Host.Cell} (h : c ∈ memSet m a v) :
    c = (a, v) ∨ c ∈ m := by
  induction m with
  | nil => simpa [memSet] using h
  | cons d m ih =>
    obtain ⟨x, w⟩ := d
    simp only [memSet] at h
    split at h
    · simpa using h
    · split at h
      · rcases List.mem_cons.1 h with h | h
        · exact .inl h
        · exact .inr (List.mem_cons_of_mem _ h)
      · rcases List.mem_cons.1 h with h | h
        · exact .inr (h ▸ List.mem_cons_self)
        · exact (ih h).imp id (List.mem_cons_of_mem _)

theorem memSet_wf {m : Memory} (h : Memory.wf m) (a : Nat) (v : Byte) : Memory.wf (memSet m a v) := by
  induction m with
  | nil => simp [memSet, Memory.wf]
  | cons d m ih =>
    obtain ⟨x, w⟩ := d
    obtain ⟨h1, h2⟩ := List.pairwise_cons.1 h
    simp only [memSet]
    split
    · rename_i hlt
      refine List.pairwise_cons.2 ⟨fun c hc => ?_, h⟩
      rcases List.mem_cons.1 hc with rfl | hc
      · exact hlt
      · exact hlt.trans (h1 c hc)
    · split
      · subst_vars
        exact List.pairwise_cons.2 ⟨h1, h2⟩
      · refine List.pairwise_cons.2 ⟨fun c hc => ?_, ih h2⟩
        rcases mem_memSet hc with rfl | hc
        · simp only; omega
        · exact h1 c hc

theorem memSetRange_wf {m : Memory} (h : Memory.wf m) (a : Nat) (vs : List Byte) :
    Memory.wf (memSetRange m a vs) := by
  induction vs generalizing m a with
  | nil => exact h
  | cons v vs ih => exact ih (memSet_wf h a v) (a + 1)

/-- Every address a range write adds lies in the range. -/
theorem mem_memSetRange {vs : List Byte} {m : Memory} {a : Nat} {c : Host.Cell} (h : c ∈ memSetRange m a vs) :
    (a ≤ c.1 ∧ c.1 < a + vs.length) ∨ c ∈ m := by
  induction vs generalizing m a with
  | nil => exact .inr h
  | cons v vs ih =>
    rcases ih h with h | h
    · exact .inl (by simp only [List.length_cons]; omega)
    · rcases mem_memSet h with rfl | h
      · exact .inl (by simp)
      · exact .inr h

/-- What a byte reads as after a range write. -/
theorem memGet_memSetRange (vs : List Byte) (m : Memory) (a b : Nat) :
    memGet (memSetRange m a vs) b = if a ≤ b ∧ b < a + vs.length then vs[b - a]? else memGet m b := by
  induction vs generalizing m a with
  | nil =>
    have : ¬(a ≤ b ∧ b < a) := by omega
    simp [memSetRange, this]
  | cons v vs ih =>
    simp only [memSetRange, ih, memGet_memSet, List.length_cons]
    by_cases h : b = a
    · subst h
      simp
    · by_cases h2 : a ≤ b ∧ b < a + (vs.length + 1)
      · have h3 : a + 1 ≤ b ∧ b < a + 1 + vs.length := by omega
        have h4 : b - a = b - (a + 1) + 1 := by omega
        simp [h2, h3, h4]
      · have h3 : ¬(a + 1 ≤ b ∧ b < a + 1 + vs.length) := by omega
        rw [if_neg h3, if_neg h2, if_neg h]

/-- A byte outside a range write reads as before. -/
theorem byteAt_setBytes_out (s : State) (vs : List Byte) {a b : Nat} (h : ¬(a ≤ b ∧ b < a + vs.length)) :
    (s.setBytes a vs).byteAt b = s.byteAt b := by
  simp [State.byteAt, memGet_memSetRange, h]

/-- A byte inside a range write reads as the byte written. -/
theorem byteAt_setBytes_in (s : State) (vs : List Byte) (a i : Nat) (h : i < vs.length) :
    (s.setBytes a vs).byteAt (a + i) = vs[i] := by
  have h2 : a ≤ a + i ∧ a + i < a + vs.length := by omega
  simp [State.byteAt, memGet_memSetRange, h2, h]

@[simp] theorem bytesAt_length (s : State) (a n : Nat) : (s.bytesAt a n).length = n := by
  induction n generalizing a with
  | zero => rfl
  | succ n ih => simp [State.bytesAt, ih]

theorem getElem_bytesAt (s : State) (a n i : Nat) (h : i < (s.bytesAt a n).length) :
    (s.bytesAt a n)[i] = s.byteAt (a + i) := by
  induction n generalizing a i with
  | zero => simp at h
  | succ n ih =>
    cases i with
    | zero => rfl
    | succ i =>
      simp only [State.bytesAt, List.getElem_cons_succ]
      rw [ih (a + 1) i, Nat.add_right_comm, Nat.add_assoc]

/-- Equal bytes give equal byte strings. -/
theorem bytesAt_congr {s t : State} {a n : Nat} (h : ∀ i < n, s.byteAt (a + i) = t.byteAt (a + i)) :
    s.bytesAt a n = t.bytesAt a n := by
  refine List.ext_getElem (by simp) fun i h1 h2 => ?_
  rw [getElem_bytesAt, getElem_bytesAt]
  exact h i (by simpa using h1)

/-- A byte depends on the memory and the reset number only. -/
theorem byteAt_of_mem {s t : State} (hm : t.mem = s.mem) (hr : t.resets = s.resets) (a : Nat) :
    t.byteAt a = s.byteAt a := by
  simp only [State.byteAt, hm, hr]

/-- A byte string depends on the memory and the reset number only. -/
theorem bytesAt_of_mem {s t : State} (hm : t.mem = s.mem) (hr : t.resets = s.resets) (a n : Nat) :
    t.bytesAt a n = s.bytesAt a n :=
  bytesAt_congr fun i _ => byteAt_of_mem hm hr (a + i)

/-- A byte string just written reads back. -/
theorem bytesAt_setBytes (s : State) (a : Nat) (vs : List Byte) :
    (s.setBytes a vs).bytesAt a vs.length = vs := by
  refine List.ext_getElem (by simp) fun i h1 h2 => ?_
  rw [getElem_bytesAt, byteAt_setBytes_in s vs a i h2]

/-- A byte string outside a range write reads as before. -/
theorem bytesAt_setBytes_out (s : State) (vs : List Byte) {a b n : Nat} (h : b + n ≤ a ∨ a + vs.length ≤ b) :
    (s.setBytes a vs).bytesAt b n = s.bytesAt b n :=
  bytesAt_congr fun i hi => byteAt_setBytes_out s vs (by omega)

@[simp] theorem wordBytes_length (v : Word) : (wordBytes v).length = 8 := by simp [wordBytes]

/-- The little-endian value of the bytes of a word is the word (20_memory.md R42). -/
theorem leValue_wordBytes (v : Word) : leValue (wordBytes v) = v.toNat := by
  simp [wordBytes, List.range_succ, leValue, BitVec.extractLsb'_toNat, Nat.shiftRight_eq_div_pow]
  have := v.isLt
  omega

end Sys2Proof.Laws
end

