-- ==== Sys2Proof/Laws/Ops.lean ====
section
/-! SUPPORT. What the shared operations can do: contexts, checks, and the two ends of a command. Every meaning is
`finish s` of its command (`exec_eq_finish`), and `…Cmd_ok` says once, for each command, under which checks it succeeds
and with which state and result. -/

namespace Sys2Proof.Laws

open Sys2Proof.Machine

/-! ### Contexts -/

theorem ctx_setCtx_same (s : State) {c : Nat} (x : Ctx) (h : c < s.ctxs.length) : (s.setCtx c x).ctx c = x := by
  simp [State.ctx, List.getD_eq_getElem?_getD, h]

theorem ctx_setCtx_ne (s : State) {c d : Nat} (x : Ctx) (h : d ≠ c) : (s.setCtx c x).ctx d = s.ctx d := by
  simp [State.ctx, List.getD_eq_getElem?_getD, h.symm]

/-- A context after a write of a context: the new one or the old one. -/
theorem ctx_setCtx_cases (s : State) (c d : Nat) (x : Ctx) :
    (d = c ∧ c < s.ctxs.length ∧ (s.setCtx c x).ctx d = x) ∨ (s.setCtx c x).ctx d = s.ctx d := by
  by_cases h : d = c
  · subst h
    by_cases h2 : d < s.ctxs.length
    · exact .inl ⟨rfl, h2, ctx_setCtx_same s x h2⟩
    · refine .inr ?_
      simp [State.ctx, List.getD_eq_getElem?_getD, h2]
  · exact .inr (ctx_setCtx_ne s x h)

/-- A constructed context is what it is constructed from. -/
theorem ctx_construct_same (s : State) {c : Nat} (var : Variant) (ovf : Policy) (m k count : Word) (new : List Byte)
    (h : c < s.ctxs.length) :
    (s.construct c var ovf m k count new).ctx c =
      { valid := true, var := var, ovf := ovf, m := m, k := k, count := count,
        slots := new ++ s.spareSlots new.length } :=
  ctx_setCtx_same s _ h

theorem ctx_construct_ne (s : State) {c d : Nat} (var : Variant) (ovf : Policy) (m k count : Word) (new : List Byte)
    (h : d ≠ c) : (s.construct c var ovf m k count new).ctx d = s.ctx d :=
  ctx_setCtx_ne s _ h

theorem ctx_mem {s : State} {c : Nat} (h : c < s.ctxs.length) : s.ctx c ∈ s.ctxs := by
  simp [State.ctx, List.getD_eq_getElem?_getD, h]

/-! ### Checks -/

@[simp] theorem require_true (e : ErrCode) : require true e = .ok () := rfl

@[simp] theorem require_false (e : ErrCode) : require false e = .error e := rfl

theorem require_eq_ok {b : Bool} {e : ErrCode} {u : Unit} : require b e = .ok u ↔ b = true := by
  cases b <;> simp

theorem require_eq_error {b : Bool} {e e' : ErrCode} : require b e = .error e' ↔ b = false ∧ e' = e := by
  cases b <;> simp [eq_comm]

/-- A sequence of command parts succeeds when each does. -/
theorem bind_eq_ok {α β : Type} {x : Except ErrCode α} {f : α → Except ErrCode β} {b : β} :
    (x >>= f) = .ok b ↔ ∃ a, x = .ok a ∧ f a = .ok b := by
  cases x <;> simp [bind, Except.bind]

/-- A sequence of command parts fails with the error of its first failing part. -/
theorem bind_eq_error {α β : Type} {x : Except ErrCode α} {f : α → Except ErrCode β} {e : ErrCode} :
    (x >>= f) = .error e ↔ x = .error e ∨ ∃ a, x = .ok a ∧ f a = .error e := by
  cases x <;> simp [bind, Except.bind]

/-- A check and what follows it. -/
theorem require_bind {β : Type} (b : Bool) (e : ErrCode) (f : Unit → Except ErrCode β) :
    (require b e >>= f) = if b then f () else .error e := by
  cases b <;> rfl

@[simp] theorem ok_bind {α β : Type} (a : α) (f : α → Except ErrCode β) : ((.ok a : Except ErrCode α) >>= f) = f a := rfl

@[simp] theorem error_bind {α β : Type} (e : ErrCode) (f : α → Except ErrCode β) :
    ((.error e : Except ErrCode α) >>= f) = .error e := rfl

/-- A returned value is the value. -/
theorem pure_eq_ok {α : Type} {a b : α} : (pure a : Except ErrCode α) = .ok b ↔ b = a := by
  simp [pure, Except.pure, eq_comm]

theorem checkCtx_eq_ok {s : State} {c : Nat} {u : Unit} : checkCtx s c = .ok u ↔ c < s.cfg.nctx := by
  simp [checkCtx, require_eq_ok]

theorem checkValid_eq_ok {s : State} {c : Nat} {u : Unit} : checkValid s c = .ok u ↔ (s.ctx c).valid = true := by
  simp [checkValid, require_eq_ok]

theorem checkKey_eq_ok {s : State} {u : Unit} : checkKey s = .ok u ↔ s.keylen.toNat ≤ s.cfg.keyMax := by
  simp [checkKey, require_eq_ok]

theorem touchedSlots_eq_ok {s : State} {c : Nat} {L : List Nat} :
    touchedSlots s c = .ok L ↔ slotsForKey s.cfg s.key (s.ctx c).k.toNat (s.ctx c).m.toNat = some L := by
  unfold touchedSlots
  split <;> simp [*]

/-! ### The end of a command -/

@[simp] theorem finish_ok (s t : State) (v : Word) : finish s (.ok (t, v)) = complete v t := rfl

@[simp] theorem finish_error (s : State) (e : ErrCode) : finish s (.error e) = raise e s := rfl

/-- After the end of a command no command is pending (60_exceptions.md R171, R172). -/
@[simp] theorem finish_pending (s : State) (r : Except ErrCode (State × Word)) : (finish s r).pending = none := by
  rcases r with e | ⟨t, v⟩ <;> rfl

/-- After the end of a command `DONE` is set (60_exceptions.md R171, R172). -/
@[simp] theorem finish_done (s : State) (r : Except ErrCode (State × Word)) : (finish s r).done = true := by
  rcases r with e | ⟨t, v⟩ <;> rfl

/-! ### The command of each instruction -/

/-- The command whose end is the meaning of an instruction. -/
def commandOf (i : Instr) (s : State) : Except ErrCode (State × Word) :=
  match i with
  | .config ca var ovf => configCmd ca var ovf s
  | .destroy ca => destroyCmd ca s
  | .getm ca => accessorCmd Ctx.m ca s
  | .getk ca => accessorCmd Ctx.k ca s
  | .getcount ca => accessorCmd Ctx.count ca s
  | .getslot ca => getslotCmd ca s
  | .getcfg ca => getcfgCmd ca s
  | .slotidx ca => slotidxCmd ca s
  | .slots ca => slotsCmd ca s
  | .test ca => testCmd ca s
  | .add ca => addCmd ca s
  | .testadd ca => testaddCmd ca s
  | .testrem ca => testremCmd ca s
  | .tobf ca cb => tobfCmd ca cb s
  | .ser ca => serCmd ca s
  | .deser ca var ovf => deserCmd ca var ovf s
  | .equals ca cb => equalsCmd ca cb s

/-- Every meaning ends its command; none faults and none refuses. -/
theorem exec_eq_finish (i : Instr) (s : State) : exec i s = .next (finish s (commandOf i s)) := by
  cases i <;> rfl

/-- The meaning of a command that succeeds. -/
theorem exec_of_ok {i : Instr} {s u : State} {v : Word} (h : commandOf i s = .ok (u, v)) :
    exec i s = .next (complete v u) := by
  rw [exec_eq_finish, h, finish_ok]

/-- The meaning of a command that fails. -/
theorem exec_of_error {i : Instr} {s : State} {e : ErrCode} (h : commandOf i s = .error e) :
    exec i s = .next (raise e s) := by
  rw [exec_eq_finish, h, finish_error]

/-- What a meaning's next state can be: a failing end, or a successful end of what the command computed. -/
theorem exec_next_cases {i : Instr} {s t : State} (h : exec i s = .next t) :
    (∃ e, commandOf i s = .error e ∧ t = raise e s) ∨
    (∃ u v, commandOf i s = .ok (u, v) ∧ t = complete v u) := by
  rw [exec_eq_finish] at h
  cases h
  rcases hr : commandOf i s with e | ⟨u, v⟩
  · exact .inl ⟨e, rfl, rfl⟩
  · exact .inr ⟨u, v, rfl, rfl⟩

/-! ### When a command succeeds, and with what -/

theorem configCmd_ok {ca : Nat} {var : Variant} {ovf : Policy} {s u : State} {v : Word} :
    configCmd ca var ovf s = .ok (u, v) ↔
      ca < s.cfg.nctx ∧ s.arg0 ≠ 0 ∧ s.arg0.toNat ≤ s.cfg.mMax ∧ s.arg1.toNat ≤ s.cfg.kMax ∧
      u = s.construct ca var ovf s.arg0 s.arg1 0 (List.replicate s.arg0.toNat 0) ∧ v = 0 := by
  simp only [configCmd, bind_eq_ok, checkCtx_eq_ok, require_eq_ok, pure_eq_ok, Prod.mk.injEq, decide_eq_true_eq,
    exists_and_left, exists_const]

theorem destroyCmd_ok {ca : Nat} {s u : State} {v : Word} :
    destroyCmd ca s = .ok (u, v) ↔
      ca < s.cfg.nctx ∧ u = s.setCtx ca { s.ctx ca with valid := false } ∧ v = 0 := by
  simp only [destroyCmd, bind_eq_ok, checkCtx_eq_ok, pure_eq_ok, Prod.mk.injEq,
    exists_and_left, exists_const]

theorem accessorCmd_ok {f : Ctx → Word} {ca : Nat} {s u : State} {v : Word} :
    accessorCmd f ca s = .ok (u, v) ↔
      ca < s.cfg.nctx ∧ (s.ctx ca).valid = true ∧ u = s ∧ v = f (s.ctx ca) := by
  simp only [accessorCmd, bind_eq_ok, checkCtx_eq_ok, checkValid_eq_ok, pure_eq_ok, Prod.mk.injEq,
    exists_and_left, exists_const]

theorem getslotCmd_ok {ca : Nat} {s u : State} {v : Word} :
    getslotCmd ca s = .ok (u, v) ↔
      ca < s.cfg.nctx ∧ (s.ctx ca).valid = true ∧ s.arg0.toNat < (s.ctx ca).m.toNat ∧ u = s ∧
      v = ((s.ctx ca).slot s.arg0.toNat).setWidth 64 := by
  simp only [getslotCmd, bind_eq_ok, checkCtx_eq_ok, checkValid_eq_ok, require_eq_ok, pure_eq_ok, Prod.mk.injEq, decide_eq_true_eq,
    exists_and_left, exists_const]

theorem getcfgCmd_ok {ca : Nat} {s u : State} {v : Word} :
    getcfgCmd ca s = .ok (u, v) ↔ ca < s.cfg.nctx ∧ u = s ∧ v = (s.ctx ca).cfgWord := by
  simp only [getcfgCmd, bind_eq_ok, checkCtx_eq_ok, pure_eq_ok, Prod.mk.injEq,
    exists_and_left, exists_const]

theorem slotidxCmd_ok {ca : Nat} {s u : State} {v : Word} :
    slotidxCmd ca s = .ok (u, v) ↔
      ca < s.cfg.nctx ∧ (s.ctx ca).valid = true ∧ s.keylen.toNat ≤ s.cfg.keyMax ∧
      s.arg0.toNat < (s.ctx ca).k.toNat ∧
      ∃ h, slotIndex s.cfg s.key s.arg0.toNat (s.ctx ca).m.toNat = some h ∧ u = s ∧ v = BitVec.ofNat 64 h := by
  simp only [slotidxCmd, bind_eq_ok, checkCtx_eq_ok, checkValid_eq_ok, checkKey_eq_ok, require_eq_ok,
    decide_eq_true_eq, exists_and_left, exists_const]
  refine and_congr_right fun _ => and_congr_right fun _ => and_congr_right fun _ => and_congr_right fun _ => ?_
  cases slotIndex s.cfg s.key s.arg0.toNat (s.ctx ca).m.toNat <;> simp [eq_comm]

theorem slotsCmd_ok {ca : Nat} {s u : State} {v : Word} :
    slotsCmd ca s = .ok (u, v) ↔
      ca < s.cfg.nctx ∧ (s.ctx ca).valid = true ∧ s.keylen.toNat ≤ s.cfg.keyMax ∧
      ∃ L, slotsForKey s.cfg s.key (s.ctx ca).k.toNat (s.ctx ca).m.toNat = some L ∧
        u = { s.setIdxEntries L with idxcnt := (s.ctx ca).k } ∧ v = (s.ctx ca).k := by
  simp only [slotsCmd, bind_eq_ok, checkCtx_eq_ok, checkValid_eq_ok, checkKey_eq_ok, touchedSlots_eq_ok, pure_eq_ok, Prod.mk.injEq,
    exists_and_left, exists_const]

theorem testCmd_ok {ca : Nat} {s u : State} {v : Word} :
    testCmd ca s = .ok (u, v) ↔
      ca < s.cfg.nctx ∧ (s.ctx ca).valid = true ∧ s.keylen.toNat ≤ s.cfg.keyMax ∧
      ∃ L, slotsForKey s.cfg s.key (s.ctx ca).k.toNat (s.ctx ca).m.toNat = some L ∧
        u = s ∧ v = boolWord (member (s.ctx ca).slots L) := by
  simp only [testCmd, bind_eq_ok, checkCtx_eq_ok, checkValid_eq_ok, checkKey_eq_ok, touchedSlots_eq_ok, pure_eq_ok, Prod.mk.injEq,
    exists_and_left, exists_const]

theorem addCmd_ok {ca : Nat} {s u : State} {v : Word} :
    addCmd ca s = .ok (u, v) ↔
      ca < s.cfg.nctx ∧ (s.ctx ca).valid = true ∧ s.keylen.toNat ≤ s.cfg.keyMax ∧
      ∃ L, slotsForKey s.cfg s.key (s.ctx ca).k.toNat (s.ctx ca).m.toNat = some L ∧
        u = mutate s ca (s.ctx ca).addStep L ∧ v = 0 := by
  simp only [addCmd, bind_eq_ok, checkCtx_eq_ok, checkValid_eq_ok, checkKey_eq_ok, touchedSlots_eq_ok, pure_eq_ok, Prod.mk.injEq,
    exists_and_left, exists_const]

theorem testaddCmd_ok {ca : Nat} {s u : State} {v : Word} :
    testaddCmd ca s = .ok (u, v) ↔
      ca < s.cfg.nctx ∧ (s.ctx ca).valid = true ∧ s.keylen.toNat ≤ s.cfg.keyMax ∧
      ∃ L, slotsForKey s.cfg s.key (s.ctx ca).k.toNat (s.ctx ca).m.toNat = some L ∧
        u = mutate s ca (s.ctx ca).addStep L ∧ v = boolWord (member (s.ctx ca).slots L) := by
  simp only [testaddCmd, bind_eq_ok, checkCtx_eq_ok, checkValid_eq_ok, checkKey_eq_ok, touchedSlots_eq_ok, pure_eq_ok, Prod.mk.injEq,
    exists_and_left, exists_const]

theorem testremCmd_ok {ca : Nat} {s u : State} {v : Word} :
    testremCmd ca s = .ok (u, v) ↔
      ca < s.cfg.nctx ∧ (s.ctx ca).valid = true ∧
      (((s.ctx ca).var = .bf ∧ u = s ∧ v = 0) ∨
       ((s.ctx ca).var = .cbf ∧ s.keylen.toNat ≤ s.cfg.keyMax ∧
        ∃ L, slotsForKey s.cfg s.key (s.ctx ca).k.toNat (s.ctx ca).m.toNat = some L ∧
          u = (if member (s.ctx ca).slots L then mutate s ca (decSlot (s.ctx ca).ovf) L else s) ∧
          v = boolWord (member (s.ctx ca).slots L))) := by
  simp only [testremCmd, testremCounting, bind_eq_ok, checkCtx_eq_ok, checkValid_eq_ok, exists_and_left, exists_const]
  refine and_congr_right fun _ => and_congr_right fun _ => ?_
  cases (s.ctx ca).var <;>
    simp only [bind_eq_ok, checkKey_eq_ok, touchedSlots_eq_ok, pure_eq_ok, Prod.mk.injEq, exists_and_left, exists_const,
      true_and, reduceCtorEq, false_and, or_false, false_or]

theorem tobfCmd_ok {ca cb : Nat} {s u : State} {v : Word} :
    tobfCmd ca cb s = .ok (u, v) ↔
      ca < s.cfg.nctx ∧ cb < s.cfg.nctx ∧ (s.ctx ca).valid = true ∧ (s.ctx ca).var = .cbf ∧
      u = s.construct cb .bf .wrap (s.ctx ca).m (s.ctx ca).k (s.ctx ca).count ((s.ctx ca).live.map projectSlot) ∧ v = 0 := by
  simp only [tobfCmd, bind_eq_ok, checkCtx_eq_ok, checkValid_eq_ok, require_eq_ok, pure_eq_ok, Prod.mk.injEq, decide_eq_true_eq,
    exists_and_left, exists_const]

theorem serCmd_ok {ca : Nat} {s u : State} {v : Word} :
    serCmd ca s = .ok (u, v) ↔
      ca < s.cfg.nctx ∧ (s.ctx ca).valid = true ∧ (serialize (s.ctx ca).filter).length ≤ s.cfg.serMax ∧
      u = { s.setBytes serbufBase (serialize (s.ctx ca).filter) with
            serlen := BitVec.ofNat 64 (serialize (s.ctx ca).filter).length } ∧
      v = BitVec.ofNat 64 (serialize (s.ctx ca).filter).length := by
  simp only [serCmd, bind_eq_ok, checkCtx_eq_ok, checkValid_eq_ok, require_eq_ok, pure_eq_ok, Prod.mk.injEq, decide_eq_true_eq,
    exists_and_left, exists_const]

theorem deserCmd_ok {ca : Nat} {var : Variant} {ovf : Policy} {s u : State} {v : Word} :
    deserCmd ca var ovf s = .ok (u, v) ↔
      ca < s.cfg.nctx ∧ s.serlen.toNat ≤ s.cfg.serMax ∧
      ∃ f, decodeText s.cfg var s.text = some f ∧
        u = s.construct ca var ovf (BitVec.ofNat 64 f.m) (BitVec.ofNat 64 f.k) (BitVec.ofNat 64 f.count) f.slots ∧ v = 0 := by
  simp only [deserCmd, bind_eq_ok, checkCtx_eq_ok, require_eq_ok, decide_eq_true_eq, exists_and_left, exists_const]
  refine and_congr_right fun _ => and_congr_right fun _ => ?_
  cases decodeText s.cfg var s.text with
  | none => simp
  | some f =>
    simp only [Except.ok.injEq, Prod.mk.injEq, Option.some.injEq, exists_eq_left', eq_comm (b := u), eq_comm (b := v)]

theorem equalsCmd_ok {ca cb : Nat} {s u : State} {v : Word} :
    equalsCmd ca cb s = .ok (u, v) ↔
      ca < s.cfg.nctx ∧ cb < s.cfg.nctx ∧ (s.ctx ca).valid = true ∧ (s.ctx cb).valid = true ∧ u = s ∧
      v = boolWord ((s.ctx ca).same (s.ctx cb)) := by
  simp only [equalsCmd, bind_eq_ok, checkCtx_eq_ok, checkValid_eq_ok, pure_eq_ok, Prod.mk.injEq,
    exists_and_left, exists_const]

end Sys2Proof.Laws
end

