-- ==== Sys2Proof/Laws/Hash.lean ====
section
/-! SUPPORT. What the hash pipeline computes: the rounds of `SlotsForKey` one by one, its length and the range of its
entries. -/

namespace Sys2Proof.Laws

open Sys2Proof.Machine

/-- All rounds succeed with results `L` exactly when each round gives its entry of `L`. -/
theorem mapRounds_eq_some {f : Nat → Option Nat} {is L : List Nat} :
    mapRounds f is = some L ↔ is.map f = L.map some := by
  induction is generalizing L with
  | nil => cases L <;> simp [mapRounds]
  | cons i is ih =>
    simp only [mapRounds, List.map_cons]
    cases hf : f i with
    | none => cases L <;> simp
    | some h =>
      cases hm : mapRounds f is with
      | none =>
        cases L with
        | nil => simp
        | cons x L =>
          have : ¬is.map f = L.map some := fun hc => by simp [ih.2 hc] at hm
          simp [this]
      | some hs =>
        cases L with
        | nil => simp
        | cons x L =>
          have := ih.1 hm
          constructor
          · rintro ⟨⟩
            simp [this]
          · intro hL
            simp only [List.map_cons, List.cons.injEq, Option.some.injEq] at hL
            have h2 : hs.map some = L.map some := this ▸ hL.2
            rw [hL.1, (List.map_injective_iff.2 (Option.some_injective Nat)) h2]

/-- A run of rounds fails exactly when one of them fails. -/
theorem mapRounds_eq_none {f : Nat → Option Nat} {is : List Nat} :
    mapRounds f is = none ↔ ∃ i ∈ is, f i = none := by
  induction is with
  | nil => simp [mapRounds]
  | cons i is ih =>
    simp only [mapRounds, List.mem_cons, exists_eq_or_imp, ← ih]
    cases f i <;> cases mapRounds f is <;> simp

theorem slotsForKey_eq_some {p : Config} {b : List Byte} {k m : Nat} {L : List Nat} :
    slotsForKey p b k m = some L ↔ (List.range k).map (fun i => slotIndex p b i m) = L.map some :=
  mapRounds_eq_some

theorem slotsForKey_eq_none {p : Config} {b : List Byte} {k m : Nat} :
    slotsForKey p b k m = none ↔ ∃ i, i < k ∧ slotIndex p b i m = none := by
  exact (mapRounds_eq_none (f := fun i => slotIndex p b i m) (is := List.range k)).trans (by simp)

theorem slotsForKey_length {p : Config} {b : List Byte} {k m : Nat} {L : List Nat}
    (h : slotsForKey p b k m = some L) : L.length = k := by
  have := congrArg List.length (slotsForKey_eq_some.1 h)
  simpa using this.symm

/-- Every entry of the sequence is a slot index below `m` (41_hash_pipeline.md R98). -/
theorem slotIndex_lt {p : Config} {b : List Byte} {i m h : Nat} (hm : 0 < m) (hi : slotIndex p b i m = some h) :
    h < m := by
  simp only [slotIndex, Option.map_eq_some_iff] at hi
  obtain ⟨x, -, rfl⟩ := hi
  exact Nat.mod_lt x hm

theorem slotsForKey_lt {p : Config} {b : List Byte} {k m : Nat} {L : List Nat} (hm : 0 < m)
    (h : slotsForKey p b k m = some L) : ∀ j ∈ L, j < m := by
  intro j hj
  have : some j ∈ (List.range k).map (fun i => slotIndex p b i m) := by
    rw [slotsForKey_eq_some.1 h]
    exact List.mem_map_of_mem hj
  obtain ⟨i, -, hi⟩ := List.mem_map.1 this
  exact slotIndex_lt hm hi

/-- The key depends only on the key length and the bytes of `KEYBUF`. -/
theorem key_congr {s t : State} (hl : t.keylen = s.keylen)
    (h : ∀ i < s.keylen.toNat, t.byteAt (keybufBase + i) = s.byteAt (keybufBase + i)) : t.key = s.key := by
  simp only [State.key, hl]
  exact bytesAt_congr h

/-- The key is the same where key length, memory and reset number are. -/
theorem key_of_mem {s t : State} (hl : t.keylen = s.keylen) (hm : t.mem = s.mem) (hr : t.resets = s.resets) :
    t.key = s.key :=
  key_congr hl fun i _ => byteAt_of_mem hm hr (keybufBase + i)

/-- Appending a byte at the end of a key (41_hash_pipeline.md R97). -/
theorem bigEndian_append_singleton (b : List Byte) (v : Byte) : bigEndian (b ++ [v]) = bigEndian b * 256 + v.toNat := by
  induction b with
  | nil => simp [bigEndian]
  | cons c b ih =>
    simp only [List.cons_append, bigEndian, List.length_append, List.length_cons, List.length_nil, ih]
    ring

end Sys2Proof.Laws
end

