-- ==== Sys2Proof/Laws/SlotOps.lean ====
section
/-! SUPPORT. What a visit of the touched slots does to the slot array, slot by slot: a slot is updated once per occurrence
of its index (spec/42_slot_ops.md R122). -/

namespace Sys2Proof.Laws

open Sys2Proof.Machine

@[simp] theorem touchEach_length (f : Byte → Byte × Bool) (L : List Nat) (slots : List Byte) :
    (touchEach f L slots).1.length = slots.length := by
  induction L generalizing slots with
  | nil => rfl
  | cons j L ih => simp [touchEach, ih]

/-- Each slot is updated once per occurrence of its index in the list. -/
theorem getElem_touchEach (f : Byte → Byte × Bool) (L : List Nat) (slots : List Byte) (j : Nat) (h : j < slots.length) :
    (touchEach f L slots).1[j]'(by simpa using h) = (fun v => (f v).1)^[L.count j] slots[j] := by
  induction L generalizing slots with
  | nil => simp [touchEach]
  | cons i L ih =>
    simp only [touchEach]
    rw [ih (slots.set i (f (slots.getD i 0)).1) (by simpa using h)]
    by_cases hij : i = j
    · subst hij
      simp [h, Function.iterate_succ_apply]
    · simp [List.getElem_set_ne hij, List.count_cons_of_ne hij]

/-- The slot array after a visit, as one update of each slot. -/
theorem touchEach_slots (f : Byte → Byte × Bool) (L : List Nat) (slots : List Byte) :
    (touchEach f L slots).1 = slots.mapIdx fun j v => (fun v => (f v).1)^[L.count j] v := by
  refine List.ext_getElem (by simp) fun j h1 h2 => ?_
  rw [getElem_touchEach f L slots j (by simpa using h1), List.getElem_mapIdx]

/-- A visit overflows when some update of some slot does. -/
theorem touchEach_flag (f : Byte → Byte × Bool) (L : List Nat) (slots : List Byte) (hL : ∀ j ∈ L, j < slots.length) :
    (touchEach f L slots).2 = true ↔
      ∃ j ∈ L, ∃ n, n < L.count j ∧ (f ((fun v => (f v).1)^[n] (slots.getD j 0))).2 = true := by
  induction L generalizing slots with
  | nil => simp [touchEach]
  | cons i L ih =>
    have hi : i < slots.length := hL i List.mem_cons_self
    have hL' : ∀ j ∈ L, j < (slots.set i (f (slots.getD i 0)).1).length := fun j hj => by
      simpa using hL j (List.mem_cons_of_mem _ hj)
    simp only [touchEach, Bool.or_eq_true, ih _ hL']
    constructor
    · rintro (h | ⟨j, hj, n, hn, h⟩)
      · exact ⟨i, List.mem_cons_self, 0, by simp, h⟩
      · by_cases hij : i = j
        · subst hij
          refine ⟨i, List.mem_cons_self, n + 1, by simpa using hn, ?_⟩
          simpa [List.getD_eq_getElem?_getD, hi, Function.iterate_succ_apply] using h
        · refine ⟨j, List.mem_cons_of_mem _ hj, n, by simpa [List.count_cons_of_ne hij] using hn, ?_⟩
          simpa [List.getD_eq_getElem?_getD, List.getElem?_set_ne hij] using h
    · rintro ⟨j, hj, n, hn, h⟩
      by_cases hij : i = j
      · subst hij
        cases n with
        | zero => exact .inl h
        | succ n =>
          have hn' : n < L.count i := by simpa using hn
          refine .inr ⟨i, List.count_pos_iff.1 (by omega), n, hn', ?_⟩
          simpa [List.getD_eq_getElem?_getD, hi, Function.iterate_succ_apply] using h
      · have hn' : n < L.count j := by simpa [List.count_cons_of_ne hij] using hn
        refine .inr ⟨j, List.count_pos_iff.1 (by omega), n, hn', ?_⟩
        simpa [List.getD_eq_getElem?_getD, List.getElem?_set_ne hij] using h

/-- Setting a slot never overflows (42_slot_ops.md R115). -/
@[simp] theorem touchEach_setSlot_flag (L : List Nat) (slots : List Byte) : (touchEach setSlot L slots).2 = false := by
  induction L generalizing slots with
  | nil => rfl
  | cons j L ih => simp [touchEach, ih, setSlot]

theorem iterate_setSlot (n : Nat) (v : Byte) : (fun v => (setSlot v).1)^[n] v = if n = 0 then v else 1 := by
  cases n with
  | zero => rfl
  | succ n => simp [Function.iterate_succ_apply', setSlot]

/-- `n` wrapping increments add `n` modulo 256 (42_slot_ops.md R112). -/
theorem iterate_incSlot_wrap (n : Nat) (v : Byte) :
    (fun v => (incSlot .wrap v).1)^[n] v = BitVec.ofNat 8 (v.toNat + n) := by
  induction n with
  | zero => simp
  | succ n ih =>
    rw [Function.iterate_succ_apply', ih]
    apply BitVec.eq_of_toNat_eq
    simp only [incSlot]
    split
    · rename_i h
      have := congrArg BitVec.toNat h
      simp at this ⊢
      omega
    · simp [BitVec.toNat_add]
      omega

/-- `n` saturating increments add `n` and clamp at 255 (42_slot_ops.md R112). -/
theorem iterate_incSlot_sat (n : Nat) (v : Byte) :
    (fun v => (incSlot .sat v).1)^[n] v = BitVec.ofNat 8 (min 255 (v.toNat + n)) := by
  have hv := v.isLt
  induction n with
  | zero =>
    apply BitVec.eq_of_toNat_eq
    simp
    omega
  | succ n ih =>
    rw [Function.iterate_succ_apply', ih]
    apply BitVec.eq_of_toNat_eq
    simp only [incSlot]
    split
    · rename_i h
      have := congrArg BitVec.toNat h
      simp at this ⊢
      omega
    · rename_i h
      have : ¬(min 255 (v.toNat + n)) = 255 := fun hc => h (by rw [hc]; rfl)
      simp [BitVec.toNat_add]
      omega

/-- `n` wrapping decrements subtract `n` modulo 256 (42_slot_ops.md R112). -/
theorem iterate_decSlot_wrap (n : Nat) (v : Byte) :
    (fun v => (decSlot .wrap v).1)^[n] v = v - BitVec.ofNat 8 n := by
  induction n with
  | zero => simp
  | succ n ih =>
    rw [Function.iterate_succ_apply', ih]
    have h1 : BitVec.ofNat 8 (n + 1) = BitVec.ofNat 8 n + 1 := by
      apply BitVec.eq_of_toNat_eq
      simp [BitVec.toNat_add]
    simp only [decSlot, h1]
    split
    · rename_i h
      rw [sub_add_eq_sub_sub, h]
      rfl
    · rw [sub_add_eq_sub_sub]

/-- `n` saturating decrements subtract `n` and clamp at 0 (42_slot_ops.md R112). -/
theorem iterate_decSlot_sat (n : Nat) (v : Byte) :
    (fun v => (decSlot .sat v).1)^[n] v = BitVec.ofNat 8 (v.toNat - n) := by
  have hv := v.isLt
  induction n with
  | zero => simp
  | succ n ih =>
    rw [Function.iterate_succ_apply', ih]
    apply BitVec.eq_of_toNat_eq
    simp only [decSlot]
    split
    · rename_i h
      have := congrArg BitVec.toNat h
      simp at this ⊢
      omega
    · rename_i h
      have : ¬v.toNat - n = 0 := fun hc => h (by rw [hc]; rfl)
      simp [BitVec.toNat_sub]
      omega

/-- An increment overflows exactly when it starts at 255. -/
theorem incSlot_flag (p : Policy) (v : Byte) : (incSlot p v).2 = true ↔ v = 255 := by
  unfold incSlot
  split
  · cases p <;> simpa
  · simpa

/-- A decrement overflows exactly when it starts at 0. -/
theorem decSlot_flag (p : Policy) (v : Byte) : (decSlot p v).2 = true ↔ v = 0 := by
  unfold decSlot
  split
  · cases p <;> simpa
  · simpa

/-- Some increment of a run of `n` starts at 255 exactly when the run passes 255. -/
theorem incSlot_run_flag (p : Policy) (n : Nat) (v : Byte) :
    (∃ i, i < n ∧ (incSlot p ((fun v => (incSlot p v).1)^[i] v)).2 = true) ↔ 255 < v.toNat + n := by
  have hv := v.isLt
  simp only [incSlot_flag]
  constructor
  · rintro ⟨i, hi, h⟩
    by_contra hc
    have h2 : (fun v => (incSlot p v).1)^[i] v = BitVec.ofNat 8 (v.toNat + i) := by
      cases p
      · exact iterate_incSlot_wrap i v
      · rw [iterate_incSlot_sat, min_eq_right (by omega)]
    have := congrArg BitVec.toNat (h2.symm.trans h)
    simp at this
    omega
  · intro h
    refine ⟨255 - v.toNat, by omega, ?_⟩
    apply BitVec.eq_of_toNat_eq
    cases p
    · rw [iterate_incSlot_wrap]; simp; omega
    · rw [iterate_incSlot_sat]; simp; omega

/-- Some decrement of a run of `n` starts at 0 exactly when the run passes 0. -/
theorem decSlot_run_flag (p : Policy) (n : Nat) (v : Byte) :
    (∃ i, i < n ∧ (decSlot p ((fun v => (decSlot p v).1)^[i] v)).2 = true) ↔ v.toNat < n := by
  have hv := v.isLt
  simp only [decSlot_flag]
  constructor
  · rintro ⟨i, hi, h⟩
    by_contra hc
    cases p
    · rw [iterate_decSlot_wrap] at h
      have := congrArg BitVec.toNat h
      simp [BitVec.toNat_sub] at this
      omega
    · rw [iterate_decSlot_sat] at h
      have := congrArg BitVec.toNat h
      simp at this
      omega
  · intro h
    refine ⟨v.toNat, h, ?_⟩
    cases p
    · rw [iterate_decSlot_wrap]; simp
    · rw [iterate_decSlot_sat]; simp

/-- Membership reads each touched slot (42_slot_ops.md R111). -/
theorem member_eq_true {slots : List Byte} {L : List Nat} : member slots L = true ↔ ∀ j ∈ L, slots.getD j 0 ≠ 0 := by
  simp [member]

theorem boolWord_eq_one {b : Bool} : boolWord b = 1 ↔ b = true := by cases b <;> simp [boolWord]

theorem boolWord_eq_zero {b : Bool} : boolWord b = 0 ↔ b = false := by cases b <;> simp [boolWord]

end Sys2Proof.Laws
end

