-- ==== Sys2Proof/Laws/Codec.lean ====
section
/-! SUPPORT. The codec's laws: the strict base64 decoder and the encoder undo each other, so do the layout matcher and the
text, the length of a serialized form, and what the whole decoder takes (spec/44_codec.md R141 to R146). -/

namespace Sys2Proof.Laws
open Sys2Proof.Machine

/-! ### Base64 -/

theorem unalpha_alpha : ∀ v < 64, unalpha (alpha v) = some v := by decide +kernel

theorem unalpha_pad : unalpha pad = none := by decide

theorem alpha_unalpha {c : Byte} {v : Nat} (h : unalpha c = some v) : v < 64 ∧ alpha v = c := by
  have all : ∀ n : Fin 256, ∀ w ∈ unalpha (BitVec.ofFin n), w < 64 ∧ alpha w = BitVec.ofFin n := by decide +kernel
  exact all c.toFin v h

theorem alpha_ne_pad {v : Nat} (h : v < 64) : alpha v ≠ pad := fun hc => by
  have := unalpha_alpha v h
  rw [hc, unalpha_pad] at this
  cases this

theorem base64_length : ∀ b : List Byte, (base64 b).length = 4 * ((b.length + 2) / 3)
  | [] => rfl
  | [_] => by simp [base64]
  | [_, _] => by simp [base64]
  | a :: b :: c :: rest => by
    simp only [base64, List.length_cons, base64_length rest]
    omega

theorem unbase64Full_alpha {w x y z : Nat} (hw : w < 64) (hx : x < 64) (hy : y < 64) (hz : z < 64) :
    unbase64Full (alpha w) (alpha x) (alpha y) (alpha z) =
      some [BitVec.ofNat 8 ((((w * 64 + x) * 64 + y) * 64 + z) / 65536),
        BitVec.ofNat 8 ((((w * 64 + x) * 64 + y) * 64 + z) / 256 % 256),
        BitVec.ofNat 8 ((((w * 64 + x) * 64 + y) * 64 + z) % 256)] := by
  simp [unbase64Full, unalpha_alpha, hw, hx, hy, hz]

theorem ofNat_toNat_byte {a : Byte} {n : Nat} (h : n = a.toNat) : BitVec.ofNat 8 n = a := by
  subst h
  simp

/-- Three bytes encoded as one group decode to themselves. -/
theorem unbase64Full_encode (a b c : Byte) :
    unbase64Full (alpha ((a.toNat * 65536 + b.toNat * 256 + c.toNat) / 262144))
      (alpha ((a.toNat * 65536 + b.toNat * 256 + c.toNat) / 4096 % 64))
      (alpha ((a.toNat * 65536 + b.toNat * 256 + c.toNat) / 64 % 64))
      (alpha ((a.toNat * 65536 + b.toNat * 256 + c.toNat) % 64)) = some [a, b, c] := by
  have ha := a.isLt
  have hb := b.isLt
  have hc := c.isLt
  rw [unbase64Full_alpha (by omega) (by omega) (by omega) (by omega)]
  congr 1
  refine List.cons_eq_cons.2 ⟨ofNat_toNat_byte (by omega), List.cons_eq_cons.2 ⟨ofNat_toNat_byte (by omega),
    List.cons_eq_cons.2 ⟨ofNat_toNat_byte (by omega), rfl⟩⟩⟩

/-- A group that is not the last is decoded without pads. -/
theorem unbase64_group (a b c d : Byte) {rest : List Byte} (h : rest ≠ []) :
    unbase64 (a :: b :: c :: d :: rest) =
      match unbase64Full a b c d, unbase64 rest with
      | some x, some y => some (x ++ y)
      | _, _ => none := by
  cases rest with
  | nil => exact absurd rfl h
  | cons e r => rfl

theorem unbase64_last (a b c d : Byte) : unbase64 [a, b, c, d] = unbase64Last a b c d := rfl

theorem base64_ne_nil : ∀ {b : List Byte}, b ≠ [] → base64 b ≠ []
  | [_], _ => by simp [base64]
  | [_, _], _ => by simp [base64]
  | _ :: _ :: _ :: _, _ => by simp [base64]

/-- Strict decoding undoes encoding (44_codec.md R144, R146). -/
theorem unbase64_base64 : ∀ {b : List Byte}, b ≠ [] → unbase64 (base64 b) = some b
  | [a], _ => by
    have ha := a.isLt
    have h1 : a.toNat * 65536 / 262144 < 64 := by omega
    have h2 : a.toNat * 65536 / 4096 % 64 < 64 := by omega
    have h3 : (a.toNat * 65536 / 262144 * 64 + a.toNat * 65536 / 4096 % 64) % 16 = 0 := by omega
    simp only [base64, unbase64_last, unbase64Last, if_true, unalpha_alpha _ h1, unalpha_alpha _ h2, h3]
    congr 2
    exact ofNat_toNat_byte (by omega)
  | [a, b], _ => by
    have ha := a.isLt
    have hb := b.isLt
    have h1 : (a.toNat * 65536 + b.toNat * 256) / 262144 < 64 := by omega
    have h2 : (a.toNat * 65536 + b.toNat * 256) / 4096 % 64 < 64 := by omega
    have h3 : (a.toNat * 65536 + b.toNat * 256) / 64 % 64 < 64 := by omega
    have h4 : (((a.toNat * 65536 + b.toNat * 256) / 262144 * 64 + (a.toNat * 65536 + b.toNat * 256) / 4096 % 64) * 64 +
      (a.toNat * 65536 + b.toNat * 256) / 64 % 64) % 4 = 0 := by omega
    simp only [base64, unbase64_last, unbase64Last, if_true, if_neg (alpha_ne_pad h3), unalpha_alpha _ h1,
      unalpha_alpha _ h2, unalpha_alpha _ h3, h4]
    congr 1
    refine List.cons_eq_cons.2 ⟨ofNat_toNat_byte (by omega), List.cons_eq_cons.2 ⟨ofNat_toNat_byte (by omega), rfl⟩⟩
  | a :: b :: c :: rest, _ => by
    have h3 : (a.toNat * 65536 + b.toNat * 256 + c.toNat) % 64 < 64 := by omega
    by_cases hr : rest = []
    · subst hr
      simp only [base64, unbase64_last, unbase64Last, if_neg (alpha_ne_pad h3)]
      exact unbase64Full_encode a b c
    · rw [base64, unbase64_group _ _ _ _ (base64_ne_nil hr), unbase64Full_encode, unbase64_base64 hr]
      rfl

/-- Three decoded bytes encode to the group they come from. -/
theorem unbase64Full_eq_some {a b c d : Byte} {x : List Byte} (h : unbase64Full a b c d = some x) :
    ∃ p q r, x = [p, q, r] ∧ ∀ rest, base64 (p :: q :: r :: rest) = a :: b :: c :: d :: base64 rest := by
  unfold unbase64Full at h
  split at h
  · rename_i w x' y z hw hx hy hz
    obtain ⟨lw, rfl⟩ := alpha_unalpha hw
    obtain ⟨lx, rfl⟩ := alpha_unalpha hx
    obtain ⟨ly, rfl⟩ := alpha_unalpha hy
    obtain ⟨lz, rfl⟩ := alpha_unalpha hz
    refine ⟨_, _, _, (Option.some.inj h).symm, fun rest => ?_⟩
    simp only [base64, BitVec.toNat_ofNat]
    congr 1
    · congr 1; omega
    congr 1
    · congr 1; omega
    congr 1
    · congr 1; omega
    congr 1
    congr 1; omega
  · cases h

theorem unbase64Last_eq_some {a b c d : Byte} {x : List Byte} (h : unbase64Last a b c d = some x) :
    x ≠ [] ∧ base64 x = [a, b, c, d] := by
  unfold unbase64Last at h
  split at h
  · subst_vars
    split at h
    · subst_vars
      split at h
      · rename_i w x' hw hx
        obtain ⟨lw, rfl⟩ := alpha_unalpha hw
        obtain ⟨lx, rfl⟩ := alpha_unalpha hx
        simp only at h
        split at h
        · obtain rfl := Option.some.inj h
          refine ⟨by simp, ?_⟩
          simp only [base64, BitVec.toNat_ofNat]
          congr 1
          · congr 1; omega
          congr 1
          congr 1; omega
        · cases h
      · cases h
    · split at h
      · rename_i w x' y hw hx hy
        obtain ⟨lw, rfl⟩ := alpha_unalpha hw
        obtain ⟨lx, rfl⟩ := alpha_unalpha hx
        obtain ⟨ly, rfl⟩ := alpha_unalpha hy
        simp only at h
        split at h
        · obtain rfl := Option.some.inj h
          refine ⟨by simp, ?_⟩
          simp only [base64, BitVec.toNat_ofNat]
          congr 1
          · congr 1; omega
          congr 1
          · congr 1; omega
          congr 1
          congr 1; omega
        · cases h
      · cases h
  · obtain ⟨p, q, r, rfl, hx⟩ := unbase64Full_eq_some h
    exact ⟨by simp, hx []⟩

/-- A text that decodes strictly is the encoding of what it decodes to: no second spelling is taken (44_codec.md R146). -/
theorem base64_unbase64 : ∀ {t b : List Byte}, unbase64 t = some b → b ≠ [] ∧ base64 b = t
  | [a, b, c, d], x, h => unbase64Last_eq_some h
  | a :: b :: c :: d :: e :: rest, x, h => by
    rw [unbase64_group a b c d (by simp)] at h
    split at h
    · rename_i u v hu hv
      obtain rfl := Option.some.inj h
      obtain ⟨p, q, r, rfl, hx⟩ := unbase64Full_eq_some hu
      refine ⟨by simp, ?_⟩
      rw [List.cons_append, List.cons_append, List.cons_append, List.nil_append, hx, (base64_unbase64 hv).2]
    · cases h
  | [], _, h => by simp [unbase64] at h
  | [_], _, h => by simp [unbase64] at h
  | [_, _], _, h => by simp [unbase64] at h
  | [_, _, _], _, h => by simp [unbase64] at h

/-! ### Literals, numerals and hexadecimal pairs -/

theorem takeLit_eq_some {l t r : List Byte} : takeLit l t = some r ↔ t = l ++ r := by
  induction l generalizing t with
  | nil => simp [takeLit]
  | cons c l ih =>
    cases t with
    | nil => simp [takeLit]
    | cons x t =>
      simp only [takeLit, List.cons_append, List.cons.injEq]
      split <;> simp [*]

theorem undigit_decDigit : ∀ d < 10, undigit (decDigit d) = some d := by decide +kernel

theorem decDigit_undigit {c : Byte} {d : Nat} (h : undigit c = some d) : d < 10 ∧ decDigit d = c := by
  have all : ∀ n : Fin 256, ∀ w ∈ undigit (BitVec.ofFin n), w < 10 ∧ decDigit w = BitVec.ofFin n := by decide +kernel
  exact all c.toFin d h

/-- The text does not begin with a digit. -/
def NoDigit (r : List Byte) : Prop := ∀ c ∈ r.head?, undigit c = none

theorem takeDigits_append {ds : List Nat} (h : ∀ d ∈ ds, d < 10) {r : List Byte} (hr : NoDigit r) :
    takeDigits (ds.map decDigit ++ r) = (ds, r) := by
  induction ds with
  | nil =>
    cases r with
    | nil => rfl
    | cons c r => simp [takeDigits, hr c (by simp)]
  | cons d ds ih =>
    simp only [List.mem_cons, forall_eq_or_imp] at h
    simp [takeDigits, undigit_decDigit d h.1, ih h.2]

theorem takeDigits_eq {t r : List Byte} {ds : List Nat} (h : takeDigits t = (ds, r)) :
    t = ds.map decDigit ++ r ∧ ∀ d ∈ ds, d < 10 := by
  induction t generalizing ds with
  | nil =>
    simp only [takeDigits, Prod.mk.injEq] at h
    simp [← h.1, ← h.2]
  | cons c t ih =>
    simp only [takeDigits] at h
    split at h
    · rename_i d hd
      obtain ⟨ld, rfl⟩ := decDigit_undigit hd
      obtain ⟨rfl, h2⟩ := Prod.mk.inj h
      obtain ⟨h3, h4⟩ := ih (ds := (takeDigits t).1) (by rw [← h2])
      exact ⟨by rw [List.map_cons, List.cons_append, ← h3], by simpa using ⟨ld, h4⟩⟩
    · obtain ⟨rfl, rfl⟩ := Prod.mk.inj h
      simp

/-- The numeral of a number, by its digits. -/
theorem decimal_eq {fuel n : Nat} (h : n < 10 ^ (fuel + 1)) :
    decimal (fuel + 1) n = (if n = 0 then [0] else (Nat.digits 10 n).reverse).map decDigit := by
  induction fuel generalizing n with
  | zero =>
    have h' : n < 10 := by simpa using h
    simp only [decimal, h', if_true]
    split
    · subst_vars; rfl
    · rw [Nat.digits_of_lt 10 n ‹_› h']; rfl
  | succ fuel ih =>
    rw [decimal]
    by_cases h' : n < 10
    · simp only [h', if_true]
      split
      · subst_vars; rfl
      · rw [Nat.digits_of_lt 10 n ‹_› h']; rfl
    · have hq : n / 10 < 10 ^ (fuel + 1) := by
        rw [Nat.div_lt_iff_lt_mul (by norm_num)]
        rwa [pow_succ] at h
      have h0 : n / 10 ≠ 0 := by omega
      rw [if_neg h', ih hq, if_neg h0, if_neg (by omega), Nat.digits_def' (by norm_num) (by omega : 0 < n)]
      simp

theorem digitsValue_eq (ds : List Nat) : digitsValue ds = Nat.ofDigits 10 ds.reverse := by
  have aux : ∀ (ds : List Nat) (n : Nat), ds.foldl (fun n d => n * 10 + d) n =
      n * 10 ^ ds.length + Nat.ofDigits 10 ds.reverse := by
    intro ds
    induction ds with
    | nil => simp
    | cons d ds ih =>
      intro n
      simp only [List.foldl_cons, ih, List.reverse_cons, Nat.ofDigits_append, List.length_cons, List.length_reverse,
        Nat.ofDigits_singleton]
      ring
  exact (aux ds 0).trans (by simp)

theorem dec_eq {n : Nat} (h : n < 10 ^ 20) :
    dec n = (if n = 0 then [0] else (Nat.digits 10 n).reverse).map decDigit := decimal_eq h

theorem takeNumber_dec {n : Nat} (h : n < 10 ^ 20) {r : List Byte} (hr : NoDigit r) :
    takeNumber (dec n ++ r) = some (n, r) := by
  rw [dec_eq h]
  have hd : ∀ d ∈ (if n = 0 then [0] else (Nat.digits 10 n).reverse), d < 10 := by
    split
    · simp
    · intro d hd
      exact Nat.digits_lt_base (by norm_num) (List.mem_reverse.1 hd)
  unfold takeNumber
  rw [takeDigits_append hd hr]
  by_cases h0 : n = 0
  · simp [h0]
  · simp only [if_neg h0]
    have hv : digitsValue (Nat.digits 10 n).reverse = n := by
      rw [digitsValue_eq, List.reverse_reverse, Nat.ofDigits_digits]
    have hlast : (Nat.digits 10 n).reverse.head? ≠ some 0 := by
      rw [List.head?_reverse, List.getLast?_eq_some_getLast (Nat.digits_ne_nil_iff_ne_zero.2 h0)]
      simpa using Nat.getLast_digit_ne_zero 10 h0
    clear hd
    revert hlast hv
    generalize (Nat.digits 10 n).reverse = ds
    intro hv hlast
    match ds with
    | [] => exact absurd hv.symm h0
    | [d] => simpa [digitsValue] using hv
    | 0 :: d :: ds => simp at hlast
    | (e + 1) :: d :: ds => simp [hv]

theorem takeNumber_eq_some {t r : List Byte} {n : Nat} (h : takeNumber t = some (n, r)) (hn : n < 10 ^ 20) :
    t = dec n ++ r := by
  unfold takeNumber at h
  rw [dec_eq hn]
  split at h
  · cases h
  · rename_i d r' hd
    obtain ⟨rfl, rfl⟩ := Prod.mk.inj (Option.some.inj h)
    obtain ⟨rfl, hlt⟩ := takeDigits_eq hd
    split
    · subst_vars; rfl
    · rw [Nat.digits_of_lt 10 _ ‹_› (hlt _ (by simp))]; rfl
  · cases h
  · rename_i ds r' hnil hone hzero hd
    obtain ⟨hv, rfl⟩ := Prod.mk.inj (Option.some.inj h)
    obtain ⟨rfl, hlt⟩ := takeDigits_eq hd
    match ds with
    | [] => exact (hnil rfl).elim
    | [d] => exact (hone d rfl).elim
    | 0 :: d :: ds => exact (hzero d ds rfl).elim
    | (e + 1) :: d :: ds =>
      rw [digitsValue_eq] at hv
      have hdig : Nat.digits 10 n = ((e + 1) :: d :: ds).reverse := by
        rw [← hv]
        refine Nat.digits_ofDigits 10 (by norm_num) _ (fun x hx => hlt x (List.mem_reverse.1 hx)) (fun _ => ?_)
        simp
      have h0 : n ≠ 0 := by
        intro h0
        rw [h0] at hdig
        simp at hdig
      rw [if_neg h0, hdig, List.reverse_reverse]

theorem dec_length {n : Nat} (fuel : Nat) (h : n < 10 ^ fuel) : (decimal fuel n).length = decimalLength fuel n := by
  induction fuel generalizing n with
  | zero => rfl
  | succ fuel ih =>
    simp only [decimal, decimalLength]
    split
    · rfl
    · rw [List.length_append, ih (by rw [Nat.div_lt_iff_lt_mul (by norm_num)]; rwa [pow_succ] at h)]
      rfl

theorem decimalLength_mono (fuel : Nat) {a b : Nat} (h : a ≤ b) : decimalLength fuel a ≤ decimalLength fuel b := by
  induction fuel generalizing a b with
  | zero => rfl
  | succ fuel ih =>
    simp only [decimalLength]
    have := ih (Nat.div_le_div_right (c := 10) h)
    split <;> split <;> omega

theorem serlenOf_mono {m m' k k' c c' : Nat} (hm : m ≤ m') (hk : k ≤ k') (hc : c ≤ c') :
    serlenOf m k c ≤ serlenOf m' k' c' := by
  have h1 := decimalLength_mono 20 hm
  have h2 := decimalLength_mono 20 hk
  have h3 := decimalLength_mono 20 hc
  unfold serlenOf
  omega

theorem hex_length (v : List Byte) : (hex v).length = 2 * v.length := by
  induction v with
  | nil => rfl
  | cons a v ih => simp only [hex, List.length_cons, ih]; omega

theorem unhexDigit_hexDigit : ∀ d < 16, unhexDigit (hexDigit d) = some d := by decide +kernel

theorem hexDigit_unhexDigit {c : Byte} {d : Nat} (h : unhexDigit c = some d) : d < 16 ∧ hexDigit d = c := by
  have all : ∀ n : Fin 256, ∀ w ∈ unhexDigit (BitVec.ofFin n), w < 16 ∧ hexDigit w = BitVec.ofFin n := by
    decide +kernel
  exact all c.toFin d h

theorem takeHex_hex (v : List Byte) {q : Byte} (hq : unhexDigit q = none) (r : List Byte) :
    takeHex (hex v ++ q :: r) = (v, q :: r) := by
  induction v with
  | nil =>
    cases r with
    | nil => rfl
    | cons b r => simp [hex, takeHex, hq]
  | cons a v ih =>
    have ha := a.isLt
    simp only [hex, List.cons_append, takeHex, unhexDigit_hexDigit _ (show a.toNat / 16 < 16 by omega),
      unhexDigit_hexDigit _ (show a.toNat % 16 < 16 by omega), ih]
    rw [ofNat_toNat_byte (a := a) (by omega)]

theorem takeHex_eq : ∀ (t : List Byte), t = hex (takeHex t).1 ++ (takeHex t).2
  | [] => rfl
  | [_] => rfl
  | a :: b :: r => by
    simp only [takeHex]
    split
    · rename_i x y hx hy
      obtain ⟨lx, rfl⟩ := hexDigit_unhexDigit hx
      obtain ⟨ly, rfl⟩ := hexDigit_unhexDigit hy
      have h1 : (BitVec.ofNat 8 (x * 16 + y)).toNat / 16 = x := by simp; omega
      have h2 : (BitVec.ofNat 8 (x * 16 + y)).toNat % 16 = y := by simp; omega
      simp only [hex, h1, h2, List.cons_append, ← takeHex_eq r]
    · rfl

/-! ### The structured text and the serialized form -/

/-- A literal begins with no digit. -/
theorem noDigit_cons {c : Byte} (h : undigit c = none) (r : List Byte) : NoDigit (c :: r) := by
  intro d hd
  obtain rfl : c = d := by simpa using hd
  exact h

theorem noDigit_litK (r : List Byte) : NoDigit (litK ++ r) := noDigit_cons (by decide) _

theorem noDigit_litData (r : List Byte) : NoDigit (litData ++ r) := noDigit_cons (by decide) _

theorem noDigit_litEnd : NoDigit litEnd := noDigit_cons (by decide) _

/-- The layout matcher reads back the text of every filter whose numbers have at most 20 digits. -/
theorem parseText_textOf {f : Filter} (hm : f.m < 10 ^ 20) (hk : f.k < 10 ^ 20) (hc : f.count < 10 ^ 20) :
    parseText (textOf f) = some f := by
  have h1 : takeLit litM (textOf f) = some (dec f.m ++ (litK ++ (dec f.k ++ (litData ++ (hex f.slots ++
      (litCount ++ (dec f.count ++ litEnd))))))) := by
    rw [takeLit_eq_some]
    simp [textOf]
  unfold parseText
  rw [h1]
  simp only [Option.bind_eq_bind, Option.bind_some]
  rw [takeNumber_dec hm (noDigit_litK _)]
  simp only [Option.bind_some]
  rw [takeLit_eq_some.2 rfl]
  simp only [Option.bind_some]
  rw [takeNumber_dec hk (noDigit_litData _)]
  simp only [Option.bind_some]
  rw [takeLit_eq_some.2 rfl]
  simp only [Option.bind_some]
  have h2 : takeHex (hex f.slots ++ (litCount ++ (dec f.count ++ litEnd))) =
      (f.slots, litCount ++ (dec f.count ++ litEnd)) := takeHex_hex f.slots (by decide) _
  rw [h2]
  simp only
  rw [takeLit_eq_some.2 rfl]
  simp only [Option.bind_some]
  rw [takeNumber_dec hc noDigit_litEnd]
  simp only [Option.bind_some]
  rw [show takeLit litEnd litEnd = some [] from rfl]
  simp

/-- A text the layout matcher takes is the text of the filter it reads, if the numbers have at most 20 digits. -/
theorem parseText_eq_some {j : List Byte} {f : Filter} (h : parseText j = some f) (hm : f.m < 10 ^ 20)
    (hk : f.k < 10 ^ 20) (hc : f.count < 10 ^ 20) : j = textOf f := by
  unfold parseText at h
  simp only [Option.bind_eq_bind, Option.bind_eq_some_iff] at h
  obtain ⟨r1, h1, ⟨m, r2⟩, h2, r3, h3, ⟨k, r4⟩, h4, r5, h5, h⟩ := h
  obtain ⟨r6, h6, ⟨c, r7⟩, h7, r8, h8, h⟩ := h
  simp only at h2 h3 h4 h5 h6 h7 h8 h
  split at h
  · subst_vars
    obtain rfl := Option.some.inj h
    simp only at hm hk hc
    rw [takeLit_eq_some] at h1 h3 h5 h6 h8
    have h2 := takeNumber_eq_some h2 hm
    have h4 := takeNumber_eq_some h4 hk
    have h7 := takeNumber_eq_some h7 hc
    have h9 := takeHex_eq r5
    simp only [textOf]
    rw [h1, h2, h3, h4, h5]
    conv_lhs => rw [h9, h6, h7, h8]
    simp
  · cases h

theorem textOf_ne_nil (f : Filter) : textOf f ≠ [] := by simp [textOf, litM]

/-- The serialized form of a filter decodes to it exactly when the filter meets the limits (44_codec.md R146). -/
theorem decodeText_eq_some {p : Config} {var : Variant} {t : List Byte} {f : Filter} :
    decodeText p var t = some f ↔ t = serialize f ∧ f.Fits p var := by
  have big : (2 : Nat) ^ 64 < 10 ^ 20 := by norm_num
  simp only [decodeText, Option.bind_eq_bind, Option.bind_eq_some_iff]
  constructor
  · rintro ⟨j, hj, g, hg, h⟩
    split at h
    · rename_i hfit
      obtain rfl := Option.some.inj h
      refine ⟨?_, hfit⟩
      rw [serialize, ← parseText_eq_some hg (by omega) (by omega) (by omega)]
      exact (base64_unbase64 hj).2.symm
    · cases h
  · rintro ⟨rfl, hfit⟩
    refine ⟨textOf f, unbase64_base64 (textOf_ne_nil f), f, parseText_textOf (by omega) (by omega) (by omega), ?_⟩
    rw [if_pos hfit]

theorem textOf_length {f : Filter} (hs : f.slots.length = f.m) :
    (textOf f).length = 30 + (dec f.m).length + (dec f.k).length + 2 * f.m + (dec f.count).length := by
  simp only [textOf, List.length_append, hex_length, hs, litM, litK, litData, litCount, litEnd, List.length_cons,
    List.length_nil]
  omega

/-- The length of a serialized form (44_codec.md R145). -/
theorem serialize_length {f : Filter} (hs : f.slots.length = f.m) (hm : f.m < 2 ^ 64) (hk : f.k < 2 ^ 64)
    (hc : f.count < 2 ^ 64) : (serialize f).length = serlenOf f.m f.k f.count := by
  have big : (2 : Nat) ^ 64 < 10 ^ 20 := by norm_num
  rw [serialize, base64_length, textOf_length hs, dec, dec, dec, dec_length 20 (by omega), dec_length 20 (by omega),
    dec_length 20 (by omega), serlenOf]

end Sys2Proof.Laws
end

