-- ==== Sys2Proof/Laws/Decode.lean ====
section
/-! SUPPORT. What decoding gives: the one row that a word matches, and the bits of the word that the row leaves free
(spec/30_encoding.md R64, R65). -/

namespace Sys2Proof.Laws

/-- The bits of a word outside a mask and inside it make up the word. -/
theorem and_or_and_not (w mask : Word) : (w &&& mask) ||| (w &&& ~~~mask) = w := by
  apply BitVec.eq_of_getLsbD_eq
  intro i hi
  simp only [BitVec.getLsbD_or, BitVec.getLsbD_and, BitVec.getLsbD_not, hi, decide_true, Bool.true_and]
  cases w.getLsbD i <;> cases mask.getLsbD i <;> rfl

/-- What a row with field `CA` leaves free. -/
theorem and_not_maskA (w : Word) : w &&& ~~~maskA = (w.extractLsb' 8 4).setWidth 64 <<< 8 := by
  apply BitVec.eq_of_getLsbD_eq
  intro i hi
  interval_cases i <;> simp [maskA]

/-- What a row with fields `CA` and `CB` leaves free. -/
theorem and_not_maskAB (w : Word) :
    w &&& ~~~maskAB = (w.extractLsb' 8 4).setWidth 64 <<< 8 ||| (w.extractLsb' 12 4).setWidth 64 <<< 12 := by
  apply BitVec.eq_of_getLsbD_eq
  intro i hi
  interval_cases i <;> simp [maskAB]

/-- What a row with fields `CA`, `VAR` and `OVF` leaves free. -/
theorem and_not_maskAVO (w : Word) :
    w &&& ~~~maskAVO = (w.extractLsb' 8 4).setWidth 64 <<< 8 ||| (w.extractLsb' 16 1).setWidth 64 <<< 16 |||
      (w.extractLsb' 17 1).setWidth 64 <<< 17 := by
  apply BitVec.eq_of_getLsbD_eq
  intro i hi
  interval_cases i <;> simp [maskAVO]

theorem mem_allOps (o : Op) : o ∈ allOps := by cases o <;> decide

theorem code_injective {o p : Op} (h : BitVec.ofNat 64 o.code = (BitVec.ofNat 64 p.code : Word)) : o = p := by
  revert h
  cases o <;> cases p <;> decide

/-- A word that matches a row has the row's opcode byte. -/
theorem opcode_of_match {w : Word} {o : Op} (h : w &&& o.mask = BitVec.ofNat 64 o.code) :
    w &&& 0xFF = BitVec.ofNat 64 o.code := by
  have h1 : o.mask &&& 0xFF = 0xFF := by cases o <;> decide
  have h2 : (BitVec.ofNat 64 o.code : Word) &&& 0xFF = BitVec.ofNat 64 o.code := by cases o <;> decide
  rw [← h2, ← h, BitVec.and_assoc, h1]

/-- Decoding gives a command exactly when some row matches, and then that row's command: no two rows overlap
(30_encoding.md R64, R65). -/
theorem decode_eq_ok {w : Word} {i : Instr} :
    decode w = .ok i ↔ ∃ o : Op, w &&& o.mask = BitVec.ofNat 64 o.code ∧ i = o.command w := by
  unfold decode opcodeTable
  rw [List.find?_map]
  constructor
  · intro h
    split at h
    · rename_i r hr
      obtain ⟨o, ho, rfl⟩ := Option.map_eq_some_iff.1 hr
      exact ⟨o, by simpa using List.find?_some ho, (Except.ok.inj h).symm⟩
    · cases h
  · rintro ⟨o, ho, rfl⟩
    split
    · rename_i r hr
      obtain ⟨p, hp, rfl⟩ := Option.map_eq_some_iff.1 hr
      have hp : w &&& p.mask = BitVec.ofNat 64 p.code := by simpa using List.find?_some hp
      rw [code_injective ((opcode_of_match hp).symm.trans (opcode_of_match ho))]
    · rename_i hr
      rw [Option.map_eq_none_iff] at hr
      exact absurd ho (by simpa using List.find?_eq_none.1 hr o (mem_allOps o))

/-- A decoded word is made up of the row's pattern and the free bits of its mask. -/
theorem word_of_match {w : Word} {o : Op} (h : w &&& o.mask = BitVec.ofNat 64 o.code) :
    w = BitVec.ofNat 64 o.code ||| (w &&& ~~~o.mask) := by
  rw [← h, and_or_and_not]

end Sys2Proof.Laws
end

