-- ==== Sys2Proof/Laws/Frame.lean ====
section
/-! SUPPORT. What a successful command can change at all, said once for all seventeen: at most one context (with the draw
of a construction), `SERBUF` and `SERLEN` (`SER`), `IDXBUF` and `IDXCNT` (`SLOTS`), and `CTROVF` (a mutation). -/

namespace Sys2Proof.Laws

open Sys2Proof.Machine

/-- The shapes of a successful command's state. -/
theorem commandOf_cases {i : Instr} {s u : State} {v : Word} (h : commandOf i s = .ok (u, v)) :
    u = s ∨
    (∃ ca, i = .destroy ca ∧ ca < s.cfg.nctx ∧ u = s.setCtx ca { s.ctx ca with valid := false }) ∨
    (∃ c var ovf m k n new, c < s.cfg.nctx ∧ u = s.construct c var ovf m k n new) ∨
    (∃ ca f L, (i = .add ca ∨ i = .testadd ca ∨ i = .testrem ca) ∧ ca < s.cfg.nctx ∧ (s.ctx ca).valid = true ∧
      slotsForKey s.cfg s.key (s.ctx ca).k.toNat (s.ctx ca).m.toNat = some L ∧
      (f = (s.ctx ca).addStep ∨ (f = decSlot (s.ctx ca).ovf ∧ (s.ctx ca).var = .cbf)) ∧ u = mutate s ca f L) ∨
    (∃ ca L, i = .slots ca ∧ ca < s.cfg.nctx ∧ (s.ctx ca).valid = true ∧
      slotsForKey s.cfg s.key (s.ctx ca).k.toNat (s.ctx ca).m.toNat = some L ∧
      u = { s.setIdxEntries L with idxcnt := (s.ctx ca).k }) ∨
    (∃ ca, i = .ser ca ∧ ca < s.cfg.nctx ∧ (s.ctx ca).valid = true ∧
      (serialize (s.ctx ca).filter).length ≤ s.cfg.serMax ∧
      u = { s.setBytes serbufBase (serialize (s.ctx ca).filter) with
            serlen := BitVec.ofNat 64 (serialize (s.ctx ca).filter).length }) := by
  cases i with
  | config ca var ovf =>
    obtain ⟨hc, -, -, -, hu, -⟩ := configCmd_ok.1 h
    exact .inr (.inr (.inl ⟨ca, _, _, _, _, _, _, hc, hu⟩))
  | destroy ca =>
    obtain ⟨hc, hu, -⟩ := destroyCmd_ok.1 h
    exact .inr (.inl ⟨ca, rfl, hc, hu⟩)
  | getm ca => exact .inl (accessorCmd_ok.1 h).2.2.1
  | getk ca => exact .inl (accessorCmd_ok.1 h).2.2.1
  | getcount ca => exact .inl (accessorCmd_ok.1 h).2.2.1
  | getslot ca => exact .inl (getslotCmd_ok.1 h).2.2.2.1
  | getcfg ca => exact .inl (getcfgCmd_ok.1 h).2.1
  | slotidx ca =>
    obtain ⟨-, -, -, -, _, -, hu, -⟩ := slotidxCmd_ok.1 h
    exact .inl hu
  | slots ca =>
    obtain ⟨hc, hv, -, L, hL, hu, -⟩ := slotsCmd_ok.1 h
    exact .inr (.inr (.inr (.inr (.inl ⟨ca, L, rfl, hc, hv, hL, hu⟩))))
  | test ca =>
    obtain ⟨-, -, -, _, -, hu, -⟩ := testCmd_ok.1 h
    exact .inl hu
  | add ca =>
    obtain ⟨hc, hv, -, L, hL, hu, -⟩ := addCmd_ok.1 h
    exact .inr (.inr (.inr (.inl ⟨ca, _, L, .inl rfl, hc, hv, hL, .inl rfl, hu⟩)))
  | testadd ca =>
    obtain ⟨hc, hv, -, L, hL, hu, -⟩ := testaddCmd_ok.1 h
    exact .inr (.inr (.inr (.inl ⟨ca, _, L, .inr (.inl rfl), hc, hv, hL, .inl rfl, hu⟩)))
  | testrem ca =>
    obtain ⟨hc, hv, ⟨-, hu, -⟩ | ⟨hvar, -, L, hL, hu, -⟩⟩ := testremCmd_ok.1 h
    · exact .inl hu
    · by_cases hm : member (s.ctx ca).slots L = true
      · rw [if_pos hm] at hu
        exact .inr (.inr (.inr (.inl ⟨ca, _, L, .inr (.inr rfl), hc, hv, hL, .inr ⟨rfl, hvar⟩, hu⟩)))
      · rw [if_neg hm] at hu
        exact .inl hu
  | tobf ca cb =>
    obtain ⟨-, hc, -, -, hu, -⟩ := tobfCmd_ok.1 h
    exact .inr (.inr (.inl ⟨cb, _, _, _, _, _, _, hc, hu⟩))
  | ser ca =>
    obtain ⟨hc, hv, hl, hu, -⟩ := serCmd_ok.1 h
    exact .inr (.inr (.inr (.inr (.inr ⟨ca, rfl, hc, hv, hl, hu⟩))))
  | deser ca var ovf =>
    obtain ⟨hc, -, _, -, hu, -⟩ := deserCmd_ok.1 h
    exact .inr (.inr (.inl ⟨ca, _, _, _, _, _, _, hc, hu⟩))
  | equals ca cb =>
    obtain ⟨-, -, -, -, hu, -⟩ := equalsCmd_ok.1 h
    exact .inl hu

/-- The fields no command computes: a successful command leaves them all. -/
theorem commandOf_frame {i : Instr} {s u : State} {v : Word} (h : commandOf i s = .ok (u, v)) :
    u = { s with ctxs := u.ctxs, mem := u.mem, serlen := u.serlen, idxcnt := u.idxcnt, ctrovf := u.ctrovf
                 draws := u.draws } := by
  rcases commandOf_cases h with rfl | ⟨_, _, _, rfl⟩ | ⟨_, _, _, _, _, _, _, _, rfl⟩ | ⟨_, _, _, _, _, _, _, _, rfl⟩ | ⟨_, _, _, _, _, _, rfl⟩ |
    ⟨_, _, _, _, _, rfl⟩ <;> rfl

/-- The fields no meaning changes, whether its command succeeds or fails. -/
theorem exec_frame {i : Instr} {s t : State} (h : exec i s = .next t) :
    t = { s with ctxs := t.ctxs, mem := t.mem, serlen := t.serlen, idxcnt := t.idxcnt, ctrovf := t.ctrovf
                 draws := t.draws, result := t.result, err := t.err, done := true, pending := none } := by
  rcases exec_next_cases h with ⟨e, -, rfl⟩ | ⟨u, v, hc, rfl⟩
  · rfl
  · have hu := commandOf_frame hc
    rw [hu]
    rfl

end Sys2Proof.Laws
end

