-- ==== Sys2Proof/Laws/Params.lean ====
section
/-! SUPPORT. The constraints on the parameters (spec/00_scope.md R5), one by one. -/

namespace Sys2Proof.Laws

theorem nctx_pos (p : Config) : 0 < p.nctx := by have := p.ok.1; omega

theorem mMax_pos (p : Config) : 0 < p.mMax := p.ok.2.1.1

theorem mMax_lt (p : Config) : p.mMax < 2 ^ 63 := by have := p.ok.2.1; omega

theorem kMax_le (p : Config) : p.kMax ≤ 8192 := p.ok.2.2.2.1.2.1

theorem q_pos (p : Config) : 0 < p.q := p.ok.2.2.2.2.2.2.pos

theorem keyMax_le (p : Config) : p.keyMax ≤ 65536 := p.ok.2.2.2.2.1.2.2

theorem keyMax_mod (p : Config) : p.keyMax % 8 = 0 := p.ok.2.2.2.2.1.1

theorem serMax_le (p : Config) : p.serMax ≤ 2 ^ 24 := p.ok.2.2.2.2.2.1.2

theorem serMax_mod (p : Config) : p.serMax % 8 = 0 := p.ok.2.2.2.2.2.1.1

theorem serlen_max (p : Config) : serlenOf p.mMax p.kMax (2 ^ 64 - 1) ≤ p.serMax := p.ok.2.2.1

end Sys2Proof.Laws
end

