-- ==== Sys2Proof/Laws/HostPort.lean ====
section
/-! SUPPORT. The host port: what stands at each address, what one step of a scheduled access is, and the words of the
buffer windows (spec/20_memory.md R41 to R46). The bounds on the capacities are those of 00_scope.md R5. -/

namespace Sys2Proof.Laws
open Sys2Proof.Machine

/-! ### What stands where (20_memory.md R41) -/

theorem locate_reg (p : Config) {a : Nat} {r : Reg} (ha : a < 0x10000) (hr : regAt a = some r) :
    locate p a = .reg r := by
  simp [locate, ha, hr]

/-- Above the last register of the block there is none (10_state.md R13). -/
theorem regAt_none {a : Nat} (h : 0x68 < a) : regAt a = none := by
  unfold regAt
  split <;> first | omega | rfl

theorem locate_keybuf (p : Config) {a : Nat} (h1 : 0x10000 ≤ a) (h2 : a < 0x10000 + p.keyMax) : locate p a = .keybuf := by
  have := keyMax_le p
  have e : keybufBase = 0x10000 := rfl
  rw [locate, if_neg (by omega), if_pos (by omega), if_pos (by omega)]

theorem locate_idxbuf (p : Config) {a : Nat} (h1 : 0x20000 ≤ a) (h2 : a < 0x20000 + 8 * p.kMax) :
    locate p a = .idxbuf := by
  have := kMax_le p
  have e : idxbufBase = 0x20000 := rfl
  rw [locate, if_neg (by omega), if_neg (by omega), if_pos (by omega), if_pos (by omega)]

theorem locate_serbuf (p : Config) {a : Nat} (h1 : 0x1000000 ≤ a) (h2 : a < 0x1000000 + p.serMax) :
    locate p a = .serbuf := by
  have := serMax_le p
  have e : serbufBase = 0x1000000 := rfl
  rw [locate, if_neg (by omega), if_neg (by omega), if_neg (by omega), if_neg (by omega), if_pos (by omega),
    if_pos (by omega)]

/-- The addresses the maps mark RAZ/WI. -/
theorem locate_razwi (p : Config) {a : Nat}
    (h : (0x70 ≤ a ∧ a < 0x10000) ∨ (0x10000 + p.keyMax ≤ a ∧ a < 0x20000) ∨
      (0x20000 + 8 * p.kMax ≤ a ∧ a < 0x1000000) ∨ 0x1000000 + p.serMax ≤ a) : locate p a = .razwi := by
  have := keyMax_le p
  have := kMax_le p
  have := serMax_le p
  have e1 : keybufBase = 0x10000 := rfl
  have e2 : idxbufBase = 0x20000 := rfl
  have e3 : serbufBase = 0x1000000 := rfl
  unfold locate
  repeat' split
  all_goals first | rfl | (exfalso; omega) | skip
  rename_i r hr
  rw [regAt_none (by omega)] at hr
  cases hr

/-! ### One step of a scheduled access -/

theorem step_read {s : State} {a : PortAddr} {rest : List Event} (h : s.schedule = .read a 8 :: rest)
    (ha : a.toNat % 8 = 0) : step s = .next (hostRead a.toNat { s with schedule := rest }) := by
  simp [step, nextMove, h, eventTurn, accessOk, ha]

theorem step_write {s : State} {a : PortAddr} {v : Word} {rest : List Event} (h : s.schedule = .write a 8 v :: rest)
    (ha : a.toNat % 8 = 0) : step s = .next (hostWrite a.toNat v { s with schedule := rest }) := by
  simp [step, nextMove, h, eventTurn, accessOk, ha]

theorem step_reset {s : State} {rest : List Event} (h : s.schedule = .reset :: rest) :
    step s = .next (hostReset { s with schedule := rest }) := by
  simp [step, nextMove, h, eventTurn]

/-- A read of what is no command output, or of anything while idle, returns the value that stands there. -/
theorem hostRead_value {s : State} {a : Nat} (h : (s.busy && (locate s.cfg a).isOutput) = false) :
    hostRead a s = { s with rdata := portValue s a } := by
  simp [hostRead, h]

/-- A busy read of a command output takes the next draw (70_reset_and_hazards.md R204). -/
theorem hostRead_draw {s : State} {a : Nat} (hb : s.busy = true) (h : (locate s.cfg a).isOutput = true) :
    hostRead a s = { s with rdata := Config.busyRead s.draws, draws := s.draws + 1 } := by
  simp [hostRead, hb, h]

theorem inputWrite_busy {s : State} (t : State) (h : s.busy = true) : inputWrite s t = { s with ovr := true } := by
  simp [inputWrite, h]

theorem inputWrite_idle {s : State} (t : State) (h : s.busy = false) : inputWrite s t = t := by
  simp [inputWrite, h]

/-- A byte of a little-endian value. -/
theorem leValue_lt (l : List Byte) : leValue l < 256 ^ l.length := by
  induction l with
  | nil => simp [leValue]
  | cons b l ih =>
    have := b.isLt
    simp only [leValue, List.length_cons, pow_succ]
    omega

theorem leValue_byte (l : List Byte) (i : Nat) (h : i < l.length) : leValue l / 256 ^ i % 256 = l[i].toNat := by
  induction l generalizing i with
  | nil => simp at h
  | cons b l ih =>
    have := b.isLt
    cases i with
    | zero => simp [leValue]; omega
    | succ i =>
      rw [pow_succ', ← Nat.div_div_eq_div_mul]
      have : leValue (b :: l) / 256 = leValue l := by simp only [leValue]; omega
      rw [this, ih i (by simpa using h)]
      simp

/-- Byte `i` of a word of a buffer is the byte at its address (20_memory.md R42). -/
theorem wordAt_byte (s : State) (a i : Nat) (h : i < 8) : (s.wordAt a).extractLsb' (8 * i) 8 = s.byteAt (a + i) := by
  apply BitVec.eq_of_toNat_eq
  have h1 := leValue_byte (s.bytesAt a 8) i (by simpa using h)
  have h2 := leValue_lt (s.bytesAt a 8)
  rw [getElem_bytesAt] at h1
  rw [bytesAt_length] at h2
  have h3 : (s.wordAt a).toNat = leValue (s.bytesAt a 8) := by
    rw [State.wordAt, BitVec.toNat_ofNat, Nat.mod_eq_of_lt]
    norm_num at h2 ⊢
    exact h2
  have h4 : (2 : Nat) ^ (8 * i) = 256 ^ i := by rw [pow_mul]; norm_num
  rw [← h1, BitVec.extractLsb'_toNat, h3, Nat.shiftRight_eq_div_pow, h4]

/-- A word just written to a buffer reads back (20_memory.md R42). -/
theorem wordAt_setBytes (s : State) (a : Nat) (v : Word) : (s.setBytes a (wordBytes v)).wordAt a = v := by
  have := bytesAt_setBytes s a (wordBytes v)
  rw [wordBytes_length] at this
  rw [State.wordAt, this, leValue_wordBytes]
  exact BitVec.ofNat_toNat ..

/-- A word depends on the memory and the reset number only. -/
theorem wordAt_of_mem {s t : State} (hm : t.mem = s.mem) (hr : t.resets = s.resets) (a : Nat) :
    t.wordAt a = s.wordAt a := by
  rw [State.wordAt, State.wordAt, bytesAt_of_mem hm hr]

end Sys2Proof.Laws
end

