-- ==== Sys2Proof/Laws/Invariant.lean ====
section
/-! SUPPORT. What the invariant gives, in the form proofs use it, and how each kind of
state write keeps the invariant's parts. -/

namespace Sys2Proof.Laws

open Sys2Proof.Machine Sys2Proof.Safety

/-! ### Contexts of a state that meets the invariant -/

theorem ctx_lt {s : State} (h : EngineInv s) {c : Nat} (hc : c < s.cfg.nctx) : c < s.ctxs.length := h.ctxCount ▸ hc

theorem inv_ctx {s : State} (h : EngineInv s) {c : Nat} (hc : c < s.cfg.nctx) : CtxOk s.cfg (s.ctx c) :=
  h.ctxsOk _ (ctx_mem (ctx_lt h hc))

/-- The live slots of a context are the first `m`. -/
theorem live_length {p : Config} {x : Ctx} (h : CtxOk p x) (hv : x.valid = true) : x.live.length = x.m.toNat := by
  have := (h.2 hv).2.1
  simp only [Ctx.live, List.length_take, h.1]
  omega

theorem getD_live {x : Ctx} {j : Nat} (h : j < x.m.toNat) : x.live.getD j 0 = x.slots.getD j 0 := by
  simp [Ctx.live, List.getD_eq_getElem?_getD, h]

/-- A touched slot is one of the filter's slots. -/
theorem touched_lt {s : State} (h : EngineInv s) {c : Nat} (hc : c < s.cfg.nctx) (hv : (s.ctx c).valid = true) {L : List Nat}
    (hL : slotsForKey s.cfg s.key (s.ctx c).k.toNat (s.ctx c).m.toNat = some L) :
    ∀ j ∈ L, j < (s.ctx c).m.toNat ∧ j < (s.ctx c).slots.length := by
  intro j hj
  obtain ⟨h1, h2⟩ := inv_ctx h hc
  have h3 := h2 hv
  have := slotsForKey_lt (by omega) hL j hj
  omega

@[simp] theorem spareSlots_length (s : State) (m : Nat) : (s.spareSlots m).length = s.cfg.mMax - m := by
  simp [State.spareSlots]

/-- The filter of a context whose slot array begins with `new` is `new`, when `new` has `m` slots. -/
theorem live_append {x : Ctx} {new spare : List Byte} (hs : x.slots = new ++ spare) (h : new.length = x.m.toNat) :
    x.live = new := by
  simp [Ctx.live, hs, ← h]

/-- A construction in range keeps every context's invariant. -/
theorem construct_ctxsOk {s : State} (h : ∀ x ∈ s.ctxs, CtxOk s.cfg x) {c : Nat} {var : Variant} {ovf : Policy}
    {m k n : Word} {new : List Byte} (hnew : new.length = m.toNat) (hm : 1 ≤ m.toNat ∧ m.toNat ≤ s.cfg.mMax)
    (hk : k.toNat ≤ s.cfg.kMax) (hb : var = .bf → ∀ v ∈ new, v = 0 ∨ v = 1) :
    ∀ x ∈ (s.construct c var ovf m k n new).ctxs, CtxOk s.cfg x := by
  intro x hx
  rcases List.mem_or_eq_of_mem_set hx with hx | rfl
  · exact h x hx
  · refine ⟨by simp; omega, fun _ => ⟨hm.1, hm.2, hk, fun hv => ?_⟩⟩
    rw [live_append rfl hnew]
    exact hb hv

theorem forall_mem_set {p : Config} {l : List Ctx} {c : Nat} {x : Ctx} (h : ∀ y ∈ l, CtxOk p y) (hx : CtxOk p x) :
    ∀ y ∈ l.set c x, CtxOk p y := by
  intro y hy
  rcases List.mem_or_eq_of_mem_set hy with hy | rfl
  · exact h y hy
  · exact hx

/-- A visit that keeps a BF's slots 0 or 1 keeps the context's invariant. -/
theorem touchedCtx_ok {p : Config} {x : Ctx} (f : Byte → Byte × Bool) (L : List Nat) (h : CtxOk p x)
    (hf : x.var = .bf → ∀ v, (f v).1 = 1) :
    CtxOk p { x with slots := (touchEach f L x.slots).1, count := x.count + 1 } := by
  refine ⟨by simpa using h.1, fun hv => ?_⟩
  obtain ⟨h1, h2, h3, h4⟩ := h.2 hv
  refine ⟨h1, h2, h3, fun hb v hvm => ?_⟩
  have hvm : v ∈ ((touchEach f L x.slots).1).take x.m.toNat := hvm
  obtain ⟨j, hj, rfl⟩ := List.mem_iff_getElem.1 hvm
  have hj' : j < x.m.toNat ∧ j < x.slots.length := by simpa using hj
  rw [List.getElem_take, getElem_touchEach f L x.slots j hj'.2]
  cases hn : L.count j with
  | zero =>
    refine h4 hb _ ?_
    rw [Function.iterate_zero_apply]
    exact List.mem_iff_getElem.2 ⟨j, by simp [Ctx.live, hj'], by simp [Ctx.live]⟩
  | succ n =>
    rw [Function.iterate_succ_apply']
    exact .inr (hf hb _)

/-- A projected slot is 0 or 1 (43_conversion.md R132). -/
theorem projectSlot_cases (v : Byte) : projectSlot v = 0 ∨ projectSlot v = 1 := by
  unfold projectSlot
  split <;> simp

/-- A successful command keeps every context's invariant. -/
theorem commandOf_ctxsOk {i : Instr} {s u : State} {v : Word} (hs : EngineInv s) (h : commandOf i s = .ok (u, v)) :
    ∀ x ∈ u.ctxs, CtxOk s.cfg x := by
  have visit : ∀ ca f L, ca < s.cfg.nctx → (f = (s.ctx ca).addStep ∨ (f = decSlot (s.ctx ca).ovf ∧ (s.ctx ca).var = .cbf)) →
      ∀ x ∈ (mutate s ca f L).ctxs, CtxOk s.cfg x := by
    intro ca f L hc hf
    refine forall_mem_set hs.ctxsOk (touchedCtx_ok f L (inv_ctx hs hc) fun hb v => ?_)
    rcases hf with rfl | ⟨_, h2⟩
    · simp [Ctx.addStep, hb, setSlot]
    · rw [hb] at h2; cases h2
  cases i with
  | config ca var ovf =>
    obtain ⟨hc, h0, hm, hk, rfl, -⟩ := configCmd_ok.1 h
    refine construct_ctxsOk hs.ctxsOk (by simp) ⟨?_, hm⟩ hk ?_
    · rw [Nat.one_le_iff_ne_zero]; intro hc; exact h0 (BitVec.eq_of_toNat_eq hc)
    · intro _ v hv; exact .inl (List.eq_of_mem_replicate hv)
  | destroy ca =>
    obtain ⟨hc, rfl, -⟩ := destroyCmd_ok.1 h
    exact forall_mem_set hs.ctxsOk ⟨(inv_ctx hs hc).1, by simp⟩
  | getm ca => obtain rfl := (accessorCmd_ok.1 h).2.2.1; exact hs.ctxsOk
  | getk ca => obtain rfl := (accessorCmd_ok.1 h).2.2.1; exact hs.ctxsOk
  | getcount ca => obtain rfl := (accessorCmd_ok.1 h).2.2.1; exact hs.ctxsOk
  | getslot ca => obtain rfl := (getslotCmd_ok.1 h).2.2.2.1; exact hs.ctxsOk
  | getcfg ca => obtain rfl := (getcfgCmd_ok.1 h).2.1; exact hs.ctxsOk
  | slotidx ca => obtain ⟨-, -, -, -, _, -, rfl, -⟩ := slotidxCmd_ok.1 h; exact hs.ctxsOk
  | slots ca => obtain ⟨-, -, -, L, -, rfl, -⟩ := slotsCmd_ok.1 h; exact hs.ctxsOk
  | test ca => obtain ⟨-, -, -, _, -, rfl, -⟩ := testCmd_ok.1 h; exact hs.ctxsOk
  | add ca => obtain ⟨hc, -, -, L, -, rfl, -⟩ := addCmd_ok.1 h; exact visit _ _ _ hc (.inl rfl)
  | testadd ca => obtain ⟨hc, -, -, L, -, rfl, -⟩ := testaddCmd_ok.1 h; exact visit _ _ _ hc (.inl rfl)
  | testrem ca =>
    obtain ⟨hc, -, ⟨-, rfl, -⟩ | ⟨hv, -, L, -, rfl, -⟩⟩ := testremCmd_ok.1 h
    · exact hs.ctxsOk
    · split
      · exact visit _ _ _ hc (.inr ⟨rfl, hv⟩)
      · exact hs.ctxsOk
  | tobf ca cb =>
    obtain ⟨hc, hcb, hv, -, rfl, -⟩ := tobfCmd_ok.1 h
    obtain ⟨h1, h2⟩ := inv_ctx hs hc
    have := h2 hv
    refine construct_ctxsOk hs.ctxsOk ?_ ⟨this.1, this.2.1⟩ this.2.2.1 ?_
    · rw [List.length_map, live_length (inv_ctx hs hc) hv]
    · intro _ v hv
      obtain ⟨w, _, rfl⟩ := List.mem_map.1 hv
      exact projectSlot_cases w
  | ser ca => obtain ⟨-, -, -, rfl, -⟩ := serCmd_ok.1 h; exact hs.ctxsOk
  | deser ca var ovf =>
    obtain ⟨hc, -, f, hf, rfl, -⟩ := deserCmd_ok.1 h
    obtain ⟨⟨a1, a2, a3⟩, a4, ⟨a5, a6, a7⟩, a8⟩ := (decodeText_eq_some.1 hf).2
    have e1 : (BitVec.ofNat 64 f.m).toNat = f.m := by rw [BitVec.toNat_ofNat, Nat.mod_eq_of_lt a1]
    have e2 : (BitVec.ofNat 64 f.k).toNat = f.k := by rw [BitVec.toNat_ofNat, Nat.mod_eq_of_lt a2]
    refine construct_ctxsOk hs.ctxsOk (by omega) (by omega) (by omega) ?_
    intro hb v hv
    have := a8 hb v hv
    have : v.toNat = 0 ∨ v.toNat = 1 := by omega
    exact this.imp (fun h => BitVec.eq_of_toNat_eq h) (fun h => BitVec.eq_of_toNat_eq h)
  | equals ca cb => obtain ⟨-, -, -, -, rfl, -⟩ := equalsCmd_ok.1 h; exact hs.ctxsOk

/-! ### The byte memory -/

theorem setBytes_inBuffers {p : Config} {m : Memory} {a : Nat} {vs : List Byte} (h : ∀ c ∈ m, InBuffer p c.1)
    (hr : ∀ b, a ≤ b → b < a + vs.length → InBuffer p b) : ∀ c ∈ memSetRange m a vs, InBuffer p c.1 := by
  intro c hc
  rcases mem_memSetRange hc with ⟨h1, h2⟩ | hc
  · exact hr _ h1 h2
  · exact h c hc

/-- The bytes of a list of entries, eight for each. -/
theorem entryBytes_length (L : List Nat) : (L.flatMap fun j => wordBytes (BitVec.ofNat 64 j)).length = 8 * L.length := by
  induction L with
  | nil => rfl
  | cons j L ih =>
    rw [List.flatMap_cons, List.length_append, ih, wordBytes_length, List.length_cons]
    omega

end Sys2Proof.Laws
end

