-- ==== Sys2Proof/Laws/PerInstr.lean ====
section
/-! SUPPORT. Statements made for every command, one lemma per constructor. `ReservedBitsClear`: the word of a well-formed
command has its opcode in bits 7:0 and nothing above bit 17 (spec/30_encoding.md R62). -/

namespace Sys2Proof.Laws.ReservedBitsClear

/-- The operation of a command. -/
def opOf : Instr → Op
  | .config _ _ _ => .config
  | .destroy _ => .destroy
  | .getm _ => .getm
  | .getk _ => .getk
  | .getcount _ => .getcount
  | .getslot _ => .getslot
  | .getcfg _ => .getcfg
  | .slotidx _ => .slotidx
  | .slots _ => .slots
  | .test _ => .test
  | .add _ => .add
  | .testadd _ => .testadd
  | .testrem _ => .testrem
  | .tobf _ _ => .tobf
  | .ser _ => .ser
  | .deser _ _ _ => .deser
  | .equals _ _ => .equals

/-- The encoded word holds the opcode in its low byte and only 0 above bit 17. -/
def Statement (i : Instr) : Prop :=
  i.wellFormed = true → (encode i).toNat % 256 = (opOf i).code ∧ (encode i).toNat / 2 ^ 18 = 0

/-- The word of a command, from its fields. -/
theorem packFields_toNat {o : Op} {ca cb var ovf : Nat} (ha : ca < 16) (hb : cb < 16) (hv : var < 2) (ho : ovf < 2) :
    (packFields o ca cb var ovf).toNat % 256 = o.code ∧ (packFields o ca cb var ovf).toNat / 2 ^ 18 = 0 := by
  have hc : o.code < 256 := by cases o <;> decide
  rw [packFields, BitVec.toNat_ofNat]
  omega

theorem variant_bit_lt (v : Variant) : v.bit < 2 := by cases v <;> decide

theorem policy_bit_lt (o : Policy) : o.bit < 2 := by cases o <;> decide

theorem lt_of_ctxIndexOk {c : Nat} (h : ctxIndexOk c = true) : c < 16 := by simpa [ctxIndexOk] using h

theorem config (ca : Nat) (var : Variant) (ovf : Policy) : Statement (.config ca var ovf) := fun h =>
  packFields_toNat (lt_of_ctxIndexOk h) (by decide) (variant_bit_lt var) (policy_bit_lt ovf)

theorem destroy (ca : Nat) : Statement (.destroy ca) := fun h =>
  packFields_toNat (lt_of_ctxIndexOk h) (by decide) (by decide) (by decide)

theorem getm (ca : Nat) : Statement (.getm ca) := fun h =>
  packFields_toNat (lt_of_ctxIndexOk h) (by decide) (by decide) (by decide)

theorem getk (ca : Nat) : Statement (.getk ca) := fun h =>
  packFields_toNat (lt_of_ctxIndexOk h) (by decide) (by decide) (by decide)

theorem getcount (ca : Nat) : Statement (.getcount ca) := fun h =>
  packFields_toNat (lt_of_ctxIndexOk h) (by decide) (by decide) (by decide)

theorem getslot (ca : Nat) : Statement (.getslot ca) := fun h =>
  packFields_toNat (lt_of_ctxIndexOk h) (by decide) (by decide) (by decide)

theorem getcfg (ca : Nat) : Statement (.getcfg ca) := fun h =>
  packFields_toNat (lt_of_ctxIndexOk h) (by decide) (by decide) (by decide)

theorem slotidx (ca : Nat) : Statement (.slotidx ca) := fun h =>
  packFields_toNat (lt_of_ctxIndexOk h) (by decide) (by decide) (by decide)

theorem slots (ca : Nat) : Statement (.slots ca) := fun h =>
  packFields_toNat (lt_of_ctxIndexOk h) (by decide) (by decide) (by decide)

theorem test (ca : Nat) : Statement (.test ca) := fun h =>
  packFields_toNat (lt_of_ctxIndexOk h) (by decide) (by decide) (by decide)

theorem add (ca : Nat) : Statement (.add ca) := fun h =>
  packFields_toNat (lt_of_ctxIndexOk h) (by decide) (by decide) (by decide)

theorem testadd (ca : Nat) : Statement (.testadd ca) := fun h =>
  packFields_toNat (lt_of_ctxIndexOk h) (by decide) (by decide) (by decide)

theorem testrem (ca : Nat) : Statement (.testrem ca) := fun h =>
  packFields_toNat (lt_of_ctxIndexOk h) (by decide) (by decide) (by decide)

theorem tobf (ca cb : Nat) : Statement (.tobf ca cb) := fun h =>
  have h := Bool.and_eq_true_iff.1 h
  packFields_toNat (lt_of_ctxIndexOk h.1) (lt_of_ctxIndexOk h.2) (by decide) (by decide)

theorem ser (ca : Nat) : Statement (.ser ca) := fun h =>
  packFields_toNat (lt_of_ctxIndexOk h) (by decide) (by decide) (by decide)

theorem deser (ca : Nat) (var : Variant) (ovf : Policy) : Statement (.deser ca var ovf) := fun h =>
  packFields_toNat (lt_of_ctxIndexOk h) (by decide) (variant_bit_lt var) (policy_bit_lt ovf)

theorem equals (ca cb : Nat) : Statement (.equals ca cb) := fun h =>
  have h := Bool.and_eq_true_iff.1 h
  packFields_toNat (lt_of_ctxIndexOk h.1) (lt_of_ctxIndexOk h.2) (by decide) (by decide)

end Sys2Proof.Laws.ReservedBitsClear
end

