-- ==== Sys2Proof/Tests/Slice0.lean ====
section
/-! SUPPORT. The model's own tests, and a witness for the hypotheses of every obligation that has some. Words are written
out from spec/30_encoding.md R62 and R65; expected results are those of spec/95_test_vectors.md, whose row is named in each
comment, under the test configuration of its section 2. -/

namespace Sys2Proof.Tests

-- One test after another: many kernel evaluations at once want more threads than the memory limit allows.
set_option Elab.async false

open Sys2Proof.Machine Sys2Proof.Safety Sys2Proof.Claims Sys2Proof.Laws

/-! ### Well-formedness: each check refuses an ill-formed term -/

theorem test_wellFormed_config : (Instr.config 16 .bf .wrap).wellFormed = false := by decide
theorem test_wellFormed_destroy : (Instr.destroy 16).wellFormed = false := by decide
theorem test_wellFormed_getm : (Instr.getm 16).wellFormed = false := by decide
theorem test_wellFormed_getk : (Instr.getk 16).wellFormed = false := by decide
theorem test_wellFormed_getcount : (Instr.getcount 16).wellFormed = false := by decide
theorem test_wellFormed_getslot : (Instr.getslot 16).wellFormed = false := by decide
theorem test_wellFormed_getcfg : (Instr.getcfg 16).wellFormed = false := by decide
theorem test_wellFormed_slotidx : (Instr.slotidx 16).wellFormed = false := by decide
theorem test_wellFormed_slots : (Instr.slots 16).wellFormed = false := by decide
theorem test_wellFormed_test : (Instr.test 16).wellFormed = false := by decide
theorem test_wellFormed_add : (Instr.add 16).wellFormed = false := by decide
theorem test_wellFormed_testadd : (Instr.testadd 16).wellFormed = false := by decide
theorem test_wellFormed_testrem : (Instr.testrem 16).wellFormed = false := by decide
theorem test_wellFormed_tobf_source : (Instr.tobf 16 0).wellFormed = false := by decide
theorem test_wellFormed_tobf_destination : (Instr.tobf 0 16).wellFormed = false := by decide
theorem test_wellFormed_ser : (Instr.ser 16).wellFormed = false := by decide
theorem test_wellFormed_deser : (Instr.deser 16 .cbf .sat).wellFormed = false := by decide
theorem test_wellFormed_equals_left : (Instr.equals 16 0).wellFormed = false := by decide
theorem test_wellFormed_equals_right : (Instr.equals 0 16).wellFormed = false := by decide

/-! ### Decoding: words written out from 30_encoding.md R62 and R65 -/

theorem test_decode_config : decode 0x0000000000030201 = .ok (.config 2 .cbf .sat) := by decide +kernel
theorem test_decode_config_ovf : decode 0x0000000000020F01 = .ok (.config 15 .bf .sat) := by decide +kernel
theorem test_decode_destroy : decode 0x0000000000000802 = .ok (.destroy 8) := by decide +kernel
theorem test_decode_getm : decode 0x0000000000000103 = .ok (.getm 1) := by decide +kernel
theorem test_decode_getk : decode 0x0000000000000204 = .ok (.getk 2) := by decide +kernel
theorem test_decode_getcount : decode 0x0000000000000405 = .ok (.getcount 4) := by decide +kernel
theorem test_decode_getslot : decode 0x0000000000000306 = .ok (.getslot 3) := by decide +kernel
theorem test_decode_getcfg : decode 0x0000000000000207 = .ok (.getcfg 2) := by decide +kernel
theorem test_decode_slotidx : decode 0x0000000000000510 = .ok (.slotidx 5) := by decide +kernel
theorem test_decode_slots : decode 0x0000000000000A11 = .ok (.slots 10) := by decide +kernel
theorem test_decode_test : decode 0x0000000000000320 = .ok (.test 3) := by decide +kernel
theorem test_decode_add : decode 0x0000000000000121 = .ok (.add 1) := by decide +kernel
theorem test_decode_testadd : decode 0x0000000000000622 = .ok (.testadd 6) := by decide +kernel
theorem test_decode_testrem : decode 0x0000000000000F23 = .ok (.testrem 15) := by decide +kernel
theorem test_decode_tobf : decode 0x0000000000003230 = .ok (.tobf 2 3) := by decide +kernel
theorem test_decode_ser : decode 0x0000000000000340 = .ok (.ser 3) := by decide +kernel
theorem test_decode_deser : decode 0x0000000000010241 = .ok (.deser 2 .cbf .wrap) := by decide +kernel
theorem test_decode_equals : decode 0x000000000000A150 = .ok (.equals 1 10) := by decide +kernel

/-- V8-1, V8-2: reserved opcodes. -/
theorem test_decode_reserved :
    decode 0x00 = .error .reservedOpcode ∧ decode 0x08 = .error .reservedOpcode ∧
    decode 0xFF = .error .reservedOpcode := by decide +kernel

/-- V8-3 to V8-6: a field the opcode does not use, and reserved bits. -/
theorem test_decode_unused :
    decode 0x00010023 = .error .unusedBitSet ∧ decode 0x00001020 = .error .unusedBitSet ∧
    decode 0x00040001 = .error .unusedBitSet ∧ decode 0x8000000000000050 = .error .unusedBitSet := by decide +kernel

theorem test_encode_tobf : encode (.tobf 1 2) = 0x2130 := by decide +kernel
theorem test_encode_config : encode (.config 2 .cbf .sat) = 0x30201 := by decide +kernel

/-! ### Small states -/

/-- A valid context of the test configuration whose array begins with `l`. -/
def filterCtx (var : Variant) (ovf : Policy) (m k count : Word) (l : List Byte) : Ctx where
  valid := true
  var := var
  ovf := ovf
  m := m
  k := k
  count := count
  slots := l ++ List.replicate (4096 - l.length) 0

/-- An idle engine in the test configuration with two contexts given and two never configured, and `key` in `KEYBUF`. -/
def bench (c0 c1 : Ctx) (key : List Byte) : State :=
  { State.powerOn Config.testbench 0 with
    ctxs := [c0, c1, Ctx.powerOn Config.testbench 0 2, Ctx.powerOn Config.testbench 0 3]
    mem := memSetRange [] 0x10000 key
    keylen := BitVec.ofNat 64 key.length }

/-- The key `"ab"` (V2-1). -/
def ab : List Byte := [0x61, 0x62]

/-- The key on which the stub hash fails (V2-12). -/
def failKey : List Byte := [0x10, 0x92]

/-- A fresh filter with `m = 16`, `k = 3`. -/
def fresh16 (var : Variant) (ovf : Policy) : Ctx := filterCtx var ovf 16 3 0 []

/-- A CBF with `m = 17`, `k = 3` and slot 16 at `v`; the key `"ab"` touches slot 16 three times. -/
def ctx17 (ovf : Policy) (v : Byte) : Ctx := filterCtx .cbf ovf 17 3 0 (List.replicate 16 0 ++ [v])

/-- `m = 16`, `k = 3`, with slots 8, 9, 10 set: a filter that holds `"ab"`. -/
def held (var : Variant) : Ctx := filterCtx var .wrap 16 3 1 [0, 0, 0, 0, 0, 0, 0, 0, 1, 1, 1]

/-- What a field reads after a command. -/
def after {α : Type} (i : Instr) (s : State) (field : State → α) : Option α :=
  match exec i s with
  | .next t => some (field t)
  | .fault _ => none
  | .refused _ => none

/-- What a field reads after one step. -/
def stepped {α : Type} (s : State) (field : State → α) : Option α :=
  match step s with
  | .next t => some (field t)
  | .fault _ => none
  | .refused _ => none

theorem filterCtx_ok {var : Variant} {ovf : Policy} {m k count : Word} {l : List Byte}
    (h : l.length ≤ 4096 ∧ (1 ≤ m.toNat ∧ m.toNat ≤ 4096) ∧ k.toNat ≤ 64 ∧ (var = .bf → ∀ v ∈ l, v = 0 ∨ v = 1)) :
    CtxOk Config.testbench (filterCtx var ovf m k count l) := by
  refine ⟨?_, fun _ => ⟨h.2.1.1, h.2.1.2, h.2.2.1, fun hb v hv => ?_⟩⟩
  · simp only [filterCtx, List.length_append, List.length_replicate, Config.testbench]
    omega
  · rcases List.mem_append.1 (List.mem_of_mem_take hv) with hv | hv
    · exact h.2.2.2 hb v hv
    · exact .inl (List.eq_of_mem_replicate hv)

theorem powerOn_ctxOk (p : Config) (n c : Nat) : CtxOk p (Ctx.powerOn p n c) := ⟨by simp [Ctx.powerOn], nofun⟩

theorem bench_inv {c0 c1 : Ctx} {key : List Byte} (h0 : CtxOk Config.testbench c0) (h1 : CtxOk Config.testbench c1)
    (hk : key.length ≤ 128) : EngineInv (bench c0 c1 key) where
  ctxCount := rfl
  ctxsOk := by
    simp only [bench, List.mem_cons, List.not_mem_nil, or_false, forall_eq_or_imp, forall_eq]
    exact ⟨h0, h1, powerOn_ctxOk _ _ _, powerOn_ctxOk _ _ _⟩
  latch := nofun
  idxcntOk := Nat.zero_le _
  memCanonical := memSetRange_wf List.Pairwise.nil _ _
  memInBuffers := setBytes_inBuffers nofun fun b h2 h3 => .inl ⟨h2, by
    have e : Config.testbench.keyMax = 128 := rfl
    simp only [bench, State.powerOn, e, keybufBase]
    omega⟩

theorem fresh16_ok (var : Variant) (ovf : Policy) : CtxOk Config.testbench (fresh16 var ovf) :=
  filterCtx_ok ⟨by simp, by decide, by decide, nofun⟩

theorem held_ok (var : Variant) : CtxOk Config.testbench (held var) :=
  filterCtx_ok ⟨by decide, by decide, by decide, fun _ => by decide⟩

theorem ctx17_ok (ovf : Policy) (v : Byte) : CtxOk Config.testbench (ctx17 ovf v) :=
  filterCtx_ok ⟨by simp, by decide, by decide, nofun⟩

/-! ### One command, with the expected results of 95_test_vectors.md -/

/-- V4-6: the limits are inclusive. -/
theorem test_config_max :
    after (.config 0 .bf .wrap)
      { bench (fresh16 .bf .wrap) (fresh16 .cbf .sat) ab with arg0 := 4096, arg1 := 64 }
      (fun t => (t.err, (t.ctx 0).m, (t.ctx 0).k)) = some (.ok, 4096, 64) := by decide +kernel

/-- V4-8: `BAD_CTX` comes before `CONFIG`. -/
theorem test_config_badCtx :
    after (.config 9 .bf .wrap) { bench (fresh16 .bf .wrap) (fresh16 .cbf .sat) ab with arg0 := 0 }
      (fun t => (t.err, t.result)) = some (.badCtx, 0) := by decide +kernel

/-- R82: a destroyed context is invalid. -/
theorem test_destroy :
    after (.destroy 1) (bench (fresh16 .bf .wrap) (fresh16 .cbf .sat) ab)
      (fun t => (t.err, (t.ctx 1).valid, (t.ctx 0).valid)) = some (.ok, false, true) := by decide +kernel

theorem test_getm : after (.getm 1) (bench (fresh16 .bf .wrap) (ctx17 .wrap 1) ab) State.result = some 17 := by
  decide +kernel

theorem test_getk : after (.getk 1) (bench (fresh16 .bf .wrap) (ctx17 .wrap 1) ab) State.result = some 3 := by
  decide +kernel

/-- V8-9: an invalid context. -/
theorem test_getk_invalid : after (.getk 3) (bench (fresh16 .bf .wrap) (ctx17 .wrap 1) ab) State.err =
    some .notConfigured := by decide +kernel

theorem test_getcount : after (.getcount 0) (bench (held .cbf) (fresh16 .bf .wrap) ab) State.result = some 1 := by
  decide +kernel

/-- V4-10, V4-11 in the 17-slot filter: the last slot, and the index above it. -/
theorem test_getslot_last : after (.getslot 1) { bench (fresh16 .bf .wrap) (ctx17 .wrap 200) ab with arg0 := 16 }
    (fun t => (t.err, t.result)) = some (.ok, 200) := by decide +kernel

theorem test_getslot_range : after (.getslot 1) { bench (fresh16 .bf .wrap) (ctx17 .wrap 200) ab with arg0 := 17 }
    (fun t => (t.err, t.result)) = some (.range, 0) := by decide +kernel

/-- V4-12: `{ovf, var, valid} = 7`; V9-18: an invalid context answers 0. -/
theorem test_getcfg : after (.getcfg 1) (bench (fresh16 .bf .wrap) (fresh16 .cbf .sat) ab) State.result = some 7 := by
  decide +kernel

theorem test_getcfg_invalid : after (.getcfg 2) (bench (fresh16 .bf .wrap) (fresh16 .cbf .sat) ab)
    (fun t => (t.err, t.result)) = some (.ok, 0) := by decide +kernel

/-- V2-13. -/
theorem test_slotidx : after (.slotidx 0) { bench (fresh16 .bf .wrap) (ctx17 .wrap 1) ab with arg0 := 2 }
    State.result = some 10 := by decide +kernel

/-- V2-16. -/
theorem test_slotidx_hash : after (.slotidx 0) (bench (fresh16 .bf .wrap) (ctx17 .wrap 1) failKey) State.err =
    some .hash := by decide +kernel

/-- V2-17. -/
theorem test_slots : after (.slots 0) (bench (fresh16 .bf .wrap) (ctx17 .wrap 1) ab)
    (fun t => (t.result, t.idxcnt, t.idxEntry 0, t.idxEntry 1, t.idxEntry 2)) = some (3, 3, 8, 9, 10) := by
  decide +kernel

/-- V3.1-4: the empty key touches slots 5, 6, 7. -/
theorem test_test_absent : after (.test 0) (bench (held .bf) (fresh16 .cbf .wrap) []) State.result = some 0 := by
  decide +kernel

theorem test_test_present : after (.test 0) (bench (held .cbf) (fresh16 .cbf .wrap) ab) State.result = some 1 := by
  decide +kernel

/-- V3.1-2: adding again keeps the slots and counts. -/
theorem test_add_bf : after (.add 0) (bench (held .bf) (fresh16 .cbf .wrap) ab)
    (fun t => ((t.ctx 0).live, (t.ctx 0).count, t.ctrovf)) =
    some ([0, 0, 0, 0, 0, 0, 0, 0, 1, 1, 1, 0, 0, 0, 0, 0], 2, false) := by decide +kernel

/-- V3.3-5: 254, 255, 0, 1 under WRAP. -/
theorem test_add_cbf : after (.add 1) (bench (fresh16 .bf .wrap) (ctx17 .wrap 254) ab)
    (fun t => ((t.ctx 1).slot 16, (t.ctx 1).count, t.ctrovf, t.result)) = some (1, 1, true, 0) := by decide +kernel

/-- V3.1-11: a repeated index whose slot was 0 answers 0. -/
theorem test_testadd : after (.testadd 1) (bench (fresh16 .bf .wrap) (ctx17 .wrap 0) ab)
    (fun t => ((t.ctx 1).slot 16, t.result)) = some (3, 0) := by decide +kernel

/-- V3.3-6 for `TESTADD`: SAT clamps at 255. -/
theorem test_testadd_sat : after (.testadd 1) (bench (fresh16 .bf .wrap) (ctx17 .sat 254) ab)
    (fun t => ((t.ctx 1).slot 16, t.result, t.ctrovf)) = some (255, 1, true) := by decide +kernel

/-- V3.3-3: 1, 0, 255, 254 under WRAP. -/
theorem test_testrem_wrap : after (.testrem 1) (bench (fresh16 .bf .wrap) (ctx17 .wrap 1) ab)
    (fun t => ((t.ctx 1).slot 16, (t.ctx 1).count, t.result, t.ctrovf)) = some (254, 1, 1, true) := by decide +kernel

/-- V3.1-7, V3.1-8: a BF checks no key and runs no hash. -/
theorem test_testrem_bf : after (.testrem 0) { bench (held .bf) (ctx17 .sat 1) failKey with keylen := 1000 }
    (fun t => (t.err, t.result, (t.ctx 0).count)) = some (.ok, 0, 1) := by decide +kernel

/-- The example of R131. -/
theorem test_tobf : after (.tobf 0 1) (bench (filterCtx .cbf .sat 4 2 7 [0, 3, 255, 1]) (fresh16 .cbf .sat) ab)
    (fun t => ((t.ctx 1).live, (t.ctx 1).count, (t.ctx 1).var, (t.ctx 1).ovf)) =
    some ([0, 1, 1, 1], 7, .bf, .wrap) := by decide +kernel

/-- V8-15. -/
theorem test_tobf_variant : after (.tobf 1 2) (bench (fresh16 .cbf .wrap) (fresh16 .bf .wrap) ab) State.err =
    some .variant := by decide +kernel

/-- The text of R151's example, 56 characters. -/
def t1Text : List Byte :=
  [0x65, 0x79, 0x4A, 0x4E, 0x49, 0x6A, 0x6F, 0x30, 0x4C, 0x43, 0x4A, 0x4C, 0x49, 0x6A, 0x6F, 0x79, 0x4C, 0x43, 0x4A,
   0x45, 0x59, 0x58, 0x52, 0x68, 0x49, 0x6A, 0x6F, 0x69, 0x4D, 0x44, 0x41, 0x77] ++
  [0x4D, 0x54, 0x41, 0x79, 0x4D, 0x44, 0x41, 0x69, 0x4C, 0x43, 0x4A, 0x44, 0x62, 0x33, 0x56, 0x75, 0x64, 0x43, 0x49,
   0x36, 0x4D, 0x33, 0x30, 0x3D]

theorem test_ser : after (.ser 0) (bench (filterCtx .cbf .wrap 4 2 3 [0, 1, 2]) (fresh16 .bf .wrap) ab)
    (fun t => (t.result, t.serlen, t.text)) = some (56, 56, t1Text) := by decide +kernel

/-- An engine whose `SERBUF` holds a text. -/
def textBench (text : List Byte) : State :=
  { bench (fresh16 .cbf .wrap) (fresh16 .bf .wrap) [] with
    mem := memSetRange [] 0x1000000 text
    serlen := BitVec.ofNat 64 text.length }

/-- The example of R152. -/
theorem test_deser : after (.deser 2 .cbf .wrap) (textBench t1Text)
    (fun t => (t.err, (t.ctx 2).live, (t.ctx 2).k, (t.ctx 2).count)) = some (.ok, [0, 1, 2, 0], 2, 3) := by
  decide +kernel

/-- The example of R152: a slot above 1 is no BF. -/
theorem test_deser_bf : after (.deser 2 .bf .wrap) (textBench t1Text)
    (fun t => (t.err, (t.ctx 2).valid)) = some (.decode, false) := by decide +kernel

/-- V7-3: the overflow policy is not compared. -/
theorem test_equals : after (.equals 0 1) (bench (fresh16 .cbf .wrap) (fresh16 .cbf .sat) ab) State.result = some 1 := by
  decide +kernel

/-- V7-2: across variants. -/
theorem test_equals_variant : after (.equals 0 1) (bench (fresh16 .cbf .wrap) (fresh16 .bf .wrap) ab) State.result =
    some 0 := by decide +kernel

/-! ### The host port (95_test_vectors.md section 9) -/

/-- V9-2. -/
theorem test_read_cap : stepped { bench (fresh16 .bf .wrap) (fresh16 .bf .wrap) ab with schedule := [.read 0x068 8] }
    State.rdata = some 16384 := by decide +kernel

/-- V9-7: a write while busy is lost and sets `OVR`. -/
theorem test_busy_write :
    stepped { bench (fresh16 .bf .wrap) (fresh16 .bf .wrap) ab with
      cmd := 0x20, pending := some 0x20, arg0 := 7, schedule := [.write 0x018 8 5] }
      (fun t => (t.arg0, t.ovr, t.busy)) = some (7, true, true) := by decide +kernel

/-- V9-13: `ERR` is not writable. -/
theorem test_status_w1c :
    stepped { bench (fresh16 .bf .wrap) (fresh16 .bf .wrap) ab with
      done := true, err := .hash, schedule := [.write 0x008 8 0xFFFF] }
      State.statusWord = some 0x0700 := by decide +kernel

/-- V9-17, V9-18: reset discards the pending command and every filter. -/
theorem test_reset :
    stepped { bench (held .bf) (held .cbf) ab with cmd := 0x20, pending := some 0x20, ie := true, schedule := [.reset] }
      (fun t => (t.busy, t.statusWord, t.ie, (t.ctx 0).valid)) = some (false, 0, false, false) := by decide +kernel

/-- V9-19. -/
theorem test_keybuf_word :
    stepped { bench (held .bf) (held .cbf) [] with schedule := [.write 0x10000 8 0x6261] }
      (fun t => (t.byteAt 0x10000, t.byteAt 0x10001, t.byteAt 0x10007, t.wordAt 0x10000)) =
    some (0x61, 0x62, 0, 0x6261) := by decide +kernel

/-- V8-13 by way of a latched word: `count` stays 0. -/
theorem test_step_add_fails :
    stepped { bench (fresh16 .cbf .wrap) (held .bf) failKey with cmd := 0x21, pending := some 0x21 }
      (fun t => (t.statusWord, t.result, (t.ctx 0).count)) = some (0x0702, 0, 0) := by decide +kernel

/-! ### Witnesses: a state and operands that meet the hypotheses of each obligation -/

/-- Two valid filters, the key `"ab"`, idle. -/
def idle : State := bench (held .bf) (ctx17 .wrap 254) ab

theorem idle_inv : EngineInv idle := bench_inv (held_ok _) (ctx17_ok _ _) (by decide)

/-- The same with a command pending. -/
def pending (w : Word) : State := { idle with cmd := w, pending := some w }

theorem idle_ready : Ready idle 0 ∧ Ready idle 1 := by decide +kernel

theorem idle_keyReady : KeyReady idle 0 ∧ KeyReady idle 1 := by decide +kernel

theorem idle_touches : Touches idle 0 [8, 9, 10] ∧ Touches idle 1 [16, 16, 16] := by decide +kernel

theorem witness_DecodeInvertsEncode : (Instr.config 15 .cbf .sat).wellFormed = true := by decide

theorem witness_EncodeInvertsDecode : decode 0x3F41 = .error .unusedBitSet ∧ decode 0x30F41 = .ok (.deser 15 .cbf .sat) := by
  decide +kernel

/-- A state with `CMD` word `w` pending and the engine's turn scheduled before a reset. -/
def scheduled (w : Word) : State := { pending w with schedule := [.engine, .reset] }

theorem engineNext_both (w : Word) : EngineNext (pending w) ∧ EngineNext (scheduled w) := ⟨.inl rfl, .inr ⟨_, rfl⟩⟩

/-- The zero word on a scheduled turn (R66): `ILLEGAL_CMD`, and the schedule goes on. -/
theorem test_illegal_scheduled :
    stepped (scheduled 0) (fun t => (t.err, t.done, t.busy, t.schedule)) = some (.illegalCmd, true, false, [.reset]) := by
  decide +kernel

/-- Both turns, and one word for each clause of R66. -/
theorem witness_IllegalWordsFail :
    (EngineNext (pending 0xFF) ∧ EngineNext (scheduled 0xFF)) ∧
    ((pending 0xFF).pending = some 0xFF ∧ (scheduled 0xFF).pending = some 0xFF) ∧
    IllegalWord 0xFF ∧ IllegalWord 0x00040001 ∧ IllegalWord 0x00010023 ∧ IllegalWord 0x00001020 := by
  refine ⟨engineNext_both _, ?_⟩
  unfold IllegalWord
  decide +kernel

theorem witness_StepRunsTheLatchedCommand :
    ((pending 0x21).pending = some 0x21 ∧ decode 0x21 = .ok (.add 0) ∧ (pending 0x21).schedule = []) ∧
    (scheduled 0x21).schedule = .engine :: [.reset] ∧
    (idle.pending = none ∧ idle.schedule = []) := by decide +kernel

/-- A word that decodes and a word that does not, each on both turns. -/
theorem witness_FirstErrorInOrderIsReported :
    (EngineNext (pending 0x21) ∧ EngineNext (scheduled 0x21)) ∧ (EngineNext (pending 0) ∧ EngineNext (scheduled 0)) ∧
    ((pending 0x21).pending = some 0x21 ∧ decode 0x21 = .ok (.add 0)) ∧
    ((scheduled 0).pending = some 0 ∧ decode 0 = .error .reservedOpcode) :=
  ⟨engineNext_both _, engineNext_both _, by decide +kernel⟩

theorem witness_FailedCommandChangesNothingElse :
    (∃ t, exec (.add 9) idle = .next t ∧ t.err ≠ .ok) ∧
    ((pending 0x921).busy = true ∧ EngineNext (pending 0x921) ∧
      ∃ t, step (pending 0x921) = .next t ∧ t.err ≠ .ok) ∧
    ((scheduled 0x921).busy = true ∧ EngineNext (scheduled 0x921) ∧
      ∃ t, step (scheduled 0x921) = .next t ∧ t.err ≠ .ok) :=
  ⟨⟨_, rfl, by decide +kernel⟩, ⟨rfl, (engineNext_both _).1, _, rfl, by decide +kernel⟩,
    rfl, (engineNext_both _).2, _, rfl, by decide +kernel⟩

theorem witness_AcceptedCommandsComplete :
    LegalSchedule { pending 0x21 with schedule := [.read 0x028 8, .write 0x018 8 5, .engine, .reset] } := by
  intro e he
  simp only [List.mem_cons, List.not_mem_nil, or_false] at he
  rcases he with rfl | rfl | rfl | rfl
  · exact (by decide : accessOk 0x028 8 = true)
  · exact (by decide : accessOk 0x018 8 = true)
  · trivial
  · trivial

/-- The least and the greatest sizes, and the first sizes out of range. -/
theorem witness_ConfigConstructsFilter :
    3 < idle.cfg.nctx ∧ (1 : Word).toNat = 1 ∧ (4096 : Word).toNat ≤ idle.cfg.mMax ∧ (64 : Word).toNat ≤ idle.cfg.kMax ∧
    idle.cfg.mMax < (4097 : Word).toNat ∧ idle.cfg.kMax < (65 : Word).toNat := by decide +kernel

theorem witness_FreshFilterHoldsNothing :
    EngineInv { idle with arg0 := 16, arg1 := 3 } ∧
    ∃ t, exec (.config 0 .bf .wrap) { idle with arg0 := 16, arg1 := 3 } = .next t ∧ t.err = .ok ∧
      { t with keylen := 1 }.cfg = t.cfg ∧ { t with keylen := 1 }.ctxs = t.ctxs ∧
      ∃ v, exec (.test 0) { t with keylen := 1 } = .next v ∧ v.err = .ok :=
  ⟨bench_inv (held_ok _) (ctx17_ok _ _) (by decide) |> fun h => ⟨h.1, h.2, h.3, h.4, h.5, h.6⟩,
    _, rfl, by decide +kernel, rfl, rfl, _, rfl, by decide +kernel⟩

theorem witness_DestroyEndsFilter : idle.ctxs.length = idle.cfg.nctx ∧ 3 < idle.cfg.nctx := by decide +kernel

theorem witness_AccessorsAnswerFields : Ready idle 0 ∧ Ready idle 1 := idle_ready

/-- The last slot, and the index above it. -/
theorem witness_GetslotAnswersOneSlot :
    (Ready { idle with arg0 := 16 } 1 ∧ (16 : Word).toNat < (idle.ctx 1).m.toNat) ∧
    (Ready { idle with arg0 := 17 } 1 ∧ (idle.ctx 1).m.toNat ≤ (17 : Word).toNat) := by decide +kernel

theorem witness_GetcfgPacksConfiguration :
    3 < idle.cfg.nctx ∧ (idle.ctx 3).valid = false ∧ (idle.ctx 1).valid = true := by decide +kernel

theorem witness_EncodeHasSerialForm :
    bigEndian [0x01, 0x61, 0x53] % Config.testbench.q = bigEndian ab % Config.testbench.q := by decide +kernel

theorem witness_PipelineEntriesAreRounds :
    0 < 16 ∧ slotsForKey Config.testbench ab 3 16 = some [8, 9, 10] ∧
    slotsForKey Config.testbench failKey 3 16 = none := by decide +kernel

/-- The last round, a failing round, and the round index `k`. -/
theorem witness_SlotidxRunsOneRound :
    (EngineInv idle ∧ KeyReady idle 1) ∧
    ((2 : Word).toNat < (idle.ctx 1).k.toNat ∧ slotIndex idle.cfg idle.key 2 17 = some 16) ∧
    (KeyReady (bench (held .bf) (ctx17 .wrap 254) failKey) 0 ∧
      slotIndex Config.testbench (bench (held .bf) (ctx17 .wrap 254) failKey).key 2 16 = none) ∧
    (idle.ctx 1).k.toNat ≤ (3 : Word).toNat :=
  ⟨⟨idle_inv, idle_keyReady.2⟩, by decide +kernel, by decide +kernel, by decide +kernel⟩

theorem witness_SlotsFillsIndexBuffer : EngineInv idle ∧ KeyReady idle 1 ∧ Touches idle 1 [16, 16, 16] :=
  ⟨idle_inv, idle_keyReady.2, idle_touches.2⟩

theorem witness_HashFailureAbortsCommand :
    KeyReady (bench (held .bf) (ctx17 .wrap 254) failKey) 1 ∧
    slotsForKey Config.testbench (bench (held .bf) (ctx17 .wrap 254) failKey).key 3 17 = none ∧
    ((bench (held .bf) (ctx17 .wrap 254) failKey).ctx 1).var = .cbf := by decide +kernel

theorem witness_TestAnswersMembership :
    KeyReady idle 0 ∧ Touches idle 0 [8, 9, 10] ∧ AllSet (idle.ctx 0) [8, 9, 10] ∧ ¬AllSet (idle.ctx 0) [5, 6, 7] := by
  decide +kernel

theorem witness_AddSetsBloomSlots :
    KeyReady idle 0 ∧ Touches idle 0 [8, 9, 10] ∧ (idle.ctx 0).var = .bf := by decide +kernel

/-- V3.3-5: the second of three increments starts at 255. -/
theorem witness_AddRaisesCounters :
    EngineInv idle ∧ KeyReady idle 1 ∧ Touches idle 1 [16, 16, 16] ∧ (idle.ctx 1).var = .cbf ∧
    Overflows (idle.ctx 1) [16, 16, 16] :=
  ⟨idle_inv, idle_keyReady.2, idle_touches.2, rfl, by decide +kernel⟩

theorem witness_TestaddSetsBloomSlots :
    KeyReady idle 0 ∧ Touches idle 0 [8, 9, 10] ∧ (idle.ctx 0).var = .bf := by decide +kernel

theorem witness_TestaddRaisesCounters :
    EngineInv idle ∧ KeyReady idle 1 ∧ Touches idle 1 [16, 16, 16] ∧ (idle.ctx 1).var = .cbf :=
  ⟨idle_inv, idle_keyReady.2, idle_touches.2, rfl⟩

theorem witness_TestremOnBloomAnswersZero : Ready idle 0 ∧ (idle.ctx 0).var = .bf := by decide +kernel

/-- V3.3-3 underflows; with the empty key, slot 5 is 0. -/
theorem witness_TestremLowersCounters :
    (EngineInv (bench (held .bf) (ctx17 .wrap 1) ab) ∧ KeyReady (bench (held .bf) (ctx17 .wrap 1) ab) 1 ∧
      Touches (bench (held .bf) (ctx17 .wrap 1) ab) 1 [16, 16, 16] ∧
      AllSet ((bench (held .bf) (ctx17 .wrap 1) ab).ctx 1) [16, 16, 16] ∧
      Underflows ((bench (held .bf) (ctx17 .wrap 1) ab).ctx 1) [16, 16, 16]) ∧
    (EngineInv (bench (held .bf) (ctx17 .wrap 1) []) ∧ KeyReady (bench (held .bf) (ctx17 .wrap 1) []) 1 ∧
      Touches (bench (held .bf) (ctx17 .wrap 1) []) 1 [5, 5, 5] ∧
      ¬AllSet ((bench (held .bf) (ctx17 .wrap 1) []).ctx 1) [5, 5, 5]) :=
  ⟨⟨bench_inv (held_ok _) (ctx17_ok _ _) (by decide), by decide +kernel⟩,
    ⟨bench_inv (held_ok _) (ctx17_ok _ _) (by decide), by decide +kernel⟩⟩

/-- One command of each kind that writes `count`. -/
theorem witness_CountChangesOnlyAsCounted :
    EngineInv idle ∧
    (∃ t, exec (.add 0) idle = .next t ∧ t.err = .ok ∧ (t.ctx 0).count ≠ (idle.ctx 0).count) ∧
    (∃ t, exec (.testrem 1) idle = .next t ∧ t.err = .ok ∧ t.result = 1 ∧ (t.ctx 1).count ≠ (idle.ctx 1).count) ∧
    (∃ t, exec (.config 0 .bf .wrap) { idle with arg0 := 1 } = .next t ∧ t.err = .ok ∧
      (t.ctx 0).count ≠ (idle.ctx 0).count) ∧
    (∃ t, exec (.tobf 1 0) idle = .next t ∧ t.err = .ok ∧ (t.ctx 0).count ≠ (idle.ctx 0).count) ∧
    (∃ t, exec (.deser 0 .cbf .wrap) (textBench t1Text) = .next t ∧ t.err = .ok ∧
      (t.ctx 0).count ≠ ((textBench t1Text).ctx 0).count) :=
  ⟨idle_inv, ⟨_, rfl, by decide +kernel⟩, ⟨_, rfl, by decide +kernel⟩, ⟨_, rfl, by decide +kernel⟩,
    ⟨_, rfl, by decide +kernel⟩, ⟨_, rfl, by decide +kernel⟩⟩

/-- 252 is the greatest value that three increments do not overflow. -/
theorem witness_AddThenRemoveRestores :
    EngineInv (bench (held .bf) (ctx17 .sat 252) ab) ∧ KeyReady (bench (held .bf) (ctx17 .sat 252) ab) 1 ∧
    Touches (bench (held .bf) (ctx17 .sat 252) ab) 1 [16, 16, 16] ∧
    ((bench (held .bf) (ctx17 .sat 252) ab).ctx 1).var = .cbf ∧
    ¬Overflows ((bench (held .bf) (ctx17 .sat 252) ab).ctx 1) [16, 16, 16] ∧
    ∃ t, exec (.add 1) (bench (held .bf) (ctx17 .sat 252) ab) = .next t :=
  ⟨bench_inv (held_ok _) (ctx17_ok _ _) (by decide), by decide +kernel, by decide +kernel, rfl, by decide +kernel, _, rfl⟩

theorem witness_BloomHasNoFalseNegatives :
    (EngineInv idle ∧ (idle.ctx 0).var = .bf ∧ ∃ t, exec (.add 0) idle = .next t ∧ t.err = .ok) ∧
    ((idle.ctx 0).valid = true ∧ replaces 0 (.testrem 0) = false ∧ ∃ t, exec (.testrem 0) idle = .next t) ∧
    (idle.ctx 0).slots.getD 8 0 ≠ 0 :=
  ⟨⟨idle_inv, rfl, _, rfl, by decide +kernel⟩, ⟨rfl, by decide, _, rfl⟩, by decide +kernel⟩

/-- A CBF source, with a destination never configured; a BF source. -/
theorem witness_TobfProjectsCounters :
    EngineInv idle ∧ (Ready idle 1 ∧ 3 < idle.cfg.nctx ∧ (idle.ctx 1).var = .cbf) ∧
    (Ready idle 0 ∧ (idle.ctx 0).var = .bf) := ⟨idle_inv, by decide +kernel, by decide +kernel⟩

theorem witness_ProjectionPreservesMembership :
    EngineInv idle ∧ ∃ t, exec (.tobf 1 1) idle = .next t ∧ t.err = .ok := ⟨idle_inv, _, rfl, by decide +kernel⟩

theorem witness_EqualsComparesFilters : EngineInv idle ∧ Ready idle 0 ∧ Ready idle 1 := ⟨idle_inv, idle_ready⟩

theorem witness_EqualsIsEquivalence : Ready idle 0 ∧ Ready idle 1 ∧ Ready idle 1 :=
  ⟨idle_ready.1, idle_ready.2, idle_ready.2⟩

/-- The filter of R151's example. -/
def t1Filter : Machine.Filter := { m := 4, k := 2, count := 3, slots := [0, 1, 2, 0] }

theorem witness_SerialTextLength :
    t1Filter.slots.length = t1Filter.m ∧ t1Filter.m < 2 ^ 64 ∧ t1Filter.k < 2 ^ 64 ∧ t1Filter.count < 2 ^ 64 := by
  decide

/-- R151's example decodes, and as a BF it does not. -/
theorem witness_DecoderTakesExactlyCanonicalTexts :
    decodeText Config.testbench .cbf t1Text = some t1Filter ∧ decodeText Config.testbench .bf t1Text = none ∧
    serialize t1Filter = t1Text := by decide +kernel

theorem witness_SerWritesCanonicalText : EngineInv idle ∧ Ready idle 1 := ⟨idle_inv, idle_ready.2⟩

theorem witness_DeserRebuildsFilter :
    3 < (textBench t1Text).cfg.nctx ∧ (textBench t1Text).serlen.toNat ≤ (textBench t1Text).cfg.serMax ∧
    decodeText (textBench t1Text).cfg .cbf (textBench t1Text).text = some t1Filter := by decide +kernel

/-- D-19, D-20: an empty text, and `SERLEN = 16385`. -/
theorem witness_DeserRejectsBadText :
    3 < (textBench []).cfg.nctx ∧ decodeText (textBench []).cfg .cbf (textBench []).text = none ∧
    (textBench []).cfg.serMax < (16385 : Word).toNat := by decide +kernel

theorem witness_SerDeserRoundTrip : EngineInv idle ∧ Ready idle 1 ∧ 3 < idle.cfg.nctx :=
  ⟨idle_inv, idle_ready.2, by decide +kernel⟩

theorem witness_EqualTextsMeanEqualFilters :
    EngineInv idle ∧ Ready idle 0 ∧ Ready idle 1 ∧ ∃ t, exec (.equals 0 1) idle = .next t :=
  ⟨idle_inv, idle_ready.1, idle_ready.2, _, rfl⟩

/-- Contexts that differ from those of `idle` in every context but 0, and are as many. -/
def strangers : List Ctx := [held .bf, held .bf, held .cbf, held .cbf]

theorem witness_CommandsTouchOnlyNamedContexts :
    (∃ t, exec (.add 0) idle = .next t) ∧ writesCtx (.add 0) ≠ some 1 ∧
    (∀ c ∈ namesCtx (.add 0), strangers.getD c Ctx.absent = idle.ctx c) ∧
    strangers.length = idle.ctxs.length ∧ writesCtx (.add 0) = some 0 :=
  ⟨⟨_, rfl⟩, by decide, by
    simp only [namesCtx, List.mem_cons, List.not_mem_nil, or_false, forall_eq]
    rfl, rfl, rfl⟩

/-- An `ADD` that sets `CTROVF`. -/
theorem witness_CommandsLeaveHostInputs :
    EngineInv idle ∧ ∃ t, exec (.add 1) idle = .next t ∧ t.ctrovf ≠ idle.ctrovf :=
  ⟨idle_inv, _, rfl, by decide +kernel⟩

theorem witness_CmdWriteStartsCommand :
    { idle with schedule := [.write 0x000 8 0x20] }.busy = false ∧
    { pending 0x20 with schedule := [.write 0x000 8 0x21] }.busy = true := by decide +kernel

/-- A register, and the first and last words of the byte buffers. -/
theorem witness_BusyWritesAreLost_inputs :
    ((pending 0x20).busy = true ∧ (0x01003FF8 : PortAddr).toNat % 8 = 0) ∧
    InputAddr Config.testbench 0x00 ∧ InputAddr Config.testbench 0x10000 ∧ InputAddr Config.testbench 0x10078 ∧
    InputAddr Config.testbench 0x01003FF8 :=
  ⟨by decide +kernel, by unfold InputAddr; decide +kernel, by unfold InputAddr; decide +kernel,
    by unfold InputAddr; decide +kernel, by unfold InputAddr; decide +kernel⟩

/-- Ignored addresses of each kind. -/
theorem witness_BusyWritesAreLost_ignored :
    WriteIgnored Config.testbench 0x70 ∧ WriteIgnored Config.testbench 0x10080 ∧ WriteIgnored Config.testbench 0x68 ∧
    WriteIgnored Config.testbench 0x20000 ∧ WriteIgnored Config.testbench 0x01004000 :=
  ⟨by unfold WriteIgnored RazWi; decide +kernel, by unfold WriteIgnored RazWi; decide +kernel,
    by unfold WriteIgnored RazWi; decide +kernel, by unfold WriteIgnored RazWi; decide +kernel,
    by unfold WriteIgnored RazWi; decide +kernel⟩

theorem witness_IdleWritesStoreOperands :
    { idle with schedule := [.write 0x018 8 5] }.busy = false ∧
    { idle with schedule := [.write 0x018 8 5] }.schedule = .write 0x018 8 5 :: [] := ⟨rfl, rfl⟩

theorem witness_StatusAndCtrlAccess :
    { pending 0x20 with schedule := [.write 0x008 8 0xF] }.schedule = .write 0x008 8 0xF :: [] ∧
    { pending 0x20 with schedule := [.read 0x010 8] }.schedule = .read 0x010 8 :: [] := ⟨rfl, rfl⟩

/-- V9-3, V9-4: the first RAZ/WI addresses of each region. -/
theorem witness_ReservedAddressesReadZero :
    (0x70 : PortAddr).toNat % 8 = 0 ∧ RazWi Config.testbench 0x70 ∧ RazWi Config.testbench 0x10080 ∧
    RazWi Config.testbench 0x20200 ∧ RazWi Config.testbench 0x01004000 ∧ RazWi Config.testbench 0x03000000 := by
  unfold RazWi
  decide +kernel

/-- The last word of each byte buffer, with a read of it to follow. -/
theorem witness_BufferWordsPackLittleEndian :
    { idle with schedule := [.write 0x10078 8 5, .read 0x10078 8] }.schedule =
      .write 0x10078 8 5 :: .read 0x10078 8 :: [] ∧
    idle.busy = false ∧ (0x10078 : PortAddr).toNat % 8 = 0 ∧
    (0x10000 ≤ (0x10078 : PortAddr).toNat ∧ (0x10078 : PortAddr).toNat < 0x10000 + idle.cfg.keyMax) ∧
    (0x1000000 ≤ (0x01003FF8 : PortAddr).toNat ∧ (0x01003FF8 : PortAddr).toNat < 0x1000000 + idle.cfg.serMax) := by
  decide +kernel

/-- The last word of each output window, and of `KEYBUF`. -/
theorem witness_BusyReadsOfOutputsAreDrawn :
    ((pending 0x20).busy = true ∧ (0x201F8 : PortAddr).toNat % 8 = 0) ∧ OutputAddr Config.testbench 0x28 ∧
    OutputAddr Config.testbench 0x201F8 ∧ OutputAddr Config.testbench 0x01003FF8 ∧
    (0x10078 : PortAddr).toNat < 0x10000 + Config.testbench.keyMax := by
  unfold OutputAddr
  decide +kernel

theorem witness_IdleReadsOfOutputs :
    idle.busy = false ∧ (0x201F8 : PortAddr).toNat % 8 = 0 ∧ 63 < idle.cfg.kMax ∧
    (0x201F8 : PortAddr).toNat = 0x20000 + 8 * 63 ∧
    (0x01003FF8 : PortAddr).toNat < 0x1000000 + idle.cfg.serMax := by decide +kernel

theorem witness_ReadsHaveNoSideEffect :
    (0x028 : PortAddr).toNat % 8 = 0 ∧
    { pending 0x20 with schedule := [.read 0x028 8] }.schedule = .read 0x028 8 :: [] := ⟨by decide, rfl⟩

/-- A narrow access and a misaligned one. -/
theorem witness_OtherAccessesAreRefused :
    (4 ≠ 8 ∨ (0x018 : PortAddr).toNat % 8 ≠ 0) ∧ (8 ≠ 8 ∨ (0x01C : PortAddr).toNat % 8 ≠ 0) ∧
    { idle with schedule := [.write 0x01C 8 5] }.schedule = .write 0x01C 8 5 :: [] := ⟨by decide, by decide, rfl⟩

/-- Two busy states whose contexts and `RESULT` differ. -/
theorem witness_BusyReadsRevealNoOutput :
    (pending 0x20).busy = true ∧ (0x028 : PortAddr).toNat % 8 = 0 ∧
    (∃ t, step { pending 0x20 with schedule := [.read 0x028 8] } = .next t) ∧
    (∃ t, step { pending 0x20 with schedule := [.read 0x028 8], result := 1, ctxs := [] } = .next t) ∧
    { pending 0x20 with result := 1, ctxs := [] }.byteAt 0x10000 = (pending 0x20).byteAt 0x10000 :=
  ⟨rfl, by decide, ⟨_, rfl⟩, ⟨_, rfl⟩, rfl⟩

/-- V9-14 to V9-16: the changes of the line. -/
theorem witness_IrqFollowsDoneAndEnable :
    (EngineNext (pending 0x21) ∧ (pending 0x21).busy = true ∧ ∃ t, step (pending 0x21) = .next t) ∧
    (EngineNext (scheduled 0x21) ∧ (scheduled 0x21).busy = true ∧ ∃ t, step (scheduled 0x21) = .next t) ∧
    (∃ t, step { idle with schedule := [.write 0x010 8 1] } = .next t) ∧
    ((2 : Word).getLsbD 1 = true ∧ ∃ t, step { idle with schedule := [.write 0x008 8 2] } = .next t) ∧
    (idle.busy = false ∧ ∃ t, step { idle with schedule := [.write 0x000 8 0x21] } = .next t) ∧
    (∃ t, step { idle with schedule := [.reset] } = .next t) :=
  ⟨⟨.inl rfl, rfl, _, rfl⟩, ⟨.inr ⟨_, rfl⟩, rfl, _, rfl⟩, ⟨_, rfl⟩, ⟨by decide, _, rfl⟩, ⟨rfl, _, rfl⟩, ⟨_, rfl⟩⟩

theorem witness_ResetRestoresEveryRegister :
    { pending 0x21 with schedule := [.reset, .engine] }.schedule = .reset :: [.engine] := rfl

theorem witness_ResetStateIsIdle : 0 < State.reset.cfg.nctx := nctx_pos _

/-- A state that meets the invariant, a busy one among them, and its step. -/
theorem witness_StepKeepsInvariant :
    EngineInv idle ∧ EngineInv (pending 0x21) ∧ ∃ t, step (pending 0x21) = .next t :=
  ⟨idle_inv, ⟨idle_inv.1, idle_inv.2, by rintro w ⟨⟩; exact ⟨rfl, rfl⟩, idle_inv.4, idle_inv.5, idle_inv.6⟩, _, rfl⟩

theorem witness_LegalStepsNeverStop :
    ∀ e, { idle with schedule := [.write 0x018 8 5, .read 3 1] }.schedule.head? = some e → LegalEvent e := by
  rintro e ⟨⟩
  exact (by decide : accessOk 0x018 8 = true)

end Sys2Proof.Tests
end

/-! The engine's state (spec/10_state.md): what a command can do to each register and buffer, what a step can be, the
invariant, and the host's view of the registers and windows. -/

namespace Sys2Proof.Proofs

open Sys2Proof.Machine Sys2Proof.Safety Sys2Proof.Claims Sys2Proof.Laws

/-! ### What a command writes -/

/-- A byte that a command may write: `SLOTS` in `IDXBUF`, `SER` in `SERBUF` (41_hash_pipeline.md R104, 44_codec.md R151). -/
def CommandWrites (p : Config) (i : Instr) (b : Nat) : Prop :=
  ((∃ ca, i = .slots ca) ∧ idxbufBase ≤ b ∧ b < idxbufBase + 8 * p.kMax) ∨
  ((∃ ca, i = .ser ca) ∧ serbufBase ≤ b ∧ b < serbufBase + p.serMax)

theorem inBuffer_of_commandWrites {p : Config} {i : Instr} {b : Nat} (h : CommandWrites p i b) : InBuffer p b :=
  .inr (h.imp And.right And.right)

theorem valid_k_le {s : State} (hs : EngineInv s) {c : Nat} (hc : c < s.cfg.nctx) (hv : (s.ctx c).valid = true) :
    (s.ctx c).k.toNat ≤ s.cfg.kMax := by
  obtain ⟨-, -, hk, -⟩ := (inv_ctx hs hc).2 hv
  exact hk

/-- What a meaning's next state can be, with what its later proofs need: a failing end, a successful end that writes nothing,
or one of the five kinds of write. It is `exec_next_cases` and `commandOf_cases` in one, with a name for each case. -/
inductive ExecEffect (i : Instr) (s : State) : State → Prop where
  | failed (e : ErrCode) : ExecEffect i s (raise e s)
  | answered (v : Word) : ExecEffect i s (complete v s)
  | destroyed (v : Word) (ca : Nat) : ExecEffect i s (complete v (s.setCtx ca { s.ctx ca with valid := false }))
  | constructed (v : Word) (c : Nat) (var : Variant) (ovf : Policy) (m k n : Word) (new : List Byte) :
      ExecEffect i s (complete v (s.construct c var ovf m k n new))
  | mutated (v : Word) {ca : Nat} {f : Byte → Byte × Bool} (L : List Nat)
      (name : i = .add ca ∨ i = .testadd ca ∨ i = .testrem ca)
      (visit : f = (s.ctx ca).addStep ∨ f = decSlot (s.ctx ca).ovf ∧ (s.ctx ca).var = .cbf) :
      ExecEffect i s (complete v (mutate s ca f L))
  | indexed (v : Word) {ca : Nat} {L : List Nat} (name : i = .slots ca) (inRange : ca < s.cfg.nctx)
      (valid : (s.ctx ca).valid = true) (entries : L.length = (s.ctx ca).k.toNat) :
      ExecEffect i s (complete v { s.setIdxEntries L with idxcnt := (s.ctx ca).k })
  | serialized (v : Word) {ca : Nat} (name : i = .ser ca) (fits : (serialize (s.ctx ca).filter).length ≤ s.cfg.serMax) :
      ExecEffect i s (complete v { s.setBytes serbufBase (serialize (s.ctx ca).filter) with
        serlen := BitVec.ofNat 64 (serialize (s.ctx ca).filter).length })

theorem exec_effect {i : Instr} {s t : State} (h : exec i s = .next t) : ExecEffect i s t := by
  rcases exec_next_cases h with ⟨e, -, rfl⟩ | ⟨u, v, hc, rfl⟩
  · exact .failed e
  · rcases commandOf_cases hc with rfl | ⟨ca, -, -, rfl⟩ | ⟨c, var, ovf, m, k, n, new, -, rfl⟩ |
      ⟨ca, f, L, hi, -, -, -, hf, rfl⟩ | ⟨ca, L, hi, hca, hv, hL, rfl⟩ | ⟨ca, hi, -, -, hl, rfl⟩
    · exact .answered v
    · exact .destroyed v ca
    · exact .constructed v c var ovf m k n new
    · exact .mutated v L hi hf
    · exact .indexed v hi hca hv (slotsForKey_length hL)
    · exact .serialized v hi hl

/-- The memory after a meaning: one range write, of no bytes for every command but `SLOTS` and `SER`. -/
theorem exec_mem {i : Instr} {s t : State} (hs : EngineInv s) (h : exec i s = .next t) :
    ∃ a vs, t.mem = memSetRange s.mem a vs ∧ ∀ b, a ≤ b → b < a + vs.length → CommandWrites s.cfg i b := by
  cases exec_effect h with
  | @indexed v ca L name inRange valid entries =>
    have hk := valid_k_le hs inRange valid
    refine ⟨idxbufBase, _, rfl, fun b h1 h2 => .inl ⟨⟨ca, name⟩, h1, ?_⟩⟩
    rw [entryBytes_length] at h2
    omega
  | @serialized v ca name fits =>
    exact ⟨serbufBase, _, rfl, fun b h1 h2 => .inr ⟨⟨ca, name⟩, h1, by omega⟩⟩
  | failed | answered | destroyed | constructed | mutated =>
    exact ⟨0, [], rfl, fun b _ h2 => absurd h2 (Nat.not_lt_zero b)⟩

/-- A byte that the command does not write reads as before. -/
theorem exec_byteAt {i : Instr} {s t : State} (hs : EngineInv s) (h : exec i s = .next t) {b : Nat}
    (hb : ¬CommandWrites s.cfg i b) : t.byteAt b = s.byteAt b := by
  obtain ⟨a, vs, hm, hw⟩ := exec_mem hs h
  have hr : t.resets = s.resets := by rw [exec_frame h]
  calc t.byteAt b = (s.setBytes a vs).byteAt b := byteAt_of_mem (s := s.setBytes a vs) hm hr b
    _ = s.byteAt b := byteAt_setBytes_out s vs fun hab => hb (hw b hab.1 hab.2)

/-- `IDXCNT` is written by `SLOTS` only, with the `k` of its context (41_hash_pipeline.md R104). -/
theorem exec_idxcnt {i : Instr} {s t : State} (h : exec i s = .next t) :
    t.idxcnt = s.idxcnt ∨
    ∃ ca, i = .slots ca ∧ ca < s.cfg.nctx ∧ (s.ctx ca).valid = true ∧ t.idxcnt = (s.ctx ca).k := by
  cases exec_effect h with
  | indexed v name inRange valid => exact .inr ⟨_, name, inRange, valid, rfl⟩
  | failed | answered | destroyed | constructed | mutated | serialized => exact .inl rfl

/-- `SERLEN` is written by `SER` only (44_codec.md R151). -/
theorem exec_serlen {i : Instr} {s t : State} (h : exec i s = .next t) (hi : ∀ ca, i ≠ .ser ca) :
    t.serlen = s.serlen := by
  cases exec_effect h with
  | serialized v name => exact absurd name (hi _)
  | failed | answered | destroyed | constructed | mutated | indexed => rfl

/-- No command changes how many contexts there are. -/
theorem exec_ctxs_length {i : Instr} {s t : State} (h : exec i s = .next t) : t.ctxs.length = s.ctxs.length := by
  cases exec_effect h with
  | destroyed | constructed | mutated => exact List.length_set
  | failed | answered | indexed | serialized => rfl

theorem mutate_ctrovf (s : State) (c : Nat) (f : Byte → Byte × Bool) (L : List Nat) :
    (mutate s c f L).ctrovf = (s.ctrovf || (touchEach f L (s.ctx c).slots).2) := rfl

/-- `CTROVF` after a meaning: as before, or set by a successful mutation of a CBF, since setting the slots of a BF never
overflows (42_slot_ops.md R112, R115). -/
theorem exec_ctrovf {i : Instr} {s t : State} (h : exec i s = .next t) :
    t.ctrovf = s.ctrovf ∨
    t.ctrovf = true ∧ ∃ ca, (i = .add ca ∨ i = .testadd ca ∨ i = .testrem ca) ∧ (s.ctx ca).var = .cbf ∧ t.err = .ok := by
  cases exec_effect h with
  | @mutated v ca f L name visit =>
    cases hvar : (s.ctx ca).var with
    | bf =>
      obtain rfl : f = (s.ctx ca).addStep := visit.resolve_right fun hd => by simp [hvar] at hd
      exact .inl (by simp [mutate_ctrovf, Ctx.addStep, hvar])
    | cbf =>
      cases hflag : (touchEach f L (s.ctx ca).slots).2 with
      | false => exact .inl (by simp [mutate_ctrovf, hflag])
      | true => exact .inr ⟨by simp [mutate_ctrovf, hflag], ca, name, hvar, rfl⟩
  | failed | answered | destroyed | constructed | indexed | serialized => exact .inl rfl

/-! ### What a step can be -/

/-- What a host write to an 8-aligned address does: it is ignored, it is an overrun (70_reset_and_hazards.md R203), or it
writes one register or eight bytes of one buffer (10_state.md R14 to R19, R27, R29). -/
inductive WriteEffect (a : Nat) (v : Word) (s : State) : State → Prop where
  | ignored : WriteEffect a v s s
  | overrun (busy : s.busy = true) : WriteEffect a v s { s with ovr := true }
  | cmd (idle : s.busy = false) : WriteEffect a v s (acceptCommand v s)
  | status : WriteEffect a v s (writeStatus v s)
  | ctrl : WriteEffect a v s (writeCtrl v s)
  | arg0 (idle : s.busy = false) : WriteEffect a v s { s with arg0 := v }
  | arg1 (idle : s.busy = false) : WriteEffect a v s { s with arg1 := v }
  | keylen (idle : s.busy = false) : WriteEffect a v s { s with keylen := v }
  | serlen (idle : s.busy = false) : WriteEffect a v s { s with serlen := v }
  | bytes (idle : s.busy = false) (inside : ∀ b, a ≤ b → b < a + 8 → InBuffer s.cfg b) :
      WriteEffect a v s (s.setBytes a (wordBytes v))

theorem inputWrite_effect {a : Nat} {v : Word} {s t : State} (h : s.busy = false → WriteEffect a v s t) :
    WriteEffect a v s (inputWrite s t) := by
  cases hb : s.busy with
  | true => rw [inputWrite_busy t hb]; exact .overrun hb
  | false => rw [inputWrite_idle t hb]; exact h hb

theorem writeReg_effect (a : Nat) (r : Reg) (v : Word) (s : State) : WriteEffect a v s (writeReg r v s) := by
  cases r with
  | cmd => exact inputWrite_effect .cmd
  | status => exact .status
  | ctrl => exact .ctrl
  | arg0 => exact inputWrite_effect .arg0
  | arg1 => exact inputWrite_effect .arg1
  | keylen => exact inputWrite_effect .keylen
  | serlen => exact inputWrite_effect .serlen
  | result | idxcnt | capNctx | capMmax | capKmax | capKeymax | capSermax => exact .ignored

theorem lt_of_locate_keybuf {p : Config} {a : Nat} (h : locate p a = .keybuf) :
    keybufBase ≤ a ∧ a < keybufBase + p.keyMax := by
  have e : keybufBase = 0x10000 := rfl
  unfold locate at h
  repeat' split at h
  all_goals cases h
  omega

theorem lt_of_locate_serbuf {p : Config} {a : Nat} (h : locate p a = .serbuf) :
    serbufBase ≤ a ∧ a < serbufBase + p.serMax := by
  have e : serbufBase = 0x1000000 := rfl
  unfold locate at h
  repeat' split at h
  all_goals cases h
  omega

/-- The eight bytes of an aligned word of `KEYBUF` lie in `KEYBUF`, whose size is a multiple of 8 (00_scope.md R5). -/
theorem keybuf_word {p : Config} {a : Nat} (h : locate p a = .keybuf) (ha : a % 8 = 0) :
    keybufBase ≤ a ∧ a + 8 ≤ keybufBase + p.keyMax := by
  have := lt_of_locate_keybuf h
  have := keyMax_mod p
  have e : keybufBase = 0x10000 := rfl
  omega

/-- The eight bytes of an aligned word of `SERBUF` lie in `SERBUF`, whose size is a multiple of 8 (00_scope.md R5). -/
theorem serbuf_word {p : Config} {a : Nat} (h : locate p a = .serbuf) (ha : a % 8 = 0) :
    serbufBase ≤ a ∧ a + 8 ≤ serbufBase + p.serMax := by
  have := lt_of_locate_serbuf h
  have := serMax_mod p
  have e : serbufBase = 0x1000000 := rfl
  omega

theorem hostWrite_effect {a : Nat} (v : Word) (s : State) (ha : a % 8 = 0) : WriteEffect a v s (hostWrite a v s) := by
  unfold hostWrite
  cases hl : locate s.cfg a with
  | reg r => exact writeReg_effect a r v s
  | keybuf =>
    have := keybuf_word hl ha
    exact inputWrite_effect fun hi => .bytes hi fun b h1 h2 => .inl (by omega)
  | serbuf =>
    have := serbuf_word hl ha
    exact inputWrite_effect fun hi => .bytes hi fun b h1 h2 => .inr (.inr (by omega))
  | idxbuf | razwi => exact .ignored

/-- The state in which the next move is made: its event, if one is scheduled, is taken off the schedule. -/
def unscheduled (s : State) : State := { s with schedule := s.schedule.tail }

theorem unscheduled_of_nil {s : State} (h : s.schedule = []) : unscheduled s = s := by
  cases s
  cases h
  rfl

theorem unscheduled_of_cons {s : State} {e : Event} {rest : List Event} (h : s.schedule = e :: rest) :
    unscheduled s = { s with schedule := rest } := by
  rw [unscheduled, h, List.tail_cons]

/-- What one step from `s` to `t` is (20_memory.md R48). -/
inductive StepEffect (s : State) : State → Prop where
  | idle (empty : s.pending = none) : StepEffect s (unscheduled s)
  | command {w : Word} {i : Instr} {t : State} (latched : s.pending = some w) (decodes : decode w = .ok i)
      (ends : exec i (unscheduled s) = .next t) : StepEffect s t
  | illegal {w : Word} (latched : s.pending = some w) : StepEffect s (raise .illegalCmd (unscheduled s))
  | read (a : Nat) : StepEffect s (hostRead a (unscheduled s))
  | write {a : Nat} (v : Word) (aligned : a % 8 = 0) : StepEffect s (hostWrite a v (unscheduled s))
  | reset : StepEffect s (hostReset (unscheduled s))

theorem engineTurn_effect {s t : State} (h : engineTurn (unscheduled s) = .next t) : StepEffect s t := by
  unfold engineTurn at h
  have hp : (unscheduled s).pending = s.pending := rfl
  rw [hp] at h
  cases hw : s.pending with
  | none =>
    rw [hw] at h
    cases h
    exact .idle hw
  | some w =>
    rw [hw] at h
    dsimp only at h
    cases hd : decode w with
    | ok i =>
      rw [hd] at h
      exact .command hw hd h
    | error r =>
      rw [hd] at h
      cases h
      exact .illegal hw

theorem accessOk_eq_true {a : PortAddr} {size : Nat} : accessOk a size = true ↔ size = 8 ∧ a.toNat % 8 = 0 := by
  simp [accessOk]

/-- Every step is one of the moves of `StepEffect`. -/
theorem step_effect {s t : State} (h : step s = .next t) : StepEffect s t := by
  unfold step nextMove at h
  cases hs : s.schedule with
  | nil =>
    rw [hs] at h
    exact engineTurn_effect ((unscheduled_of_nil hs).symm ▸ h)
  | cons e rest =>
    rw [hs] at h
    dsimp only at h
    rw [← unscheduled_of_cons hs] at h
    cases e with
    | engine => exact engineTurn_effect h
    | reset =>
      cases h
      exact .reset
    | read a size =>
      by_cases ha : accessOk a size = true
      · simp only [eventTurn, if_pos ha] at h
        cases h
        exact .read a.toNat
      · simp [eventTurn, ha] at h
    | write a size v =>
      by_cases ha : accessOk a size = true
      · simp only [eventTurn, if_pos ha] at h
        cases h
        exact .write v (accessOk_eq_true.1 ha).2
      · simp [eventTurn, ha] at h

/-! ### The invariant holds after reset and every step keeps it -/

/-- After a reset every context is invalid with `M_MAX` slots, the latch empty and no byte written (10_state.md R31). -/
theorem powerOn_engineInv (p : Config) (n : Nat) : EngineInv (State.powerOn p n) where
  ctxCount := by simp [State.powerOn]
  ctxsOk x hx := by
    obtain ⟨c, -, rfl⟩ := List.mem_map.1 hx
    exact ⟨by simp [Ctx.powerOn, State.powerOn], nofun⟩
  latch := nofun
  idxcntOk := Nat.zero_le _
  memCanonical := .nil
  memInBuffers := nofun

/-- The host's own fields, which the reset input leaves, are no part of the invariant. -/
theorem hostReset_engineInv (s : State) : EngineInv (hostReset s) :=
  { powerOn_engineInv s.cfg (s.resets + 1) with }

theorem unscheduled_engineInv {s : State} (h : EngineInv s) : EngineInv (unscheduled s) := { h with }

theorem raise_engineInv {s : State} (h : EngineInv s) (e : ErrCode) : EngineInv (raise e s) := { h with latch := nofun }

theorem hostRead_engineInv {s : State} (h : EngineInv s) (a : Nat) : EngineInv (hostRead a s) := by
  unfold hostRead
  split
  · exact { h with }
  · exact { h with }

theorem writeEffect_engineInv {a : Nat} {v : Word} {s t : State} (h : EngineInv s) (hw : WriteEffect a v s t) :
    EngineInv t := by
  cases hw with
  | ignored => exact h
  | cmd =>
    refine { h with latch := ?_ }
    rintro w ⟨⟩
    exact ⟨rfl, rfl⟩
  | status => exact { h with latch := fun w hw => (h.latch w hw).imp_right fun hd => by simp [hd] }
  | bytes _ inside =>
    refine { h with
      memCanonical := memSetRange_wf h.memCanonical a _
      memInBuffers := setBytes_inBuffers h.memInBuffers fun b h1 h2 => inside b h1 ?_ }
    rwa [wordBytes_length] at h2
  | overrun | ctrl | arg0 | arg1 | keylen | serlen => exact { h with }

theorem exec_idxcnt_le {i : Instr} {s t : State} (h : EngineInv s) (ht : exec i s = .next t) :
    t.idxcnt.toNat ≤ s.cfg.kMax := by
  rcases exec_idxcnt ht with hi | ⟨ca, -, hc, hv, hi⟩
  · exact hi ▸ h.idxcntOk
  · exact hi ▸ valid_k_le h hc hv

theorem exec_ctxsOk {i : Instr} {s t : State} (h : EngineInv s) (ht : exec i s = .next t) :
    ∀ x ∈ t.ctxs, CtxOk s.cfg x := by
  rcases exec_next_cases ht with ⟨e, -, rfl⟩ | ⟨u, v, hc, rfl⟩
  · exact h.ctxsOk
  · exact commandOf_ctxsOk (u := u) h hc

theorem exec_engineInv {i : Instr} {s t : State} (h : EngineInv s) (ht : exec i s = .next t) : EngineInv t := by
  have hcfg : t.cfg = s.cfg := by rw [exec_frame ht]
  have hpending : t.pending = none := by rw [exec_frame ht]
  obtain ⟨a, vs, hm, hw⟩ := exec_mem h ht
  exact {
    ctxCount := by rw [exec_ctxs_length ht, hcfg, h.ctxCount]
    ctxsOk := hcfg ▸ exec_ctxsOk h ht
    latch := by simp [hpending]
    idxcntOk := hcfg ▸ exec_idxcnt_le h ht
    memCanonical := hm ▸ memSetRange_wf h.memCanonical a vs
    memInBuffers := by
      rw [hcfg, hm]
      exact setBytes_inBuffers h.memInBuffers fun b h1 h2 => inBuffer_of_commandWrites (hw b h1 h2) }

/-- Settles O57: each kind of move keeps the invariant. -/
theorem stepKeepsInvariant : Obligations.StepKeepsInvariant := by
  intro s t hs ht
  have h := unscheduled_engineInv hs
  cases step_effect ht with
  | idle => exact h
  | command _ _ ends => exact exec_engineInv h ends
  | illegal => exact raise_engineInv h _
  | read a => exact hostRead_engineInv h a
  | write v aligned => exact writeEffect_engineInv h (hostWrite_effect v _ aligned)
  | reset => exact hostReset_engineInv _

/-- Settles O58: the state after power-on meets the invariant, whatever the parameters. -/
theorem resetMeetsInvariant : Obligations.ResetMeetsInvariant := powerOn_engineInv _ _

/-- Settles O42: the frame of every meaning, and the few registers and bytes that a command can write. -/
theorem commandsLeaveHostInputs : Obligations.CommandsLeaveHostInputs := by
  intro i s t hs ht
  have hkey := keyMax_le s.cfg
  have hk := kMax_le s.cfg
  have e1 : keybufBase = 0x10000 := rfl
  have e2 : idxbufBase = 0x20000 := rfl
  have e3 : serbufBase = 0x1000000 := rfl
  refine ⟨?_, fun a h1 h2 => ?_, fun hi => ⟨exec_serlen ht hi, fun a h1 => ?_⟩, fun hi => ⟨?_, fun a h1 h2 => ?_⟩, ?_, ?_⟩
  · rw [exec_frame ht]
    exact ⟨rfl, rfl, rfl, rfl, rfl, rfl, rfl⟩
  · refine exec_byteAt hs ht ?_
    rintro (⟨-, h3, -⟩ | ⟨-, h3, -⟩) <;> omega
  · refine exec_byteAt hs ht ?_
    rintro (⟨-, -, h3⟩ | ⟨⟨ca, hser⟩, -⟩)
    · omega
    · exact hi ca hser
  · exact (exec_idxcnt ht).resolve_right fun ⟨ca, hslots, _⟩ => hi ca hslots
  · refine exec_byteAt hs ht ?_
    rintro (⟨⟨ca, hslots⟩, -⟩ | ⟨-, h3, -⟩)
    · exact hi ca hslots
    · omega
  · intro hset
    rcases exec_ctrovf ht with h | ⟨h, -⟩
    · rw [h, hset]
    · exact h
  · intro hne
    obtain ⟨-, hca⟩ := (exec_ctrovf ht).resolve_left hne
    exact hca

/-! ### Steps go on, and the parameters stay -/

theorem hostRead_cfg (a : Nat) (s : State) : (hostRead a s).cfg = s.cfg := by
  unfold hostRead
  split <;> rfl

theorem hostRead_schedule (a : Nat) (s : State) : (hostRead a s).schedule = s.schedule := by
  unfold hostRead
  split <;> rfl

theorem writeEffect_cfg {a : Nat} {v : Word} {s t : State} (h : WriteEffect a v s t) : t.cfg = s.cfg := by
  cases h <;> rfl

theorem writeEffect_schedule {a : Nat} {v : Word} {s t : State} (h : WriteEffect a v s t) :
    t.schedule = s.schedule := by
  cases h <;> rfl

/-- No step writes the parameters (10_state.md R12). -/
theorem step_cfg {s t : State} (h : step s = .next t) : t.cfg = s.cfg := by
  cases step_effect h with
  | idle | illegal | reset => rfl
  | command _ _ ends => rw [exec_frame ends]; rfl
  | read a => exact hostRead_cfg a _
  | write v aligned => exact writeEffect_cfg (s := unscheduled s) (hostWrite_effect v _ aligned)

/-- A step takes its own event off the schedule and no other. -/
theorem step_schedule {s t : State} (h : step s = .next t) : t.schedule = s.schedule.tail := by
  cases step_effect h with
  | idle | illegal | reset => rfl
  | command _ _ ends => rw [exec_frame ends]; rfl
  | read a => exact hostRead_schedule a _
  | write v aligned => exact writeEffect_schedule (s := unscheduled s) (hostWrite_effect v _ aligned)

/-- The engine's turn always gives a next state (60_exceptions.md R173). -/
theorem engineTurn_next (s : State) : ∃ t, engineTurn s = .next t := by
  unfold engineTurn
  split
  · exact ⟨s, rfl⟩
  · split
    · exact ⟨_, exec_eq_finish _ s⟩
    · exact ⟨_, rfl⟩

theorem eventTurn_next {e : Event} (h : LegalEvent e) (s : State) : ∃ t, eventTurn e s = .next t := by
  cases e with
  | engine => exact engineTurn_next s
  | reset => exact ⟨_, rfl⟩
  | read a size => exact ⟨_, if_pos h⟩
  | write a size v => exact ⟨_, if_pos h⟩

/-- Settles O59: every legal move gives a next state, and no kind of move writes the parameters. -/
theorem legalStepsNeverStop : Obligations.LegalStepsNeverStop := by
  intro s hlegal
  have hnext : ∃ t, step s = .next t := by
    unfold step nextMove
    cases hs : s.schedule with
    | nil => exact engineTurn_next s
    | cons e rest => exact eventTurn_next (hlegal e (by rw [hs, List.head?_cons])) _
  obtain ⟨t, ht⟩ := hnext
  exact ⟨t, ht, step_cfg ht, step_schedule ht⟩

/-! ### Reset -/

/-- Every context after a reset is invalid and has every field 0 (10_state.md R31). -/
theorem powerOn_ctx_fields {p : Config} {n : Nat} {x : Ctx} (h : x ∈ (State.powerOn p n).ctxs) :
    x.valid = false ∧ x.var = .bf ∧ x.ovf = .wrap ∧ x.m = 0 ∧ x.k = 0 ∧ x.count = 0 := by
  obtain ⟨c, -, rfl⟩ := List.mem_map.1 h
  exact ⟨rfl, rfl, rfl, rfl, rfl, rfl⟩

/-- Settles O55: the state after the reset input is the state after power-on but for the host's own fields. -/
theorem resetRestoresEveryRegister : Obligations.ResetRestoresEveryRegister := by
  intro s rest hs
  exact ⟨_, step_reset hs, rfl, rfl, rfl, rfl, rfl, rfl, rfl, rfl, rfl, rfl, rfl, rfl, (hostReset_engineInv _).ctxCount,
    fun x hx => powerOn_ctx_fields hx, fun a => rfl, rfl⟩

/-- Settles O56: every field of the state after power-on is given, and every context is an empty one. -/
theorem resetStateIsIdle : Obligations.ResetStateIsIdle := by
  have hlen : State.reset.ctxs.length = State.reset.cfg.nctx := (powerOn_engineInv _ _).ctxCount
  exact ⟨rfl, rfl, rfl, rfl, rfl, rfl, rfl, rfl, rfl, rfl, rfl, hlen,
    fun c hc => powerOn_ctx_fields (ctx_mem (hlen.symm ▸ hc))⟩

/-! ### Registers at the host port -/

/-- The registers stand at 8-aligned offsets of the register block (10_state.md R13). -/
theorem regAt_some {n : Nat} {r : Reg} (h : regAt n = some r) : n % 8 = 0 ∧ n < 0x10000 := by
  unfold regAt at h
  split at h
  all_goals cases h
  all_goals decide

theorem step_writeReg {s : State} {a : PortAddr} {v : Word} {rest : List Event} {r : Reg}
    (h : s.schedule = .write a 8 v :: rest) (hr : regAt a.toNat = some r) :
    step s = .next (writeReg r v { s with schedule := rest }) := by
  obtain ⟨ha, hlt⟩ := regAt_some hr
  rw [step_write h ha, hostWrite, locate_reg _ hlt hr]

/-- A write to a command input while idle stands. -/
theorem step_writeReg_idle {s t : State} {a : PortAddr} {v : Word} {rest : List Event} {r : Reg}
    (hb : s.busy = false) (h : s.schedule = .write a 8 v :: rest) (hr : regAt a.toNat = some r)
    (hw : writeReg r v { s with schedule := rest } = inputWrite { s with schedule := rest } t) : step s = .next t := by
  rw [step_writeReg h hr, hw, inputWrite_idle (s := { s with schedule := rest }) t hb]

theorem readReg_schedule (s : State) (rest : List Event) (r : Reg) :
    readReg { s with schedule := rest } r = readReg s r := by
  cases r <;> rfl

theorem portValue_schedule (s : State) (rest : List Event) (a : Nat) :
    portValue { s with schedule := rest } a = portValue s a := by
  unfold portValue
  cases locate s.cfg a with
  | reg r => exact readReg_schedule s rest r
  | keybuf | idxbuf | serbuf => exact wordAt_of_mem rfl rfl a
  | razwi => rfl

/-- A read of what is no command output, or of anything while idle, returns the value that stands there and changes nothing
else (20_memory.md R46). -/
theorem step_read_value {s : State} {a : PortAddr} {rest : List Event} (h : s.schedule = .read a 8 :: rest)
    (ha : a.toNat % 8 = 0) (ho : (s.busy && (locate s.cfg a.toNat).isOutput) = false) :
    step s = .next { s with schedule := rest, rdata := portValue s a.toNat } := by
  rw [step_read h ha, hostRead_value (s := { s with schedule := rest }) ho, portValue_schedule]

theorem step_readReg {s : State} {a : PortAddr} {rest : List Event} {r : Reg} (h : s.schedule = .read a 8 :: rest)
    (hr : regAt a.toNat = some r) (ho : (s.busy && (Location.reg r).isOutput) = false) :
    step s = .next { s with schedule := rest, rdata := readReg s r } := by
  obtain ⟨ha, hlt⟩ := regAt_some hr
  have hl : locate s.cfg a.toNat = .reg r := locate_reg _ hlt hr
  rw [step_read_value h ha (by rw [hl]; exact ho), portValue, hl]

/-- Settles O43: `CMD` is an input register, and no command output. -/
theorem cmdWriteStartsCommand : Obligations.CmdWriteStartsCommand := by
  refine ⟨fun s v rest h => ⟨fun hb => step_writeReg_idle hb h rfl rfl, fun hb => ?_⟩, fun s rest h => ?_, rfl⟩
  · rw [step_writeReg h rfl]
    exact congrArg _ (inputWrite_busy _ hb)
  · exact step_readReg h rfl (Bool.and_false _)

/-- Settles O45: the four operand registers are input registers. -/
theorem idleWritesStoreOperands : Obligations.IdleWritesStoreOperands := fun _ _ _ hb =>
  ⟨fun h => step_writeReg_idle hb h rfl rfl, fun h => step_writeReg_idle hb h rfl rfl,
    fun h => step_writeReg_idle hb h rfl rfl, fun h => step_writeReg_idle hb h rfl rfl⟩

/-! ### The `STATUS` word (10_state.md R15) -/

theorem code_lt (e : ErrCode) : e.code < 10 := by cases e <;> decide

/-- The fields of `STATUS` as one number: they fit the word. -/
theorem statusWord_toNat (s : State) : s.statusWord.toNat =
    s.busy.toNat + 2 * s.done.toNat + 4 * s.ovr.toNat + 8 * s.ctrovf.toNat + 256 * s.err.code := by
  have := code_lt s.err
  have := s.busy.toNat_le
  have := s.done.toNat_le
  have := s.ovr.toNat_le
  have := s.ctrovf.toNat_le
  rw [State.statusWord, BitVec.toNat_ofNat, Nat.mod_eq_of_lt (by omega)]

theorem getLsbD_of_toNat {w : Word} {i : Nat} {b : Bool} (h : w.toNat / 2 ^ i % 2 = b.toNat) : w.getLsbD i = b := by
  rw [BitVec.getLsbD, Nat.testBit_eq_decide_div_mod_eq, h]
  cases b <;> rfl

/-- The layout of `STATUS`. -/
theorem statusWord_layout (s : State) :
    s.statusWord.getLsbD 0 = s.busy ∧ s.statusWord.getLsbD 1 = s.done ∧ s.statusWord.getLsbD 2 = s.ovr ∧
    s.statusWord.getLsbD 3 = s.ctrovf ∧ s.statusWord.toNat / 16 % 16 = 0 ∧ s.statusWord.toNat / 256 = s.err.code := by
  have h := statusWord_toNat s
  have := s.busy.toNat_le
  have := s.done.toNat_le
  have := s.ovr.toNat_le
  have := s.ctrovf.toNat_le
  refine ⟨getLsbD_of_toNat ?_, getLsbD_of_toNat ?_, getLsbD_of_toNat ?_, getLsbD_of_toNat ?_, ?_, ?_⟩
  all_goals omega

/-- Settles O46: neither register is an input or an output of a command, so `BUSY` plays no part. -/
theorem statusAndCtrlAccess : Obligations.StatusAndCtrlAccess := by
  intro s v rest
  refine ⟨fun h => step_writeReg h rfl, fun h => step_writeReg h rfl, fun h => ?_, fun h => ?_⟩
  · exact ⟨_, step_readReg h rfl (Bool.and_false _), statusWord_layout s⟩
  · exact step_readReg h rfl (Bool.and_false _)

/-! ### What reads return -/

theorem portValue_idxbuf {s : State} {i : Nat} (h : i < s.cfg.kMax) : portValue s (0x20000 + 8 * i) = s.idxEntry i := by
  rw [portValue, locate_idxbuf s.cfg (by omega) (by omega)]
  rfl

theorem portValue_serbuf {s : State} {a : Nat} (h1 : 0x1000000 ≤ a) (h2 : a < 0x1000000 + s.cfg.serMax) :
    portValue s a = s.wordAt a := by
  rw [portValue, locate_serbuf s.cfg h1 h2]

/-- Settles O50: an idle read returns the value that stands at the address. -/
theorem idleReadsOfOutputs : Obligations.IdleReadsOfOutputs := by
  intro s a rest hb ha h
  have hread := step_read_value h ha (by rw [hb, Bool.false_and])
  refine ⟨?_, ?_, ?_, fun i hi hai => ?_, fun h1 h2 => ?_⟩
  · rintro rfl
    exact hread
  · rintro rfl
    exact hread
  · rintro rfl
    exact hread
  · rwa [hai, portValue_idxbuf hi] at hread
  · rw [portValue_serbuf h1 h2] at hread
    exact ⟨_, hread, fun i hi => wordAt_byte s a.toNat i hi⟩

/-- Two states that differ only in what a busy host may not learn: the contexts, the command outputs and the buffers. -/
def SameButOutputs (s s' : State) : Prop :=
  s' = { s with ctxs := s'.ctxs, result := s'.result, serlen := s'.serlen, idxcnt := s'.idxcnt, mem := s'.mem }

theorem readReg_of_sameButOutputs {s s' : State} (h : SameButOutputs s s') {r : Reg}
    (hr : (Location.reg r).isOutput = false) : readReg s' r = readReg s r := by
  rw [h]
  cases r with
  | result | serlen | idxcnt => cases hr
  | cmd | status | ctrl | arg0 | arg1 | keylen | capNctx | capMmax | capKmax | capKeymax | capSermax => rfl

/-- What is no command output reads alike in the two states, `KEYBUF` when its bytes do. -/
theorem portValue_of_sameButOutputs {s s' : State} (h : SameButOutputs s s')
    (hkey : ∀ b, keybufBase ≤ b → b < keybufBase + s.cfg.keyMax → s'.byteAt b = s.byteAt b) {a : Nat} (ha : a % 8 = 0)
    (ho : (locate s.cfg a).isOutput = false) : portValue s' a = portValue s a := by
  have hcfg : s'.cfg = s.cfg := by rw [h]
  unfold portValue
  rw [hcfg]
  cases hl : locate s.cfg a with
  | reg r => exact readReg_of_sameButOutputs h (hl ▸ ho)
  | keybuf =>
    have hword := keybuf_word hl ha
    have hbytes : s'.bytesAt a 8 = s.bytesAt a 8 := bytesAt_congr fun i hi => hkey _ (by omega) (by omega)
    simp only [State.wordAt, hbytes]
  | idxbuf | serbuf =>
    rw [hl] at ho
    cases ho
  | razwi => rfl

theorem hostRead_rdata (a : Nat) (s : State) : (hostRead a s).rdata =
    if s.busy && (locate s.cfg a).isOutput then Config.busyRead s.draws else portValue s a := by
  unfold hostRead
  split <;> rfl

/-- What a scheduled read returns. -/
theorem step_read_rdata {s t : State} {a : PortAddr} {rest : List Event} (h : s.schedule = .read a 8 :: rest)
    (ha : a.toNat % 8 = 0) (ht : step s = .next t) : t.rdata =
    if s.busy && (locate s.cfg a.toNat).isOutput then Config.busyRead s.draws else portValue s a.toNat := by
  rw [step_read h ha] at ht
  cases ht
  rw [hostRead_rdata, portValue_schedule]
  rfl

/-- Settles O53: a busy read of an output is a draw, which both states take alike, and nothing else differs in value. -/
theorem busyReadsRevealNoOutput : Obligations.BusyReadsRevealNoOutput := by
  intro s s' t t' a rest hb h ha (hsame : SameButOutputs s s') hkey ht ht'
  have hcfg : s'.cfg = s.cfg := by rw [hsame]
  have hdraws : s'.draws = s.draws := by rw [hsame]
  have hb' : s'.busy = true := by rw [hsame]; exact hb
  have h' : s'.schedule = .read a 8 :: rest := by rw [hsame]; exact h
  rw [step_read_rdata h ha ht, step_read_rdata h' ha ht', hb, hb', hcfg, hdraws, Bool.true_and]
  cases ho : (locate s.cfg a.toNat).isOutput with
  | true => rfl
  | false => exact portValue_of_sameButOutputs hsame hkey ha ho

end Sys2Proof.Proofs

/-! The host port (spec/20_memory.md): which accesses have a meaning, what a read and an ignored write leave alone, the words
of the byte buffers, and the progress of an accepted command. -/

namespace Sys2Proof.Proofs

open Sys2Proof.Machine Sys2Proof.Safety Sys2Proof.Claims Sys2Proof.Laws

/-! ### Progress (20_memory.md R55) -/

/-- After the engine's turn the latch is empty, whatever was in it (60_exceptions.md R171, R172). -/
theorem engineTurn_busy {s t : State} (h : engineTurn s = .next t) : t.busy = false := by
  unfold engineTurn at h
  split at h
  next empty =>
    cases h
    rw [State.busy, empty, Option.isSome_none]
  next =>
    split at h
    next => rw [exec_frame h, State.busy, Option.isSome_none]
    next =>
      cases h
      rfl

theorem step_of_nil {s : State} (h : s.schedule = []) : step s = engineTurn s := by
  rw [step, nextMove, h]

theorem step_of_cons {s : State} {e : Event} {rest : List Event} (h : s.schedule = e :: rest) :
    step s = eventTurn e { s with schedule := rest } := by
  rw [step, nextMove, h]

theorem run_succ_of_step {s t : State} (h : step s = .next t) (n : Nat) : core.run (n + 1) s = core.run n t := by
  have hcore : core.step s = .next t := h
  simp only [Host.Core.run, hcore]

theorem legalSchedule_head {s : State} (h : LegalSchedule s) : ∀ e ∈ s.schedule.head?, LegalEvent e :=
  fun e he => h e (List.mem_of_mem_head? he)

theorem legalSchedule_of_tail {s t : State} (h : LegalSchedule s) (ht : t.schedule = s.schedule.tail) :
    LegalSchedule t :=
  fun e he => h e (List.mem_of_mem_tail (ht ▸ he))

/-- Settles O8, by induction on the schedule: each legal event leaves the rest of the schedule, and its end is the engine's
turn. -/
theorem acceptedCommandsComplete : Obligations.AcceptedCommandsComplete := by
  intro s hlegal
  induction hs : s.schedule generalizing s with
  | nil =>
    obtain ⟨t, ht⟩ := engineTurn_next s
    exact ⟨t, run_succ_of_step ((step_of_nil hs).trans ht) 0, engineTurn_busy ht⟩
  | cons e rest ih =>
    obtain ⟨u, hu, -, hrest⟩ := legalStepsNeverStop s (legalSchedule_head hlegal)
    obtain ⟨t, hrun, hidle⟩ := ih u (legalSchedule_of_tail hlegal hrest) (by rw [hrest, hs, List.tail_cons])
    exact ⟨t, (run_succ_of_step hu _).trans hrun, hidle⟩

/-! ### Accesses without a meaning (20_memory.md R40, R45) -/

theorem accessOk_eq_false {a : PortAddr} {size : Nat} (h : size ≠ 8 ∨ a.toNat % 8 ≠ 0) : accessOk a size = false := by
  rw [Bool.eq_false_iff, Ne, accessOk_eq_true, not_and_or]
  exact h

/-- Settles O52: a scheduled access that the port has no meaning for is refused by its address and size. -/
theorem otherAccessesAreRefused : Obligations.OtherAccessesAreRefused := by
  intro s a size v rest hbad
  have hok := accessOk_eq_false hbad
  constructor <;> intro h <;> rw [step_of_cons h, eventTurn, hok, if_neg Bool.false_ne_true]

/-! ### Reads (20_memory.md R46) -/

/-- A read changes what the host has read and, when it is a draw, the draw counter. -/
theorem hostRead_frame (a : Nat) (s : State) :
    hostRead a s = { s with rdata := (hostRead a s).rdata, draws := (hostRead a s).draws } := by
  unfold hostRead
  split <;> rfl

/-- Settles O51: the frame of a read. -/
theorem readsHaveNoSideEffect : Obligations.ReadsHaveNoSideEffect := by
  intro s a rest ha h
  exact ⟨_, step_read h ha, hostRead_frame _ _⟩

/-! ### Reserved addresses and ignored writes (20_memory.md R43) -/

/-- What stands in the `IDXBUF` window, below and above the buffer's size. -/
theorem locate_idxbuf_window (p : Config) {a : Nat} (h1 : 0x20000 ≤ a) (h2 : a < 0x30000) :
    locate p a = .idxbuf ∨ locate p a = .razwi := by
  by_cases hsize : a < 0x20000 + 8 * p.kMax
  · exact .inl (locate_idxbuf p h1 hsize)
  · exact .inr (locate_razwi p (.inr (.inr (.inl ⟨by omega, by omega⟩))))

/-- The read-only registers ignore a write (10_state.md R13). -/
theorem hostWrite_readOnly {a : Nat} (h : a ∈ [0x28, 0x40, 0x48, 0x50, 0x58, 0x60, 0x68]) (v : Word) (s : State) :
    hostWrite a v s = s := by
  simp only [List.mem_cons, List.not_mem_nil, or_false] at h
  rcases h with rfl | rfl | rfl | rfl | rfl | rfl | rfl <;> rfl

theorem hostWrite_ignored {s : State} {a : Nat} (h : WriteIgnored s.cfg a) (v : Word) : hostWrite a v s = s := by
  rcases h with hraz | hreg | ⟨h1, h2⟩
  · rw [hostWrite, locate_razwi _ hraz]
  · exact hostWrite_readOnly hreg v s
  · rcases locate_idxbuf_window s.cfg h1 h2 with hl | hl <;> rw [hostWrite, hl]

/-- Settles O47: a RAZ/WI address is no command output, so `BUSY` plays no part in a read of it. -/
theorem reservedAddressesReadZero : Obligations.ReservedAddressesReadZero := by
  intro s a v rest ha
  refine ⟨fun hraz h => ?_, fun hign h => ?_⟩
  · have hl : locate s.cfg a.toNat = .razwi := locate_razwi _ hraz
    rw [step_read_value h ha (by rw [hl, Location.isOutput, Bool.and_false]), portValue, hl]
  · rw [step_write h ha, hostWrite_ignored (s := { s with schedule := rest }) hign]

/-! ### The words of `KEYBUF` and `SERBUF` (20_memory.md R42) -/

/-- An address of one of the two buffers that the host writes. -/
def ByteBuffer (p : Config) (a : Nat) : Prop :=
  (0x10000 ≤ a ∧ a < 0x10000 + p.keyMax) ∨ (0x1000000 ≤ a ∧ a < 0x1000000 + p.serMax)

theorem locate_byteBuffer {p : Config} {a : Nat} (h : ByteBuffer p a) : locate p a = .keybuf ∨ locate p a = .serbuf :=
  h.imp (fun ⟨h1, h2⟩ => locate_keybuf p h1 h2) (fun ⟨h1, h2⟩ => locate_serbuf p h1 h2)

theorem hostWrite_byteBuffer {s : State} {a : Nat} (h : ByteBuffer s.cfg a) (v : Word) :
    hostWrite a v s = inputWrite s (s.setBytes a (wordBytes v)) := by
  rcases locate_byteBuffer h with hl | hl <;> rw [hostWrite, hl]

theorem portValue_byteBuffer {s : State} {a : Nat} (h : ByteBuffer s.cfg a) : portValue s a = s.wordAt a := by
  rcases locate_byteBuffer h with hl | hl <;> rw [portValue, hl]

theorem wordBytes_getElem (v : Word) {i : Nat} (h : i < (wordBytes v).length) :
    (wordBytes v)[i] = v.extractLsb' (8 * i) 8 := by
  simp only [wordBytes, List.getElem_map, List.getElem_range]

/-- An idle write to one of the two buffers is a range write of the word's eight bytes. -/
theorem step_write_byteBuffer {s : State} {a : PortAddr} {v : Word} {rest : List Event} (hidle : s.busy = false)
    (ha : a.toNat % 8 = 0) (hbuf : ByteBuffer s.cfg a.toNat) (h : s.schedule = .write a 8 v :: rest) :
    step s = .next (State.setBytes { s with schedule := rest } a.toNat (wordBytes v)) := by
  rw [step_write h ha, hostWrite_byteBuffer (s := { s with schedule := rest }) hbuf]
  exact congrArg _ (inputWrite_idle _ hidle)

/-- An idle read of one of the two buffers returns the word that stands there. -/
theorem step_read_byteBuffer {s : State} {a : PortAddr} {rest : List Event} (hidle : s.busy = false)
    (ha : a.toNat % 8 = 0) (hbuf : ByteBuffer s.cfg a.toNat) (h : s.schedule = .read a 8 :: rest) :
    step s = .next { s with schedule := rest, rdata := s.wordAt a.toNat } := by
  rw [step_read_value h ha (by rw [hidle, Bool.false_and]), portValue_byteBuffer hbuf]

/-- Settles O48: the write is a range write of the word's eight bytes, and the read that follows gives the word of those
bytes. -/
theorem bufferWordsPackLittleEndian : Obligations.BufferWordsPackLittleEndian := by
  intro s a v rest hidle ha (hbuf : ByteBuffer s.cfg a.toNat) h
  refine ⟨_, step_write_byteBuffer hidle ha hbuf h, rfl, fun i hi => ?_, fun b hb => ?_, fun later hrest => ?_⟩
  · rw [← wordBytes_length v] at hi
    rw [byteAt_setBytes_in _ _ _ i hi, wordBytes_getElem]
  · rw [← wordBytes_length v] at hb
    exact byteAt_setBytes_out _ _ hb
  · rw [step_read_byteBuffer (s := State.setBytes { s with schedule := rest } a.toNat (wordBytes v)) hidle ha hbuf hrest,
      wordAt_setBytes]

end Sys2Proof.Proofs

/-! The command word (spec/30_encoding.md): decoding and encoding undo each other, and no command encodes to a word of
R66. -/

namespace Sys2Proof.Proofs

open Sys2Proof.Machine Sys2Proof.Safety Sys2Proof.Claims Sys2Proof.Laws
open Sys2Proof.Laws.ReservedBitsClear (opOf packFields_toNat variant_bit_lt policy_bit_lt lt_of_ctxIndexOk)

/-! ### The fields of a word as numbers (30_encoding.md R62) -/

theorem fieldCA_eq (w : Word) : fieldCA w = w.toNat / 2 ^ 8 % 2 ^ 4 := by
  rw [fieldCA, BitVec.extractLsb'_toNat, Nat.shiftRight_eq_div_pow]

theorem fieldCB_eq (w : Word) : fieldCB w = w.toNat / 2 ^ 12 % 2 ^ 4 := by
  rw [fieldCB, BitVec.extractLsb'_toNat, Nat.shiftRight_eq_div_pow]

theorem fieldVAR_bit (w : Word) : (fieldVAR w).bit = w.toNat / 2 ^ 16 % 2 ^ 1 := by
  rw [fieldVAR, pow_one, ← Nat.toNat_testBit, BitVec.getLsbD]
  cases w.toNat.testBit 16 <;> rfl

theorem fieldOVF_bit (w : Word) : (fieldOVF w).bit = w.toNat / 2 ^ 17 % 2 ^ 1 := by
  rw [fieldOVF, pow_one, ← Nat.toNat_testBit, BitVec.getLsbD]
  cases w.toNat.testBit 17 <;> rfl

theorem variant_bit_injective {v u : Variant} (h : v.bit = u.bit) : v = u := by
  revert h
  cases v <;> cases u <;> decide

theorem policy_bit_injective {p q : Policy} (h : p.bit = q.bit) : p = q := by
  revert h
  cases p <;> cases q <;> decide

theorem opcode_lt (o : Op) : o.code < 256 := by cases o <;> decide

section Packed

variable (o : Op) {ca cb : Nat} (v : Variant) (p : Policy) (ha : ca < 16) (hb : cb < 16)

include ha hb in
/-- Fields that fit their bits are packed without a carry. -/
theorem packFields_value :
    (packFields o ca cb v.bit p.bit).toNat = o.code + 2 ^ 8 * ca + 2 ^ 12 * cb + 2 ^ 16 * v.bit + 2 ^ 17 * p.bit := by
  have := opcode_lt o
  have := variant_bit_lt v
  have := policy_bit_lt p
  rw [packFields, BitVec.toNat_ofNat, Nat.mod_eq_of_lt (by omega)]

include ha hb in
theorem fields_packFields :
    fieldCA (packFields o ca cb v.bit p.bit) = ca ∧ fieldCB (packFields o ca cb v.bit p.bit) = cb ∧
    fieldVAR (packFields o ca cb v.bit p.bit) = v ∧ fieldOVF (packFields o ca cb v.bit p.bit) = p := by
  have := opcode_lt o
  have := variant_bit_lt v
  have := policy_bit_lt p
  refine ⟨?_, ?_, variant_bit_injective ?_, policy_bit_injective ?_⟩
  · rw [fieldCA_eq, packFields_value o v p ha hb]; omega
  · rw [fieldCB_eq, packFields_value o v p ha hb]; omega
  · rw [fieldVAR_bit, packFields_value o v p ha hb]; omega
  · rw [fieldOVF_bit, packFields_value o v p ha hb]; omega

end Packed

/-! ### A word matches a row when it is the word of the row's command (30_encoding.md R64, R65) -/

/-- A field placed above a number that ends below it is added to it. -/
theorem ofNat_or_field (w : Word) {n s : Nat} (k : Nat) (hn : n < 2 ^ s) :
    BitVec.ofNat 64 n ||| (w.extractLsb' s k).setWidth 64 <<< s =
      BitVec.ofNat 64 (n + 2 ^ s * (w.toNat / 2 ^ s % 2 ^ k)) := by
  have hfit : w.toNat / 2 ^ s % 2 ^ k < 2 ^ 64 :=
    ((Nat.mod_le _ _).trans (Nat.div_le_self _ _)).trans_lt w.isLt
  apply BitVec.eq_of_toNat_eq
  rw [BitVec.toNat_or, BitVec.toNat_shiftLeft, BitVec.toNat_setWidth, BitVec.extractLsb'_toNat,
    Nat.shiftRight_eq_div_pow, Nat.mod_eq_of_lt hfit, BitVec.toNat_ofNat, BitVec.toNat_ofNat, ← Nat.or_mod_two_pow,
    Nat.or_comm, ← Nat.shiftLeft_add_eq_or_of_lt hn, Nat.shiftLeft_eq, Nat.add_comm, Nat.mul_comm]

/-- The word of the row's command holds the row's opcode and the word's bits that the row leaves free. -/
theorem encode_command (o : Op) (w : Word) :
    encode (o.command w) = BitVec.ofNat 64 o.code ||| (w &&& ~~~o.mask) := by
  have hc := opcode_lt o
  cases o with
  | config | deser =>
    rw [Op.mask, and_not_maskAVO, ← BitVec.or_assoc, ← BitVec.or_assoc, ofNat_or_field _ _ (by omega),
      ofNat_or_field _ _ (by omega), ofNat_or_field _ _ (by omega), ← fieldCA_eq, ← fieldVAR_bit, ← fieldOVF_bit]
    rfl
  | tobf | equals =>
    rw [Op.mask, and_not_maskAB, ← BitVec.or_assoc, ofNat_or_field _ _ (by omega), ofNat_or_field _ _ (by omega),
      ← fieldCA_eq, ← fieldCB_eq]
    rfl
  | destroy | getm | getk | getcount | getslot | getcfg | slotidx | slots | test | add | testadd | testrem | ser =>
    rw [Op.mask, and_not_maskA, ofNat_or_field _ _ (by omega), ← fieldCA_eq]
    rfl

/-- The rows' masks and the encoder say the same of a word. -/
theorem match_iff_encode {w : Word} {o : Op} :
    w &&& o.mask = BitVec.ofNat 64 o.code ↔ encode (o.command w) = w := by
  rw [encode_command]
  refine ⟨fun h => (word_of_match h).symm, fun h => ?_⟩
  have hcode : BitVec.ofNat 64 o.code &&& o.mask = BitVec.ofNat 64 o.code := by cases o <;> decide
  have hfree : w &&& ~~~o.mask &&& o.mask = 0#64 := by
    rw [BitVec.and_assoc, BitVec.and_comm (~~~o.mask), BitVec.and_not_self]
    exact BitVec.and_zero
  rw [← h, BitVec.and_or_distrib_right, hcode, hfree, BitVec.or_zero]

theorem decode_eq_ok_iff_encode {w : Word} {i : Instr} :
    decode w = .ok i ↔ ∃ o : Op, encode (o.command w) = w ∧ i = o.command w := by
  simp only [decode_eq_ok, match_iff_encode]

/-! ### Round trips -/

/-- The command of any word with a row's opcode has indices that fit their fields. -/
theorem command_wellFormed (o : Op) (w : Word) : (o.command w).wellFormed = true := by
  have ha : ctxIndexOk (fieldCA w) = true := decide_eq_true (BitVec.isLt _)
  have hb : ctxIndexOk (fieldCB w) = true := decide_eq_true (BitVec.isLt _)
  cases o with
  | tobf | equals => exact Bool.and_eq_true_iff.2 ⟨ha, hb⟩
  | config | deser | destroy | getm | getk | getcount | getslot | getcfg | slotidx | slots | test | add | testadd
  | testrem | ser => exact ha

/-- The word of a well-formed command holds the command's fields. -/
theorem command_encode {i : Instr} (h : i.wellFormed = true) : (opOf i).command (encode i) = i := by
  cases i with
  | config ca v p | deser ca v p =>
    simp only [opOf, encode, Op.command, fields_packFields _ v p (lt_of_ctxIndexOk h) (by decide : 0 < 16)]
  | tobf ca cb | equals ca cb =>
    obtain ⟨ha, hb⟩ := Bool.and_eq_true_iff.1 h
    obtain ⟨hca, hcb, -⟩ := fields_packFields _ .bf .wrap (lt_of_ctxIndexOk ha) (lt_of_ctxIndexOk hb)
    exact congrArg₂ _ hca hcb
  | destroy ca | getm ca | getk ca | getcount ca | getslot ca | getcfg ca | slotidx ca | slots ca | test ca | add ca
  | testadd ca | testrem ca | ser ca =>
    obtain ⟨hca, -⟩ := fields_packFields _ .bf .wrap (lt_of_ctxIndexOk h) (by decide : 0 < 16)
    exact congrArg _ hca

/-- Settles O1: the word of the command is the word of what its own row reads from it. -/
theorem decodeInvertsEncode : Obligations.DecodeInvertsEncode := by
  intro i hi
  exact decode_eq_ok_iff_encode.2 ⟨opOf i, by rw [command_encode hi], (command_encode hi).symm⟩

/-- Settles O2: a match makes the word that of the row's command. -/
theorem encodeInvertsDecode : Obligations.EncodeInvertsDecode := by
  intro w i h
  obtain ⟨o, hw, rfl⟩ := decode_eq_ok_iff_encode.1 h
  exact ⟨command_wellFormed o w, hw⟩

/-- Settles O3: each word is the word of its command, by the encoder's table. -/
theorem specWordsDecode : Obligations.SpecWordsDecode :=
  ⟨decodeInvertsEncode (.config 2 .cbf .sat) rfl, decodeInvertsEncode (.getcount 1) rfl,
    decodeInvertsEncode (.slots 3) rfl, decodeInvertsEncode (.testrem 15) rfl, decodeInvertsEncode (.tobf 1 2) rfl,
    decodeInvertsEncode (.deser 2 .cbf .wrap) rfl, decodeInvertsEncode (.equals 0 1) rfl⟩

/-! ### Illegal words (30_encoding.md R66) -/

/-- A word whose opcode is listed and whose fields are 0 where the opcode does not use them is not illegal. -/
theorem not_illegalWord_packFields {o : Op} {ca cb : Nat} {v : Variant} {p : Policy} (ha : ca < 16) (hb : cb < 16)
    (hcb : o.code ∈ [0x30, 0x50] ∨ cb = 0) (hvp : o.code ∈ [0x01, 0x41] ∨ v = .bf ∧ p = .wrap) :
    ¬ IllegalWord (packFields o ca cb v.bit p.bit) := by
  have hlisted : o.code ∈ listedOpcodes := by cases o <;> decide
  have hc := opcode_lt o
  obtain ⟨hop, habove⟩ := packFields_toNat (o := o) ha hb (variant_bit_lt v) (policy_bit_lt p)
  rw [IllegalWord, hop]
  rintro (hreserved | hhigh | ⟨hunused, hbits⟩ | ⟨hunused, hbits⟩)
  · exact hreserved hlisted
  · exact hhigh habove
  · obtain ⟨rfl, rfl⟩ := hvp.resolve_left hunused
    rw [packFields_value o .bf .wrap ha hb, Variant.bit, Policy.bit] at hbits
    omega
  · have := variant_bit_lt v
    have := policy_bit_lt p
    rw [packFields_value o v p ha hb, hcb.resolve_left hunused] at hbits
    omega

theorem not_illegalWord_encode {i : Instr} (h : i.wellFormed = true) : ¬ IllegalWord (encode i) := by
  cases i with
  | config ca v p | deser ca v p =>
    exact not_illegalWord_packFields (lt_of_ctxIndexOk h) (by decide) (.inr rfl) (.inl (by decide))
  | tobf ca cb | equals ca cb =>
    obtain ⟨ha, hb⟩ := Bool.and_eq_true_iff.1 h
    exact not_illegalWord_packFields (v := .bf) (p := .wrap) (lt_of_ctxIndexOk ha) (lt_of_ctxIndexOk hb)
      (.inl (by decide)) (.inr ⟨rfl, rfl⟩)
  | destroy ca | getm ca | getk ca | getcount ca | getslot ca | getcfg ca | slotidx ca | slots ca | test ca | add ca
  | testadd ca | testrem ca | ser ca =>
    exact not_illegalWord_packFields (v := .bf) (p := .wrap) (lt_of_ctxIndexOk h) (by decide) (.inr rfl)
      (.inr ⟨rfl, rfl⟩)

theorem decode_illegalWord {w : Word} (h : IllegalWord w) : ∃ r, decode w = .error r := by
  cases hd : decode w with
  | error r => exact ⟨r, rfl⟩
  | ok i =>
    obtain ⟨hi, rfl⟩ := encodeInvertsDecode w i hd
    exact absurd h (not_illegalWord_encode hi)

theorem engineTurn_illegalWord {s : State} {w : Word} (hp : s.pending = some w) (h : IllegalWord w) :
    engineTurn s = .next (raise .illegalCmd s) := by
  obtain ⟨r, hr⟩ := decode_illegalWord h
  simp only [engineTurn, hp, hr]

/-- A step that is the engine's turn, scheduled or not. -/
theorem step_of_engineNext {s : State} (h : EngineNext s) : step s = engineTurn (unscheduled s) := by
  rcases h with h | ⟨rest, h⟩
  · rw [step_of_nil h, unscheduled_of_nil h]
  · rw [step_of_cons h, unscheduled_of_cons h, eventTurn]

/-- Settles O4: no row matches an illegal word, so the engine's turn ends it with `ILLEGAL_CMD`. -/
theorem illegalWordsFail : Obligations.IllegalWordsFail := by
  refine ⟨.inl (by decide), fun s w hturn hp h => ?_⟩
  rw [step_of_engineNext hturn]
  exact engineTurn_illegalWord hp h

end Sys2Proof.Proofs

/-! The lifecycle commands and the read accessors (spec/40_lifecycle.md R81 to R87): the errors their checks report, the
constructed slots of `CONFIG`, and the word of `GETCFG`. -/

namespace Sys2Proof.Proofs

open Sys2Proof.Machine Sys2Proof.Safety Sys2Proof.Claims Sys2Proof.Laws

/-! ### When a lifecycle command fails -/

theorem checkCtx_eq_error {s : State} {c : Nat} {e : ErrCode} :
    checkCtx s c = .error e ↔ s.cfg.nctx ≤ c ∧ e = .badCtx := by
  simp [checkCtx, require_eq_error]

theorem checkValid_eq_error {s : State} {c : Nat} {e : ErrCode} :
    checkValid s c = .error e ↔ (s.ctx c).valid = false ∧ e = .notConfigured := by
  simp [checkValid, require_eq_error]

/-- On a valid context, a command that begins with `check_ctx` and `check_valid` is what follows them (R80). -/
theorem bind_checks_of_ready {β : Type} {ca : Nat} {s : State} (hc : ca < s.cfg.nctx)
    (hv : (s.ctx ca).valid = true) (f : Unit → Except ErrCode β) :
    (do checkCtx s ca; checkValid s ca >>= f) = f () := by
  rw [(checkCtx_eq_ok (u := ())).2 hc, ok_bind, (checkValid_eq_ok (u := ())).2 hv, ok_bind]

/-- A command that begins with `check_ctx` and `check_valid` fails on an invalid context, whatever follows (R80). -/
theorem bind_checks_notConfigured {β : Type} {ca : Nat} {s : State} (hc : ca < s.cfg.nctx)
    (hv : (s.ctx ca).valid = false) (f : Unit → Except ErrCode β) :
    (do checkCtx s ca; checkValid s ca >>= f) = .error .notConfigured := by
  rw [(checkCtx_eq_ok (u := ())).2 hc, ok_bind, checkValid_eq_error.2 ⟨hv, rfl⟩, error_bind]

theorem accessorCmd_notConfigured (f : Ctx → Word) {ca : Nat} {s : State} (hc : ca < s.cfg.nctx)
    (hv : (s.ctx ca).valid = false) : accessorCmd f ca s = .error .notConfigured :=
  bind_checks_notConfigured hc hv _

theorem getslotCmd_notConfigured {ca : Nat} {s : State} (hc : ca < s.cfg.nctx)
    (hv : (s.ctx ca).valid = false) : getslotCmd ca s = .error .notConfigured :=
  bind_checks_notConfigured hc hv _

theorem getslotCmd_range {ca : Nat} {s : State} (hc : ca < s.cfg.nctx) (hv : (s.ctx ca).valid = true)
    (hm : (s.ctx ca).m.toNat ≤ s.arg0.toNat) : getslotCmd ca s = .error .range := by
  rw [getslotCmd, bind_checks_of_ready hc hv, decide_eq_false hm.not_gt, require_false, error_bind]

/-- A check and what follows it end with the check's own code when either does. -/
theorem require_bind_same_error {β : Type} {b : Bool} {e : ErrCode} {f : Unit → Except ErrCode β} :
    (require b e >>= f) = .error e ↔ b = false ∨ f () = .error e := by
  cases b <;> simp

/-- The three checks of the sizes report one code, so their order does not matter. -/
theorem configCmd_config {ca : Nat} {var : Variant} {ovf : Policy} {s : State} :
    configCmd ca var ovf s = .error .config ↔
      ca < s.cfg.nctx ∧ (s.arg0 = 0 ∨ s.cfg.mMax < s.arg0.toNat ∨ s.cfg.kMax < s.arg1.toNat) := by
  simp only [configCmd, bind_eq_error (x := checkCtx s ca), checkCtx_eq_error, checkCtx_eq_ok, require_bind_same_error,
    exists_const, reduceCtorEq, and_false, false_or]
  simp [pure, Except.pure]

/-! ### `CONFIG` (40_lifecycle.md R81) -/

/-- Settles O9: the sizes pass the three checks, and the constructed array is the zero slots and then the spare ones. -/
theorem configConstructsFilter : Obligations.ConfigConstructsFilter := by
  refine fun s ca var ovf hc => ⟨fun hm hm' hk => ?_, fun h => exec_of_error (configCmd_config.2 ⟨hc, h⟩)⟩
  have h0 : s.arg0 ≠ 0 := fun h => by simp [h] at hm
  refine ⟨_, _, exec_of_ok (configCmd_ok.2 ⟨hc, h0, hm', hk, rfl, rfl⟩), rfl, rfl, rfl, rfl, rfl, rfl, rfl, ?_, ?_⟩
  · simp [hm']
  · intro j hj
    rw [List.getD_append _ _ _ _ (by simpa using hj), List.getD_replicate _ hj]

/-! ### `DESTROY` (40_lifecycle.md R82) -/

theorem cfgWord_invalid {x : Ctx} (h : x.valid = false) : x.cfgWord = 0 := by
  rw [Ctx.cfgWord, h, if_neg Bool.false_ne_true]

/-- Settles O11: the destroyed context is not valid, so `check_valid` fails for every accessor but `GETCFG`, which has no
such check. -/
theorem destroyEndsFilter : Obligations.DestroyEndsFilter := by
  intro s ca hlen hc
  have hv : ((s.setCtx ca { s.ctx ca with valid := false }).ctx ca).valid = false := by
    rw [ctx_setCtx_same s _ (hlen ▸ hc)]
  refine ⟨_, exec_of_ok (destroyCmd_ok.2 ⟨hc, rfl, rfl⟩), rfl, ?_, ?_⟩
  · have hget (f : Ctx → Word) := accessorCmd_notConfigured f (s := complete 0 (s.setCtx ca _)) hc hv
    simp only [List.forall_mem_cons, List.not_mem_nil, false_imp_iff, implies_true, and_true]
    exact ⟨exec_of_error (hget Ctx.m), exec_of_error (hget Ctx.k), exec_of_error (hget Ctx.count),
      exec_of_error (getslotCmd_notConfigured hc hv)⟩
  · exact exec_of_ok (getcfgCmd_ok.2 ⟨hc, rfl, (cfgWord_invalid hv).symm⟩)

/-! ### The read accessors (40_lifecycle.md R83 to R87) -/

/-- Settles O12: the three commands are one accessor of three fields. -/
theorem accessorsAnswerFields : Obligations.AccessorsAnswerFields := by
  intro s ca ⟨hc, hv⟩
  have hget (f : Ctx → Word) : accessorCmd f ca s = .ok (s, f (s.ctx ca)) := accessorCmd_ok.2 ⟨hc, hv, rfl, rfl⟩
  exact ⟨exec_of_ok (hget Ctx.m), exec_of_ok (hget Ctx.k), exec_of_ok (hget Ctx.count)⟩

/-- Settles O13: below `m` the last check passes, and widening a slot to 64 bits keeps its value. -/
theorem getslotAnswersOneSlot : Obligations.GetslotAnswersOneSlot := by
  intro s ca ⟨hc, hv⟩
  refine ⟨fun hm => ?_, fun hm => exec_of_error (getslotCmd_range hc hv hm)⟩
  exact ⟨_, exec_of_ok (getslotCmd_ok.2 ⟨hc, hv, hm, rfl, rfl⟩), rfl, BitVec.toNat_setWidth_of_le (by decide)⟩

/-- The packing of `{ovf, var, 1}` (R87). -/
theorem cfgWord_bits {x : Ctx} (h : x.valid = true) :
    x.cfgWord.getLsbD 0 = true ∧ (x.cfgWord.getLsbD 1 = true ↔ x.var = .cbf) ∧
      (x.cfgWord.getLsbD 2 = true ↔ x.ovf = .sat) ∧ x.cfgWord.toNat < 8 := by
  rw [Ctx.cfgWord, if_pos h]
  cases x.var <;> cases x.ovf <;> decide

/-- Settles O14: `GETCFG` checks the context's index only. -/
theorem getcfgPacksConfiguration : Obligations.GetcfgPacksConfiguration := fun _ _ hc =>
  ⟨_, exec_of_ok (getcfgCmd_ok.2 ⟨hc, rfl, rfl⟩), rfl, cfgWord_invalid, cfgWord_bits⟩

end Sys2Proof.Proofs

/-! The hash pipeline (spec/41_hash_pipeline.md R96 to R104): the byte-serial form of `Encode`, the rounds of
`SlotsForKey`, the entries that `SLOTS` leaves in `IDXBUF`, and what a failing round does to a command. -/

namespace Sys2Proof.Proofs

open Sys2Proof.Machine Sys2Proof.Safety Sys2Proof.Claims Sys2Proof.Laws

/-! ### `Encode` (41_hash_pipeline.md R96, R97) -/

/-- One step of the byte-serial form (R97). -/
theorem encodeKey_append_singleton (p : Config) (b : List Byte) (v : Byte) :
    encodeKey p (b ++ [v]) = (encodeKey p b * 256 + v.toNat) % p.q := by
  rw [encodeKey, bigEndian_append_singleton]
  exact ((Nat.mod_modEq (bigEndian b) p.q).symm.mul_right 256).add_right v.toNat

theorem encodeKey_eq_foldl (p : Config) (b : List Byte) :
    encodeKey p b = b.foldl (fun x v => (x * 256 + v.toNat) % p.q) 0 := by
  induction b using List.reverseRecOn with
  | nil => exact Nat.zero_mod p.q
  | append_singleton b v ih => rw [encodeKey_append_singleton, ih, List.foldl_concat]

theorem bigEndian_zero_cons (b : List Byte) : bigEndian (0 :: b) = bigEndian b := by
  simp [bigEndian]

/-- The pipeline reads the key only through `Encode` (R100). -/
theorem slotsForKey_of_encodeKey {p : Config} {b d : List Byte} (h : encodeKey p b = encodeKey p d) (k m : Nat) :
    slotsForKey p b k m = slotsForKey p d k m := by
  rw [slotsForKey, slotsForKey, h]

/-- Settles O15: the serial form appends the key's bytes one by one; a leading zero byte adds 0 to the key's integer. -/
theorem encodeHasSerialForm : Obligations.EncodeHasSerialForm := by
  refine ⟨encodeKey_eq_foldl, fun p b => ?_, fun p b d k m h => slotsForKey_of_encodeKey h k m⟩
  have h : encodeKey p (0 :: b) = encodeKey p b := by rw [encodeKey, encodeKey, bigEndian_zero_cons]
  exact ⟨h, slotsForKey_of_encodeKey h⟩

/-! ### The rounds of `SlotsForKey` (41_hash_pipeline.md R98, R100) -/

/-- The sequence entry by entry: entry `i` is the slot index of round `i` (R100). -/
theorem slotsForKey_eq_some_iff_rounds {p : Config} {b : List Byte} {k m : Nat} {L : List Nat} :
    slotsForKey p b k m = some L ↔ L.length = k ∧ ∀ i (h : i < L.length), slotIndex p b i m = some L[i] := by
  rw [slotsForKey_eq_some, List.ext_getElem_iff]
  simp only [List.length_map, List.length_range, List.getElem_map, List.getElem_range]
  constructor
  · rintro ⟨rfl, hrounds⟩
    exact ⟨rfl, fun i hi => hrounds i hi hi⟩
  · rintro ⟨rfl, hrounds⟩
    exact ⟨rfl, fun i hi _ => hrounds i hi⟩

/-- Settles O16: the rounds run in order, and one that fails is the only way to fail. -/
theorem pipelineEntriesAreRounds : Obligations.PipelineEntriesAreRounds := fun _ _ _ _ hm =>
  ⟨fun _ => slotsForKey_eq_some_iff_rounds, fun _ hL => slotsForKey_lt hm hL, slotsForKey_eq_none, rfl⟩

/-! ### `SLOTIDX` (41_hash_pipeline.md R103) -/

/-- In a state that meets the invariant a valid context has a slot (10_state.md R26). -/
theorem valid_m_pos {s : State} (hs : EngineInv s) {c : Nat} (hc : c < s.cfg.nctx) (hv : (s.ctx c).valid = true) :
    0 < (s.ctx c).m.toNat := by
  obtain ⟨hm, -⟩ := (inv_ctx hs hc).2 hv
  exact hm

/-- A command that begins with the three checks of a key command is what follows them, when they pass (R80). -/
theorem bind_checks_of_keyReady {β : Type} {ca : Nat} {s : State} (h : KeyReady s ca) (f : Unit → Except ErrCode β) :
    (do checkCtx s ca; checkValid s ca; checkKey s >>= f) = f () := by
  obtain ⟨⟨hc, hv⟩, hkey⟩ := h
  rw [bind_checks_of_ready hc hv, (checkKey_eq_ok (u := ())).2 hkey, ok_bind]

theorem slotidxCmd_range {ca : Nat} {s : State} (h : KeyReady s ca) (hk : (s.ctx ca).k.toNat ≤ s.arg0.toNat) :
    slotidxCmd ca s = .error .range := by
  rw [slotidxCmd, bind_checks_of_keyReady h, decide_eq_false hk.not_gt, require_false, error_bind]

theorem slotidxCmd_hash {ca : Nat} {s : State} (h : KeyReady s ca) (hk : s.arg0.toNat < (s.ctx ca).k.toNat)
    (hfail : slotIndex s.cfg s.key s.arg0.toNat (s.ctx ca).m.toNat = none) : slotidxCmd ca s = .error .hash := by
  rw [slotidxCmd, bind_checks_of_keyReady h, decide_eq_true hk, require_true, ok_bind, hfail]

/-- Settles O17: once the checks of a key command pass, the bound on the round index and then the round decide. -/
theorem slotidxRunsOneRound : Obligations.SlotidxRunsOneRound := by
  intro s ca hs hready
  have ⟨⟨hc, hv⟩, hkey⟩ := hready
  refine ⟨fun h hk hround => ⟨slotIndex_lt (valid_m_pos hs hc hv) hround, ?_⟩, fun hk hfail => ?_, fun hk => ?_⟩
  · exact exec_of_ok (slotidxCmd_ok.2 ⟨hc, hv, hkey, hk, h, hround, rfl, rfl⟩)
  · exact exec_of_error (slotidxCmd_hash hready hk hfail)
  · exact exec_of_error (slotidxCmd_range hready hk)

/-! ### `SLOTS` (41_hash_pipeline.md R104) -/

/-- Two range writes one after the other are one. -/
theorem setBytes_append (s : State) (a : Nat) (vs ws : List Byte) :
    s.setBytes a (vs ++ ws) = (s.setBytes a vs).setBytes (a + vs.length) ws := by
  induction vs generalizing s a with
  | nil => rfl
  | cons v vs ih =>
    rw [List.length_cons, Nat.add_comm vs.length, ← Nat.add_assoc]
    exact ih (s.setBytes a [v]) (a + 1)

/-- A word below a range write reads as before. -/
theorem wordAt_setBytes_below (s : State) {a b : Nat} (vs : List Byte) (h : b + 8 ≤ a) :
    (s.setBytes a vs).wordAt b = s.wordAt b := by
  rw [State.wordAt, bytesAt_setBytes_out s vs (.inl h), State.wordAt]

/-- Of the words written one after another from `a` up, word `i` stands at `a + 8 * i`. -/
theorem wordAt_setBytes_words (s : State) (a : Nat) (L : List Nat) (i : Nat) (h : i < L.length) :
    (s.setBytes a (L.flatMap fun j => wordBytes (BitVec.ofNat 64 j))).wordAt (a + 8 * i) = BitVec.ofNat 64 L[i] := by
  induction L generalizing s a i with
  | nil => exact absurd h (Nat.not_lt_zero i)
  | cons j L ih =>
    rw [List.flatMap_cons, setBytes_append, wordBytes_length]
    cases i with
    | zero => rw [wordAt_setBytes_below _ _ (by omega)]; exact wordAt_setBytes s a _
    | succ i =>
      have haddr : a + 8 * (i + 1) = a + 8 + 8 * i := by omega
      rw [haddr]
      exact ih _ (a + 8) i (by simpa using h)

/-- `IDXBUF` after its entries are written (10_state.md R28). -/
theorem idxEntry_setIdxEntries (s : State) (L : List Nat) (i : Nat) (h : i < L.length) :
    (s.setIdxEntries L).idxEntry i = BitVec.ofNat 64 L[i] :=
  wordAt_setBytes_words s idxbufBase L i h

/-- The bytes outside the entries written read as before. -/
theorem byteAt_setIdxEntries_out (s : State) (L : List Nat) {a : Nat}
    (h : ¬(idxbufBase ≤ a ∧ a < idxbufBase + 8 * L.length)) : (s.setIdxEntries L).byteAt a = s.byteAt a := by
  rw [← entryBytes_length] at h
  exact byteAt_setBytes_out s _ h

/-- Settles O18: each slot index is below `m`, so its 64-bit entry holds it whole. -/
theorem slotsFillsIndexBuffer : Obligations.SlotsFillsIndexBuffer := by
  intro s ca L hs ⟨⟨hc, hv⟩, hkey⟩ hL
  refine ⟨_, exec_of_ok (slotsCmd_ok.2 ⟨hc, hv, hkey, L, hL, rfl, rfl⟩), rfl, slotsForKey_length hL, fun i hi => ?_,
    fun a ha => byteAt_setIdxEntries_out s L ha⟩
  have hlt : L[i] < (s.ctx ca).m.toNat := slotsForKey_lt (valid_m_pos hs hc hv) hL _ (List.getElem_mem hi)
  calc ((s.setIdxEntries L).idxEntry i).toNat = (BitVec.ofNat 64 L[i]).toNat := by rw [idxEntry_setIdxEntries s L i hi]
    _ = L[i] := by rw [BitVec.toNat_ofNat, Nat.mod_eq_of_lt (hlt.trans (s.ctx ca).m.isLt)]

/-! ### A failing round (41_hash_pipeline.md R101, R102) -/

theorem touchedSlots_eq_error {s : State} {c : Nat} {e : ErrCode} :
    touchedSlots s c = .error e ↔
      slotsForKey s.cfg s.key (s.ctx c).k.toNat (s.ctx c).m.toNat = none ∧ e = .hash := by
  unfold touchedSlots
  split <;> simp [*, eq_comm]

/-- A command that hashes the key right after the checks of a key command fails when a round does, whatever follows. -/
theorem bind_touchedSlots_hash {β : Type} {ca : Nat} {s : State} (h : KeyReady s ca)
    (hfail : touchedSlots s ca = .error .hash) (f : List Nat → Except ErrCode β) :
    (do checkCtx s ca; checkValid s ca; checkKey s; touchedSlots s ca >>= f) = .error .hash := by
  rw [bind_checks_of_keyReady h, hfail, error_bind]

/-- On a CBF, `TESTREM` begins with the checks of a key command and the hash, like the other pipeline commands (R120). -/
theorem testremCmd_hash {ca : Nat} {s : State} (h : KeyReady s ca) (hcbf : (s.ctx ca).var = .cbf)
    (hfail : touchedSlots s ca = .error .hash) : testremCmd ca s = .error .hash := by
  simp only [testremCmd, hcbf]
  exact bind_touchedSlots_hash h hfail _

/-- Settles O19: the hash comes before every write of a pipeline command. -/
theorem hashFailureAbortsCommand : Obligations.HashFailureAbortsCommand := by
  intro s ca i h hnone hi
  have hfail : touchedSlots s ca = .error .hash := touchedSlots_eq_error.2 ⟨hnone, rfl⟩
  refine exec_of_error (e := .hash) ?_
  simp only [List.mem_cons, List.not_mem_nil, or_false] at hi
  rcases hi with (rfl | rfl | rfl | rfl) | ⟨rfl, hcbf⟩
  case inr => exact testremCmd_hash h hcbf hfail
  all_goals exact bind_touchedSlots_hash h hfail _

end Sys2Proof.Proofs

/-! The slot commands (spec/42_slot_ops.md R111 to R124): what a visit of the touched slots does in the terms of the
statements, the answers and writes of `TEST`, `ADD`, `TESTADD` and `TESTREM`, what a command can do to one context, and the
two properties of a filter that follow: `TESTREM` undoes `ADD`, and a BF has no false negatives. -/

namespace Sys2Proof.Proofs

open Sys2Proof.Machine Sys2Proof.Safety Sys2Proof.Claims Sys2Proof.Laws

/-! ### A visit of the touched slots (42_slot_ops.md R112, R115, R122) -/

theorem iterate_incSlot (p : Policy) (n : Nat) (v : Byte) : (fun v => (incSlot p v).1)^[n] v = raised p v n := by
  cases p
  · exact iterate_incSlot_wrap n v
  · exact iterate_incSlot_sat n v

theorem iterate_decSlot (p : Policy) (n : Nat) (v : Byte) : (fun v => (decSlot p v).1)^[n] v = lowered p v n := by
  cases p
  · exact iterate_decSlot_wrap n v
  · exact iterate_decSlot_sat n v

theorem touchEach_setSlot_slots (L : List Nat) (slots : List Byte) :
    (touchEach setSlot L slots).1 = slots.mapIdx fun j v => if j ∈ L then 1 else v := by
  simp only [touchEach_slots, iterate_setSlot, List.count_eq_zero, ite_not]

theorem touchEach_incSlot_slots (p : Policy) (L : List Nat) (slots : List Byte) :
    (touchEach (incSlot p) L slots).1 = slots.mapIdx fun j v => raised p v (L.count j) := by
  simp only [touchEach_slots, iterate_incSlot]

theorem touchEach_decSlot_slots (p : Policy) (L : List Nat) (slots : List Byte) :
    (touchEach (decSlot p) L slots).1 = slots.mapIdx fun j v => lowered p v (L.count j) := by
  simp only [touchEach_slots, iterate_decSlot]

theorem touchEach_incSlot_flag (p : Policy) {x : Ctx} {L : List Nat} (hL : ∀ j ∈ L, j < x.slots.length) :
    (touchEach (incSlot p) L x.slots).2 = decide (Overflows x L) := by
  rw [Bool.eq_iff_iff, touchEach_flag _ _ _ hL, decide_eq_true_iff]
  simp only [incSlot_run_flag]

theorem touchEach_decSlot_flag (p : Policy) {x : Ctx} {L : List Nat} (hL : ∀ j ∈ L, j < x.slots.length) :
    (touchEach (decSlot p) L x.slots).2 = decide (Underflows x L) := by
  rw [Bool.eq_iff_iff, touchEach_flag _ _ _ hL, decide_eq_true_iff]
  simp only [decSlot_run_flag]

/-- What a mutation does to its context: the visit, counted (42_slot_ops.md R121). -/
def visited (x : Ctx) (f : Byte → Byte × Bool) (L : List Nat) : Ctx :=
  { x with slots := (touchEach f L x.slots).1, count := x.count + 1 }

theorem mutate_eq_visited (s : State) (c : Nat) (f : Byte → Byte × Bool) (L : List Nat) :
    mutate s c f L = { s with ctxs := s.ctxs.set c (visited (s.ctx c) f L)
                              ctrovf := s.ctrovf || (touchEach f L (s.ctx c).slots).2 } := rfl

/-- An add-class visit of a BF (42_slot_ops.md R115). -/
theorem visited_addStep_bf {x : Ctx} (L : List Nat) (hbf : x.var = .bf) : visited x x.addStep L = marked x L := by
  simp only [visited, Ctx.addStep, hbf, touchEach_setSlot_slots, marked]

/-- An add-class visit of a CBF (42_slot_ops.md R116). -/
theorem visited_addStep_cbf {x : Ctx} (L : List Nat) (hcbf : x.var = .cbf) :
    visited x x.addStep L = incremented x L := by
  simp only [visited, Ctx.addStep, hcbf, touchEach_incSlot_slots, incremented]

/-- The visit of `TESTREM` (42_slot_ops.md R120). -/
theorem visited_decSlot (x : Ctx) (L : List Nat) : visited x (decSlot x.ovf) L = decremented x L := by
  simp only [visited, touchEach_decSlot_slots, decremented]

theorem mutate_addStep_bf {s : State} {c : Nat} (L : List Nat) (hbf : (s.ctx c).var = .bf) :
    mutate s c (s.ctx c).addStep L = { s with ctxs := s.ctxs.set c (marked (s.ctx c) L) } := by
  rw [mutate_eq_visited, visited_addStep_bf L hbf]
  simp only [Ctx.addStep, hbf, touchEach_setSlot_flag, Bool.or_false]

theorem mutate_addStep_cbf {s : State} {c : Nat} {L : List Nat} (hcbf : (s.ctx c).var = .cbf)
    (hL : ∀ j ∈ L, j < (s.ctx c).slots.length) :
    mutate s c (s.ctx c).addStep L = { s with ctxs := s.ctxs.set c (incremented (s.ctx c) L)
                                              ctrovf := s.ctrovf || decide (Overflows (s.ctx c) L) } := by
  rw [mutate_eq_visited, visited_addStep_cbf L hcbf]
  simp only [Ctx.addStep, hcbf, touchEach_incSlot_flag _ hL]

theorem mutate_decSlot {s : State} {c : Nat} {L : List Nat} (hL : ∀ j ∈ L, j < (s.ctx c).slots.length) :
    mutate s c (decSlot (s.ctx c).ovf) L = { s with ctxs := s.ctxs.set c (decremented (s.ctx c) L)
                                                    ctrovf := s.ctrovf || decide (Underflows (s.ctx c) L) } := by
  rw [mutate_eq_visited, visited_decSlot, touchEach_decSlot_flag _ hL]

theorem getD_mapIdx (f : Nat → Byte → Byte) {l : List Byte} {j : Nat} (hj : j < l.length) :
    (l.mapIdx f).getD j 0 = f j (l.getD j 0) := by
  simp [List.getD_eq_getElem?_getD, hj]

theorem getD_marked {x : Ctx} {L : List Nat} {j : Nat} (hj : j < x.slots.length) :
    (marked x L).slots.getD j 0 = if j ∈ L then 1 else x.slots.getD j 0 :=
  getD_mapIdx _ hj

theorem getD_incremented {x : Ctx} {L : List Nat} {j : Nat} (hj : j < x.slots.length) :
    (incremented x L).slots.getD j 0 = raised x.ovf (x.slots.getD j 0) (L.count j) :=
  getD_mapIdx _ hj

theorem boolWord_member (x : Ctx) (L : List Nat) :
    boolWord (member x.slots L) = if AllSet x L then 1 else 0 := by
  simp only [boolWord, member_eq_true]

/-- The touched slots of a valid context are slots of its array. -/
theorem touches_lt_length {s : State} (hs : EngineInv s) {c : Nat} (h : KeyReady s c) {L : List Nat}
    (hL : Touches s c L) : ∀ j ∈ L, j < (s.ctx c).slots.length := by
  obtain ⟨⟨hc, hv⟩, -⟩ := h
  exact fun j hj => (touched_lt hs hc hv hL j hj).2

/-! ### `TEST`, `ADD`, `TESTADD` and `TESTREM` (42_slot_ops.md R114 to R120) -/

/-- Settles O20: `TEST` ends in the state it began in, with the membership as its result. -/
theorem testAnswersMembership : Obligations.TestAnswersMembership := fun s ca L ⟨⟨hc, hv⟩, hkey⟩ hL =>
  exec_of_ok (testCmd_ok.2 ⟨hc, hv, hkey, L, hL, rfl, (boolWord_member (s.ctx ca) L).symm⟩)

theorem exec_add_of_touches {s : State} {ca : Nat} {L : List Nat} (h : KeyReady s ca) (hL : Touches s ca L) :
    exec (.add ca) s = .next (complete 0 (mutate s ca (s.ctx ca).addStep L)) := by
  obtain ⟨⟨hc, hv⟩, hkey⟩ := h
  exact exec_of_ok (addCmd_ok.2 ⟨hc, hv, hkey, L, hL, rfl, rfl⟩)

/-- `TESTADD` reads the membership before the mutation, which is that of `ADD`. -/
theorem exec_testadd_of_touches {s : State} {ca : Nat} {L : List Nat} (h : KeyReady s ca) (hL : Touches s ca L) :
    exec (.testadd ca) s =
      .next (complete (if AllSet (s.ctx ca) L then 1 else 0) (mutate s ca (s.ctx ca).addStep L)) := by
  obtain ⟨⟨hc, hv⟩, hkey⟩ := h
  exact exec_of_ok (testaddCmd_ok.2 ⟨hc, hv, hkey, L, hL, rfl, (boolWord_member (s.ctx ca) L).symm⟩)

/-- Settles O21: the visit of a BF sets the touched slots and never overflows. -/
theorem addSetsBloomSlots : Obligations.AddSetsBloomSlots := by
  intro s ca L h hL hbf
  rw [exec_add_of_touches h hL, mutate_addStep_bf L hbf]
  rfl

/-- Settles O22: the visit of a CBF increments each touched slot once per occurrence. -/
theorem addRaisesCounters : Obligations.AddRaisesCounters := by
  intro s ca L hs h hL hcbf
  rw [exec_add_of_touches h hL, mutate_addStep_cbf hcbf (touches_lt_length hs h hL)]
  rfl

/-- Settles O23: as O21, with the membership as the result. -/
theorem testaddSetsBloomSlots : Obligations.TestaddSetsBloomSlots := by
  intro s ca L h hL hbf
  rw [exec_testadd_of_touches h hL, mutate_addStep_bf L hbf]
  rfl

/-- Settles O24: as O22, with the membership as the result. -/
theorem testaddRaisesCounters : Obligations.TestaddRaisesCounters := by
  intro s ca L hs h hL hcbf
  rw [exec_testadd_of_touches h hL, mutate_addStep_cbf hcbf (touches_lt_length hs h hL)]
  rfl

/-- Settles O25: on a BF the command ends after its two context checks. -/
theorem testremOnBloomAnswersZero : Obligations.TestremOnBloomAnswersZero := fun _ _ ⟨hc, hv⟩ hbf =>
  exec_of_ok (testremCmd_ok.2 ⟨hc, hv, .inl ⟨hbf, rfl, rfl⟩⟩)

/-- On a CBF the membership decides between the decrements and no write at all (42_slot_ops.md R120). -/
theorem exec_testrem_of_touches {s : State} {ca : Nat} {L : List Nat} (h : KeyReady s ca) (hL : Touches s ca L)
    (hcbf : (s.ctx ca).var = .cbf) :
    exec (.testrem ca) s = .next (if AllSet (s.ctx ca) L then complete 1 (mutate s ca (decSlot (s.ctx ca).ovf) L)
      else complete 0 s) := by
  obtain ⟨⟨hc, hv⟩, hkey⟩ := h
  rw [exec_of_ok (i := .testrem ca) (testremCmd_ok.2 ⟨hc, hv, .inr ⟨hcbf, hkey, L, hL, rfl, rfl⟩⟩), boolWord_member]
  simp only [member_eq_true]
  split <;> rfl

/-- Settles O26: the visit of the decrements, when every touched slot is nonzero. -/
theorem testremLowersCounters : Obligations.TestremLowersCounters := by
  intro s ca L hs h hL hcbf
  rw [exec_testrem_of_touches h hL hcbf, mutate_decSlot (touches_lt_length hs h hL)]
  exact ⟨fun hall => by rw [if_pos hall]; rfl, fun hnot => by rw [if_neg hnot]; rfl⟩

/-! ### What a command can do to one context (42_slot_ops.md R121, R124) -/

/-- What context `c` can be after a successful command with result `v`: as before, ended, visited and counted, or
constructed by one of three commands. -/
inductive CtxEffect (i : Instr) (s : State) (v : Word) (c : Nat) : Ctx → Prop where
  | kept : CtxEffect i s v c (s.ctx c)
  | ended (name : i = .destroy c) : CtxEffect i s v c { s.ctx c with valid := false }
  | counted {f : Byte → Byte × Bool} (L : List Nat)
      (name : i = .add c ∨ i = .testadd c ∨ (i = .testrem c ∧ (s.ctx c).var = .cbf ∧ v = 1))
      (visit : f = (s.ctx c).addStep ∨ f = decSlot (s.ctx c).ovf ∧ (s.ctx c).var = .cbf) :
      CtxEffect i s v c (visited (s.ctx c) f L)
  | configured {x : Ctx} {var : Variant} {ovf : Policy} (name : i = .config c var ovf) (count : x.count = 0) :
      CtxEffect i s v c x
  | projected {x : Ctx} {a : Nat} (name : i = .tobf a c) (count : x.count = (s.ctx a).count) : CtxEffect i s v c x
  | decoded {x : Ctx} {var : Variant} {ovf : Policy} {f : Filter} (name : i = .deser c var ovf)
      (text : decodeText s.cfg var s.text = some f) (count : x.count.toNat = f.count) : CtxEffect i s v c x

/-- A property of a context after a write of context `c`: shown of the old context and, for `c`, of the new. -/
theorem ctx_setCtx_induction {P : Ctx → Prop} (s : State) (c d : Nat) (x : Ctx) (hold : P (s.ctx d))
    (hnew : d = c → P x) : P ((s.setCtx c x).ctx d) := by
  rcases ctx_setCtx_cases s c d x with ⟨hd, -, h⟩ | h
  · exact h.symm ▸ hnew hd
  · exact h.symm ▸ hold

/-- The count a text holds fits the field it is loaded into. -/
theorem decodeText_count {p : Config} {var : Variant} {t : List Byte} {f : Filter} (h : decodeText p var t = some f) :
    (BitVec.ofNat 64 f.count).toNat = f.count := by
  obtain ⟨-, ⟨-, -, hcount⟩, -⟩ := decodeText_eq_some.1 h
  rw [BitVec.toNat_ofNat, Nat.mod_eq_of_lt hcount]

theorem commandOf_ctxEffect {i : Instr} {s u : State} {v : Word} (h : commandOf i s = .ok (u, v)) (c : Nat) :
    CtxEffect i s v c (u.ctx c) := by
  cases i with
  | config ca var ovf =>
    obtain ⟨-, -, -, -, rfl, -⟩ := configCmd_ok.1 h
    exact ctx_setCtx_induction s ca c _ .kept fun hc => .configured (by rw [hc]) rfl
  | destroy ca =>
    obtain ⟨-, rfl, -⟩ := destroyCmd_ok.1 h
    exact ctx_setCtx_induction s ca c _ .kept fun hc => hc ▸ .ended rfl
  | add ca =>
    obtain ⟨-, -, -, L, -, rfl, -⟩ := addCmd_ok.1 h
    exact ctx_setCtx_induction s ca c _ .kept fun hc => hc ▸ .counted L (.inl rfl) (.inl rfl)
  | testadd ca =>
    obtain ⟨-, -, -, L, -, rfl, -⟩ := testaddCmd_ok.1 h
    exact ctx_setCtx_induction s ca c _ .kept fun hc => hc ▸ .counted L (.inr (.inl rfl)) (.inl rfl)
  | testrem ca =>
    obtain ⟨-, -, ⟨-, rfl, -⟩ | ⟨hcbf, -, L, -, rfl, rfl⟩⟩ := testremCmd_ok.1 h
    · exact .kept
    · cases hm : member (s.ctx ca).slots L with
      | false => exact .kept
      | true =>
        exact ctx_setCtx_induction s ca c _ .kept fun hc => by
          subst hc; exact .counted L (.inr (.inr ⟨rfl, hcbf, rfl⟩)) (.inr ⟨rfl, hcbf⟩)
  | tobf ca cb =>
    obtain ⟨-, -, -, -, rfl, -⟩ := tobfCmd_ok.1 h
    exact ctx_setCtx_induction s cb c _ .kept fun hc => .projected (by rw [hc]) rfl
  | deser ca var ovf =>
    obtain ⟨-, -, f, hf, rfl, -⟩ := deserCmd_ok.1 h
    exact ctx_setCtx_induction s ca c _ .kept fun hc => .decoded (by rw [hc]) hf (decodeText_count hf)
  | getm ca | getk ca | getcount ca => obtain ⟨-, -, rfl, -⟩ := accessorCmd_ok.1 h; exact .kept
  | getslot ca => obtain ⟨-, -, -, rfl, -⟩ := getslotCmd_ok.1 h; exact .kept
  | getcfg ca => obtain ⟨-, rfl, -⟩ := getcfgCmd_ok.1 h; exact .kept
  | slotidx ca => obtain ⟨-, -, -, -, _, -, rfl, -⟩ := slotidxCmd_ok.1 h; exact .kept
  | slots ca => obtain ⟨-, -, -, _, -, rfl, -⟩ := slotsCmd_ok.1 h; exact .kept
  | test ca => obtain ⟨-, -, -, _, -, rfl, -⟩ := testCmd_ok.1 h; exact .kept
  | ser ca =>
    obtain ⟨-, -, -, hu, -⟩ := serCmd_ok.1 h
    have hctxs : u.ctxs = s.ctxs := by rw [hu, setBytes_ctxs]
    rw [State.ctx, hctxs]
    exact .kept
  | equals ca cb => obtain ⟨-, -, -, -, rfl, -⟩ := equalsCmd_ok.1 h; exact .kept

/-! ### `count` (42_slot_ops.md R121) -/

theorem pure_ne_error {α : Type} (a : α) (e : ErrCode) : (pure a : Except ErrCode α) ≠ .error e := nofun

theorem testremCounting_ne_error_ok (ca : Nat) (s : State) : testremCounting ca s ≠ .error .ok := by
  simp only [testremCounting, ne_eq, bind_eq_error, checkKey, require_eq_error, touchedSlots_eq_error, pure_ne_error,
    reduceCtorEq, and_false, exists_false, or_false, not_false_eq_true]

/-- No command reports the code of success as its error (60_exceptions.md R166): every check names a code of its own, and
so does every failing case of what follows the checks. -/
theorem commandOf_ne_error_ok (i : Instr) (s : State) : commandOf i s ≠ .error .ok := by
  intro h
  cases i <;>
    simp only [commandOf, configCmd, destroyCmd, accessorCmd, getslotCmd, getcfgCmd, slotidxCmd, slotsCmd, testCmd,
      addCmd, testaddCmd, testremCmd, tobfCmd, serCmd, deserCmd, equalsCmd, bind_eq_error, checkCtx_eq_error,
      checkValid_eq_error, checkKey, require_eq_error, touchedSlots_eq_error, pure_ne_error, reduceCtorEq, and_false,
      false_or, exists_false] at h
  case slotidx =>
    obtain ⟨-, -, -, -, -, -, -, -, hround⟩ := h
    split at hround <;> cases hround
  case testrem =>
    obtain ⟨-, -, -, -, hform⟩ := h
    split at hform
    · cases hform
    · exact testremCounting_ne_error_ok _ s hform
  case deser =>
    obtain ⟨-, -, -, -, htext⟩ := h
    split at htext <;> cases htext

theorem exec_ok_cases {i : Instr} {s t : State} (h : exec i s = .next t) (hok : t.err = .ok) :
    ∃ u v, commandOf i s = .ok (u, v) ∧ t = complete v u := by
  rcases exec_next_cases h with ⟨e, he, rfl⟩ | hnext
  · rw [raise_err] at hok
    exact absurd (hok ▸ he) (commandOf_ne_error_ok i s)
  · exact hnext

/-- A mutation counts, in a context that exists (42_slot_ops.md R121). -/
theorem mutate_count {s : State} {c : Nat} (hc : c < s.ctxs.length) (f : Byte → Byte × Bool) (L : List Nat) :
    ((mutate s c f L).ctx c).count = (s.ctx c).count + 1 :=
  congrArg Ctx.count (ctx_setCtx_same s (visited (s.ctx c) f L) hc)

/-- What each command that writes `count` leaves there (R121). -/
theorem exec_writes_count {i : Instr} {s t : State} {c : Nat} (hs : EngineInv s) (h : exec i s = .next t)
    (hok : t.err = .ok) :
    (i = .add c ∨ i = .testadd c ∨ (i = .testrem c ∧ (s.ctx c).var = .cbf ∧ t.result = 1) →
      (t.ctx c).count = (s.ctx c).count + 1) ∧
    (∀ v o, i = .config c v o → (t.ctx c).count = 0) ∧
    (∀ a, i = .tobf a c → (t.ctx c).count = (s.ctx a).count) ∧
    (∀ v o, i = .deser c v o → ∃ f, decodeText s.cfg v s.text = some f ∧ (t.ctx c).count.toNat = f.count) := by
  obtain ⟨u, v, hcmd, rfl⟩ := exec_ok_cases h hok
  refine ⟨?_, ?_, ?_, ?_⟩
  · rintro (rfl | rfl | ⟨rfl, hcbf, hone⟩)
    · obtain ⟨hc, -, -, L, -, rfl, -⟩ := addCmd_ok.1 hcmd
      exact mutate_count (ctx_lt hs hc) _ L
    · obtain ⟨hc, -, -, L, -, rfl, -⟩ := testaddCmd_ok.1 hcmd
      exact mutate_count (ctx_lt hs hc) _ L
    · obtain ⟨hc, -, ⟨hbf, -⟩ | ⟨-, -, L, -, rfl, rfl⟩⟩ := testremCmd_ok.1 hcmd
      · simp [hbf] at hcbf
      · rw [if_pos (boolWord_eq_one.1 hone)]
        exact mutate_count (ctx_lt hs hc) _ L
  · rintro var ovf rfl
    obtain ⟨hc, -, -, -, rfl, -⟩ := configCmd_ok.1 hcmd
    rw [complete_ctx, ctx_construct_same s _ _ _ _ _ _ (ctx_lt hs hc)]
  · rintro a rfl
    obtain ⟨-, hc, -, -, rfl, -⟩ := tobfCmd_ok.1 hcmd
    rw [complete_ctx, ctx_construct_same s _ _ _ _ _ _ (ctx_lt hs hc)]
  · rintro var ovf rfl
    obtain ⟨hc, -, f, hf, rfl, -⟩ := deserCmd_ok.1 hcmd
    refine ⟨f, hf, ?_⟩
    rw [complete_ctx, ctx_construct_same s _ _ _ _ _ _ (ctx_lt hs hc), decodeText_count hf]

/-- A `count` that changed was counted, constructed, copied or loaded (R121). -/
theorem exec_count_changed {i : Instr} {s t : State} {c : Nat} (h : exec i s = .next t)
    (hne : (t.ctx c).count ≠ (s.ctx c).count) :
    t.err = .ok ∧
    (((i = .add c ∨ i = .testadd c ∨ (i = .testrem c ∧ (s.ctx c).var = .cbf ∧ t.result = 1)) ∧
        (t.ctx c).count = (s.ctx c).count + 1) ∨
     ((∃ v o, i = .config c v o) ∧ (t.ctx c).count = 0) ∨
     (∃ a, i = .tobf a c ∧ (t.ctx c).count = (s.ctx a).count) ∨
     (∃ v o f, i = .deser c v o ∧ decodeText s.cfg v s.text = some f ∧ (t.ctx c).count.toNat = f.count)) := by
  rcases exec_next_cases h with ⟨e, -, rfl⟩ | ⟨u, v, hcmd, rfl⟩
  · exact absurd rfl hne
  · rw [complete_ctx] at hne ⊢
    have heffect := commandOf_ctxEffect hcmd c
    generalize u.ctx c = x at hne heffect ⊢
    refine ⟨rfl, ?_⟩
    cases heffect with
    | kept | ended => exact absurd rfl hne
    | counted L name => exact .inl ⟨name, rfl⟩
    | configured name count => exact .inr (.inl ⟨⟨_, _, name⟩, count⟩)
    | projected name count => exact .inr (.inr (.inl ⟨_, name, count⟩))
    | decoded name text count => exact .inr (.inr (.inr ⟨_, _, _, name, text, count⟩))

/-- Settles O27: what the writers of `count` leave there, and that they are the only ones. -/
theorem countChangesOnlyAsCounted : Obligations.CountChangesOnlyAsCounted :=
  ⟨fun _ _ _ _ hs h hok => exec_writes_count hs h hok, fun _ _ _ _ h hne => exec_count_changed h hne⟩

/-! ### The key after a mutation (42_slot_ops.md R123, R124) -/

/-- `ADD` leaves the key and the sizes of its context, so the key touches the same slots afterwards. -/
theorem exec_add_keeps_touches {s t : State} {ca : Nat} {L : List Nat} (hs : EngineInv s) (h : KeyReady s ca)
    (hL : Touches s ca L) (hadd : exec (.add ca) s = .next t) :
    KeyReady t ca ∧ Touches t ca L ∧ t.ctxs = s.ctxs.set ca (t.ctx ca) ∧
      t.ctx ca = visited (s.ctx ca) (s.ctx ca).addStep L := by
  rw [exec_add_of_touches h hL] at hadd
  cases hadd
  have ⟨⟨hc, hv⟩, hkey⟩ := h
  have hctx : (complete 0 (mutate s ca (s.ctx ca).addStep L)).ctx ca = visited (s.ctx ca) (s.ctx ca).addStep L :=
    ctx_setCtx_same s _ (ctx_lt hs hc)
  have hsame : (complete 0 (mutate s ca (s.ctx ca).addStep L)).key = s.key := key_of_mem rfl rfl rfl
  refine ⟨⟨⟨hc, ?_⟩, hkey⟩, ?_, ?_, hctx⟩
  · rw [hctx]; exact hv
  · rw [Touches, hctx, hsame]; exact hL
  · rw [hctx]; rfl

/-! ### `ADD` then `TESTREM` (42_slot_ops.md R123) -/

theorem raised_toNat {v : Byte} {n : Nat} (p : Policy) (h : v.toNat + n ≤ 255) :
    (raised p v n).toNat = v.toNat + n := by
  cases p <;> simp only [raised, BitVec.toNat_ofNat] <;> omega

/-- Increments that do not overflow are undone by as many decrements. -/
theorem lowered_raised {v : Byte} {n : Nat} (p : Policy) (h : v.toNat + n ≤ 255) :
    lowered p (raised p v n) n = v := by
  apply BitVec.eq_of_toNat_eq
  cases p <;> simp only [lowered, BitVec.toNat_sub, BitVec.toNat_ofNat, raised_toNat _ h] <;> omega

/-- Without an overflow every slot, touched or not, has room for its increments. -/
theorem slot_room {x : Ctx} {L : List Nat} (h : ¬Overflows x L) (j : Nat) :
    (x.slots.getD j 0).toNat + L.count j ≤ 255 := by
  by_cases hj : j ∈ L
  · exact Nat.le_of_not_lt fun hlt => h ⟨j, hj, hlt⟩
  · rw [List.count_eq_zero_of_not_mem hj]
    exact Nat.le_of_lt_succ (x.slots.getD j 0).isLt

theorem decremented_incremented {x : Ctx} {L : List Nat} (h : ¬Overflows x L) :
    decremented (incremented x L) L = { x with count := x.count + 2 } := by
  have hslots : (decremented (incremented x L) L).slots = x.slots := by
    refine List.ext_getElem (by simp [decremented, incremented]) fun j h1 h2 => ?_
    have hroom := slot_room h j
    rw [List.getD_eq_getElem _ _ h2] at hroom
    simp only [decremented, incremented, List.getElem_mapIdx, lowered_raised _ hroom]
  calc decremented (incremented x L) L
      = { x with slots := (decremented (incremented x L) L).slots, count := x.count + 1 + 1 } := rfl
    _ = { x with count := x.count + 2 } := by rw [hslots, BitVec.add_assoc]; rfl

/-- After increments without an overflow every touched slot is nonzero. -/
theorem allSet_incremented {x : Ctx} {L : List Nat} (h : ¬Overflows x L) (hL : ∀ j ∈ L, j < x.slots.length) :
    AllSet (incremented x L) L := by
  intro j hj hzero
  rw [getD_incremented (hL j hj)] at hzero
  have hsum : (x.slots.getD j 0).toNat + L.count j = 0 := by rw [← raised_toNat x.ovf (slot_room h j), hzero]; rfl
  have hpos : 0 < L.count j := List.count_pos_iff.2 hj
  omega

/-- Settles O28: the key touches the same slots after `ADD`, all of them nonzero, and decrements undo increments. -/
theorem addThenRemoveRestores : Obligations.AddThenRemoveRestores := by
  intro s t ca L hs hready hL hcbf hover hadd
  obtain ⟨hready', hL', hctxs, hctx⟩ := exec_add_keeps_touches hs hready hL hadd
  rw [visited_addStep_cbf L hcbf] at hctx
  have hall : AllSet (t.ctx ca) L := hctx ▸ allSet_incremented hover (touches_lt_length hs hready hL)
  obtain ⟨hrem, -⟩ := testremLowersCounters t ca L (exec_engineInv hs hadd) hready' hL' (by rw [hctx]; exact hcbf)
  refine ⟨_, hrem hall, rfl, rfl, ?_⟩
  calc t.ctxs.set ca (decremented (t.ctx ca) L)
      = (s.ctxs.set ca (t.ctx ca)).set ca (decremented (t.ctx ca) L) := by rw [← hctxs]
    _ = s.ctxs.set ca { s.ctx ca with count := (s.ctx ca).count + 2 } := by
      rw [List.set_set, hctx, decremented_incremented hover]

/-! ### No false negatives (42_slot_ops.md R124) -/

/-- After the slots of `L` are set, all of them are nonzero. -/
theorem allSet_marked {x : Ctx} {L : List Nat} (hL : ∀ j ∈ L, j < x.slots.length) : AllSet (marked x L) L := by
  intro j hj
  rw [getD_marked (hL j hj), if_pos hj]
  decide

/-- Setting slots makes no slot zero. -/
theorem getD_marked_ne_zero {x : Ctx} {j : Nat} (L : List Nat) (h : x.slots.getD j 0 ≠ 0) :
    (marked x L).slots.getD j 0 ≠ 0 := by
  have hj : j < x.slots.length := Nat.lt_of_not_le fun hout => h (List.getD_eq_default _ _ hout)
  rw [getD_marked hj]
  split
  · decide
  · exact h

/-- The slots that `ADD` set are those the key touches in the `TEST` that follows (R124). -/
theorem add_then_test {s t : State} {ca : Nat} (hs : EngineInv s) (hbf : (s.ctx ca).var = .bf)
    (hadd : exec (.add ca) s = .next t) (hok : t.err = .ok) :
    ∃ u, exec (.test ca) t = .next u ∧ u.err = .ok ∧ u.result = 1 := by
  obtain ⟨u, v, hcmd, -⟩ := exec_ok_cases hadd hok
  obtain ⟨hc, hv, hkey, L, hL, -, -⟩ := addCmd_ok.1 hcmd
  have hready : KeyReady s ca := ⟨⟨hc, hv⟩, hkey⟩
  obtain ⟨hready', hL', -, hctx⟩ := exec_add_keeps_touches hs hready hL hadd
  rw [visited_addStep_bf L hbf] at hctx
  have hall : AllSet (t.ctx ca) L := hctx ▸ allSet_marked (touches_lt_length hs hready hL)
  exact ⟨_, testAnswersMembership t ca L hready' hL', rfl, if_pos hall⟩

/-- What is kept of a BF that a command does not replace: it is a valid BF of the same sizes, and no slot fell to 0. -/
def StillHolds (x y : Ctx) : Prop :=
  y.valid = true ∧ y.var = .bf ∧ y.m = x.m ∧ y.k = x.k ∧ ∀ j, x.slots.getD j 0 ≠ 0 → y.slots.getD j 0 ≠ 0

theorem ctxEffect_stillHolds {i : Instr} {s : State} {v : Word} {c : Nat} {y : Ctx} (hv : (s.ctx c).valid = true)
    (hbf : (s.ctx c).var = .bf) (hi : replaces c i = false) (h : CtxEffect i s v c y) : StillHolds (s.ctx c) y := by
  cases h with
  | kept => exact ⟨hv, hbf, rfl, rfl, fun _ hj => hj⟩
  | counted L name visit =>
    obtain rfl := visit.resolve_right fun hdec => by simp [hbf] at hdec
    rw [visited_addStep_bf L hbf]
    exact ⟨hv, hbf, rfl, rfl, fun _ => getD_marked_ne_zero L⟩
  | ended name | configured name | projected name | decoded name => simp [name, replaces] at hi

/-- Settles O29: `TEST` reads the slots `ADD` set, and a visit of a BF only sets slots. -/
theorem bloomHasNoFalseNegatives : Obligations.BloomHasNoFalseNegatives := by
  refine ⟨fun s t ca hs hbf hadd hok => add_then_test hs hbf hadd hok, fun i s t c hv hbf hi h => ?_⟩
  rcases exec_next_cases h with ⟨e, -, rfl⟩ | ⟨u, v, hcmd, rfl⟩
  · exact ctxEffect_stillHolds (v := 0) hv hbf hi .kept
  · exact ctxEffect_stillHolds hv hbf hi (commandOf_ctxEffect hcmd c)

end Sys2Proof.Proofs

/-! The conversion command (spec/43_conversion.md R131 to R133): the projection of a counting filter as a filter of its own,
`TOBF` on each variant, and that `TEST` cannot tell a filter from one of the same sizes with the same zero slots. -/

namespace Sys2Proof.Proofs

open Sys2Proof.Machine Sys2Proof.Safety Sys2Proof.Claims Sys2Proof.Laws

/-! ### `TOBF` (43_conversion.md R131, R132) -/

/-- The BF that `TOBF` makes of a filter, in a slot array with the storage `spare` above the filter's slots (R131). -/
def projection (x : Ctx) (spare : List Byte) : Ctx where
  valid := true
  var := .bf
  ovf := .wrap
  m := x.m
  k := x.k
  count := x.count
  slots := x.live.map projectSlot ++ spare

theorem projectSlot_eq_zero {v : Byte} : projectSlot v = 0 ↔ v = 0 := by
  unfold projectSlot
  split
  case isTrue h => exact iff_of_true rfl h
  case isFalse h => exact iff_of_false (by decide) h

/-- A slot of the projection is the source's slot, projected; the array reaches `m` in a valid context (10_state.md R26). -/
theorem getD_projection {p : Config} {x : Ctx} (hx : CtxOk p x) (hv : x.valid = true) (spare : List Byte) {j : Nat}
    (hj : j < x.m.toNat) : (projection x spare).slots.getD j 0 = projectSlot (x.slots.getD j 0) := by
  have hlen : j < (x.live.map projectSlot).length := by rwa [List.length_map, live_length hx hv]
  calc (projection x spare).slots.getD j 0
      = (x.live.map projectSlot).getD j (projectSlot 0) := List.getD_append _ _ _ _ hlen
    _ = projectSlot (x.slots.getD j 0) := by rw [List.getD_map, getD_live hj]

/-- The filter's slots and the spare ones fill the storage. -/
theorem length_projection {s : State} {x : Ctx} (hx : CtxOk s.cfg x) (hv : x.valid = true) :
    (projection x (s.spareSlots (x.live.map projectSlot).length)).slots.length = s.cfg.mMax := by
  obtain ⟨-, hm, -⟩ := hx.2 hv
  simp only [projection, List.length_append, spareSlots_length, List.length_map, live_length hx hv]
  omega

/-- `TOBF` fails on a BF source once the checks of the contexts pass. -/
theorem tobfCmd_variant {s : State} {ca cb : Nat} (h : Ready s ca) (hcb : cb < s.cfg.nctx) (hbf : (s.ctx ca).var = .bf) :
    tobfCmd ca cb s = .error .variant := by
  obtain ⟨hc, hv⟩ := h
  have hvar : decide ((s.ctx ca).var = .cbf) = false := by rw [hbf]; rfl
  rw [tobfCmd, (checkCtx_eq_ok (u := ())).2 hc, ok_bind, (checkCtx_eq_ok (u := ())).2 hcb, ok_bind,
    (checkValid_eq_ok (u := ())).2 hv, ok_bind, hvar, require_false, error_bind]

/-- Settles O30: the constructed context is the source's projection, read slot by slot. -/
theorem tobfProjectsCounters : Obligations.TobfProjectsCounters := by
  intro s ca cb hs hready hcb
  have ⟨hc, hv⟩ := hready
  have hx := inv_ctx hs hc
  refine ⟨fun hcbf => ?_, fun hbf => exec_of_error (tobfCmd_variant hready hcb hbf)⟩
  exact ⟨projection (s.ctx ca) _, _, exec_of_ok (tobfCmd_ok.2 ⟨hc, hcb, hv, hcbf, rfl, rfl⟩), rfl, rfl, rfl, rfl, rfl, rfl,
    rfl, length_projection hx hv, fun _ hj => getD_projection hx hv _ hj⟩

/-! ### `TEST` on a projection (43_conversion.md R133) -/

/-- Two filters that hold the same keys: equal sizes, so that a key touches the same slots, and the same zero slots. -/
structure SameMembership (x y : Ctx) : Prop where
  m : y.m = x.m
  k : y.k = x.k
  zero : ∀ j < x.m.toNat, (y.slots.getD j 0 = 0 ↔ x.slots.getD j 0 = 0)

theorem sameMembership_projection {p : Config} {x : Ctx} (hx : CtxOk p x) (hv : x.valid = true) (spare : List Byte) :
    SameMembership x (projection x spare) where
  m := rfl
  k := rfl
  zero j hj := by rw [getD_projection hx hv spare hj, projectSlot_eq_zero]

/-- Slots of the filter are all set in both or in neither. -/
theorem SameMembership.allSet_iff {x y : Ctx} (h : SameMembership x y) {L : List Nat} (hL : ∀ j ∈ L, j < x.m.toNat) :
    AllSet y L ↔ AllSet x L :=
  forall₂_congr fun j hj => not_congr (h.zero j (hL j hj))

/-- `TEST` fails on a key that is too long (42_slot_ops.md R114). -/
theorem testCmd_range {s : State} {c : Nat} (h : Ready s c) (hkey : s.cfg.keyMax < s.keylen.toNat) :
    testCmd c s = .error .range := by
  obtain ⟨hc, hv⟩ := h
  rw [testCmd, bind_checks_of_ready hc hv, checkKey, decide_eq_false hkey.not_ge, require_false, error_bind]

/-- `TEST` of one key answers alike, error or result, on two filters that hold the same keys: the key's length and its hash
are checked alike, and it touches the same slots. -/
theorem exec_test_agrees {s t : State} {ca cb : Nat} (hs : EngineInv s) (ha : Ready s ca) (hb : Ready t cb)
    (hcfg : t.cfg = s.cfg) (hkeylen : t.keylen = s.keylen) (hkey : t.key = s.key)
    (hsame : SameMembership (s.ctx ca) (t.ctx cb)) :
    ∃ u v, exec (.test cb) t = .next u ∧ exec (.test ca) s = .next v ∧ u.err = v.err ∧ u.result = v.result := by
  by_cases hfits : s.keylen.toNat ≤ s.cfg.keyMax
  · have hready : KeyReady s ca := ⟨ha, hfits⟩
    have hready' : KeyReady t cb := ⟨hb, by rwa [hkeylen, hcfg]⟩
    have hslots : slotsForKey t.cfg t.key (t.ctx cb).k.toNat (t.ctx cb).m.toNat =
        slotsForKey s.cfg s.key (s.ctx ca).k.toNat (s.ctx ca).m.toNat := by rw [hcfg, hkey, hsame.k, hsame.m]
    cases hL : slotsForKey s.cfg s.key (s.ctx ca).k.toNat (s.ctx ca).m.toNat with
    | none =>
      exact ⟨_, _, hashFailureAbortsCommand t cb _ hready' (hslots.trans hL) (by simp),
        hashFailureAbortsCommand s ca _ hready hL (by simp), rfl, rfl⟩
    | some L =>
      have hall := hsame.allSet_iff fun j hj => (touched_lt hs ha.1 ha.2 hL j hj).1
      exact ⟨_, _, testAnswersMembership t cb L hready' (hslots.trans hL), testAnswersMembership s ca L hready hL, rfl,
        by simp only [hall]⟩
  · have hlong := Nat.lt_of_not_le hfits
    exact ⟨_, _, exec_of_error (testCmd_range hb (by rwa [hkeylen, hcfg])), exec_of_error (testCmd_range ha hlong), rfl, rfl⟩

/-- Settles O31: the projection holds the same keys as its source, and `TOBF` leaves the key. -/
theorem projectionPreservesMembership : Obligations.ProjectionPreservesMembership := by
  intro s t ca cb hs htobf hok
  obtain ⟨u, v, hcmd, rfl⟩ := exec_ok_cases htobf hok
  obtain ⟨hc, hcb, hv, -, rfl, -⟩ := tobfCmd_ok.1 hcmd
  have hctx := ctx_construct_same s .bf .wrap (s.ctx ca).m (s.ctx ca).k (s.ctx ca).count
    ((s.ctx ca).live.map projectSlot) (ctx_lt hs hcb)
  refine exec_test_agrees hs ⟨hc, hv⟩ ⟨hcb, ?_⟩ rfl rfl (key_of_mem rfl rfl rfl) ?_
  · rw [complete_ctx, hctx]
  · rw [complete_ctx, hctx]
    exact sameMembership_projection (inv_ctx hs hc) hv _

end Sys2Proof.Proofs

/-! The codec (spec/44_codec.md R145 to R154): the lengths of a text, what the decoder takes, and `SER` and `DESER` on
the filter of a context, which meets the decoder's limits when the context is valid. -/

namespace Sys2Proof.Proofs

open Sys2Proof.Machine Sys2Proof.Safety Sys2Proof.Claims Sys2Proof.Laws

/-! ### The texts that decode (44_codec.md R146) -/

theorem byte_le_one_iff {v : Byte} : v.toNat ≤ 1 ↔ v = 0 ∨ v = 1 := by
  rw [Nat.le_one_iff_eq_zero_or_eq_one, ← BitVec.toNat_inj (x := v), ← BitVec.toNat_inj (x := v)]
  rfl

/-- The limits of R146 in the spec's own words: `m` and `k` fit 64 bits because the parameters do (00_scope.md R5). -/
theorem fits_iff {p : Config} {var : Variant} {f : Machine.Filter} :
    f.Fits p var ↔ f.slots.length = f.m ∧ 1 ≤ f.m ∧ f.m ≤ p.mMax ∧ f.k ≤ p.kMax ∧ f.count < 2 ^ 64 ∧
      (var = .bf → ∀ v ∈ f.slots, v = 0 ∨ v = 1) := by
  have hm := mMax_lt p
  have hk := kMax_le p
  simp only [Filter.Fits, byte_le_one_iff]
  constructor
  · rintro ⟨⟨-, -, hcount⟩, hlen, ⟨hpos, hmMax, hkMax⟩, hbf⟩
    exact ⟨hlen, hpos, hmMax, hkMax, hcount, hbf⟩
  · rintro ⟨hlen, hpos, hmMax, hkMax, hcount, hbf⟩
    exact ⟨⟨by omega, by omega, hcount⟩, hlen, ⟨hpos, hmMax, hkMax⟩, hbf⟩

/-- Settles O35: the decoder undoes `Ser` and takes no second spelling of a text, and its limits are those of R146. -/
theorem decoderTakesExactlyCanonicalTexts : Obligations.DecoderTakesExactlyCanonicalTexts :=
  fun _ _ _ _ => decodeText_eq_some.trans (and_congr_right fun _ => fits_iff)

/-- A filter within the limits for a BF is within those for a CBF. -/
theorem fits_cbf {p : Config} {var : Variant} {f : Machine.Filter} (h : f.Fits p var) : f.Fits p .cbf := by
  obtain ⟨hword, hlen, hrange, -⟩ := h
  exact ⟨hword, hlen, hrange, nofun⟩

/-- `Ser` is injective on the filters within the limits: a text decodes to one filter at most. -/
theorem serialize_injective {p : Config} {var var' : Variant} {f g : Machine.Filter} (hf : f.Fits p var)
    (hg : g.Fits p var') (h : serialize f = serialize g) : f = g := by
  have hdf : decodeText p .cbf (serialize f) = some f := decodeText_eq_some.2 ⟨rfl, fits_cbf hf⟩
  have hdg : decodeText p .cbf (serialize f) = some g := decodeText_eq_some.2 ⟨h, fits_cbf hg⟩
  exact Option.some.inj (hdf.symm.trans hdg)

/-! ### Lengths (44_codec.md R145) -/

/-- Settles O34: `SERLEN_OF` counts the digits that `Dec` writes. -/
theorem serialTextLength : Obligations.SerialTextLength := by
  intro f hs hm hk hcount
  have digits {n : Nat} (h : n < 2 ^ 64) : (dec n).length = decimalLength 20 n := dec_length 20 (by omega)
  refine ⟨textOf_length hs, serialize_length hs hm hk hcount, ?_⟩
  rw [serlenOf, digits hm, digits hk, digits hcount]

/-! ### The filter of a context -/

/-- The filter of a valid context meets every limit of the decoder (44_codec.md R153, 10_state.md R26). -/
theorem filter_fits {p : Config} {x : Ctx} (hx : CtxOk p x) (hv : x.valid = true) : x.filter.Fits p x.var := by
  obtain ⟨hpos, hm, hk, hbf⟩ := hx.2 hv
  exact fits_iff.2 ⟨live_length hx hv, hpos, hm, hk, x.count.isLt, hbf⟩

/-- The text of a valid context fits `SERBUF`, which has room for the longest text there is (00_scope.md R5). -/
theorem serialize_filter_length_le {p : Config} {x : Ctx} (hx : CtxOk p x) (hv : x.valid = true) :
    (serialize x.filter).length ≤ p.serMax := by
  obtain ⟨⟨hm64, hk64, hcount64⟩, hlen, ⟨-, hm, hk⟩, -⟩ := filter_fits hx hv
  calc (serialize x.filter).length
      = serlenOf x.filter.m x.filter.k x.filter.count := serialize_length hlen hm64 hk64 hcount64
    _ ≤ serlenOf p.mMax p.kMax (2 ^ 64 - 1) := serlenOf_mono hm hk (Nat.le_pred_of_lt hcount64)
    _ ≤ p.serMax := serlen_max p

/-- Two contexts hold one filter when the fields of R154 are equal. -/
theorem filter_eq_iff {x y : Ctx} :
    x.filter = y.filter ↔ x.m = y.m ∧ x.k = y.k ∧ x.count = y.count ∧ x.live = y.live := by
  simp only [Ctx.filter, Machine.Filter.mk.injEq, BitVec.toNat_inj]

/-- The fields that `EQUALS` compares are the variant and the filter (45_equality.md R161). -/
theorem same_eq_true {x y : Ctx} : x.same y = true ↔ x.filter = y.filter ∧ x.var = y.var := by
  simp only [Ctx.same, filter_eq_iff, Bool.and_eq_true, decide_eq_true_eq]
  tauto

theorem exec_equals_of_ready {s : State} {ca cb : Nat} (ha : Ready s ca) (hb : Ready s cb) :
    exec (.equals ca cb) s = .next (complete (boolWord ((s.ctx ca).same (s.ctx cb))) s) :=
  exec_of_ok (equalsCmd_ok.2 ⟨ha.1, hb.1, ha.2, hb.2, rfl, rfl⟩)

/-- Settles O40: within the limits equal texts are texts of one filter. -/
theorem equalTextsMeanEqualFilters : Obligations.EqualTextsMeanEqualFilters := by
  intro s ca cb hs ha hb
  have htexts : serialize (s.ctx ca).filter = serialize (s.ctx cb).filter ↔ (s.ctx ca).filter = (s.ctx cb).filter :=
    ⟨serialize_injective (filter_fits (inv_ctx hs ha.1) ha.2) (filter_fits (inv_ctx hs hb.1) hb.2),
      congrArg serialize⟩
  refine ⟨htexts.trans filter_eq_iff, fun t ht => ?_⟩
  rw [exec_equals_of_ready ha hb] at ht
  cases ht
  rw [complete_result, boolWord_eq_one, same_eq_true, htexts]

/-! ### `SER` (44_codec.md R151) -/

/-- The end of a command leaves the serial text. -/
theorem complete_text (v : Word) (s : State) : (complete v s).text = s.text :=
  bytesAt_of_mem (s := s) (t := complete v s) rfl rfl serbufBase s.serlen.toNat

/-- The state after the writes of `SER`: a text in `SERBUF` and its length in `SERLEN`. -/
def withText (s : State) (text : List Byte) : State :=
  { s.setBytes serbufBase text with serlen := BitVec.ofNat 64 text.length }

section WithText

variable (s : State) {text : List Byte} (h : text.length ≤ s.cfg.serMax)

include h in
theorem withText_serlen : (withText s text).serlen.toNat = text.length := by
  have := serMax_le s.cfg
  rw [withText, BitVec.toNat_ofNat, Nat.mod_eq_of_lt (by omega)]

include h in
/-- The text just written is the serial text. -/
theorem withText_text : (withText s text).text = text := by
  rw [State.text, withText_serlen s h,
    bytesAt_of_mem (s := s.setBytes serbufBase text) (t := withText s text) rfl rfl, bytesAt_setBytes]

/-- A byte that is no part of the text reads as before. -/
theorem withText_byteAt_out {a : Nat} (ha : ¬(serbufBase ≤ a ∧ a < serbufBase + text.length)) :
    (withText s text).byteAt a = s.byteAt a := by
  rw [byteAt_of_mem (s := s.setBytes serbufBase text) (t := withText s text) rfl rfl,
    byteAt_setBytes_out s text ha]

end WithText

theorem exec_ser_of_ready {s : State} {ca : Nat} (h : Ready s ca)
    (hfits : (serialize (s.ctx ca).filter).length ≤ s.cfg.serMax) :
    exec (.ser ca) s = .next (complete (withText s (serialize (s.ctx ca).filter)).serlen
      (withText s (serialize (s.ctx ca).filter))) :=
  exec_of_ok (serCmd_ok.2 ⟨h.1, h.2, hfits, rfl, rfl⟩)

/-- Settles O36: the text fits, so the last check of `SER` passes and the text's length fits the 64 bits of `SERLEN`. -/
theorem serWritesCanonicalText : Obligations.SerWritesCanonicalText := by
  intro s ca hs h
  have hfits := serialize_filter_length_le (inv_ctx hs h.1) h.2
  have hser := exec_ser_of_ready h hfits
  generalize serialize (s.ctx ca).filter = text at hfits hser ⊢
  have hserlen := withText_serlen s hfits
  refine ⟨_, hser, rfl, hserlen, ?_, fun a ha => ?_⟩
  · rw [complete_text, withText_text s hfits]
  · rw [complete_serlen, hserlen] at ha
    rw [complete_byteAt, withText_byteAt_out s ha]

/-! ### `DESER` (44_codec.md R152) -/

theorem deserCmd_range {s : State} {ca : Nat} {var : Variant} {ovf : Policy} (hc : ca < s.cfg.nctx)
    (h : s.cfg.serMax < s.serlen.toNat) : deserCmd ca var ovf s = .error .range := by
  rw [deserCmd, (checkCtx_eq_ok (u := ())).2 hc, ok_bind, decide_eq_false h.not_ge, require_false, error_bind]

theorem deserCmd_decode {s : State} {ca : Nat} {var : Variant} {ovf : Policy} (hc : ca < s.cfg.nctx)
    (hlen : s.serlen.toNat ≤ s.cfg.serMax) (h : decodeText s.cfg var s.text = none) :
    deserCmd ca var ovf s = .error .decode := by
  rw [deserCmd, (checkCtx_eq_ok (u := ())).2 hc, ok_bind, decide_eq_true hlen, require_true, ok_bind, h]

/-- Settles O38: each of the two checks ends the command before it constructs a filter. -/
theorem deserRejectsBadText : Obligations.DeserRejectsBadText := fun _ _ _ _ hc =>
  ⟨fun h => exec_of_error (deserCmd_range hc h), fun hlen h => exec_of_error (deserCmd_decode hc hlen h)⟩

/-- Settles O37: a decoded filter is within the limits, so its numbers fit the context's 64-bit fields and its slots the
slot array. -/
theorem deserRebuildsFilter : Obligations.DeserRebuildsFilter := by
  intro s ca var ovf f hc hlen hf
  obtain ⟨-, ⟨hm64, hk64, -⟩, hslots, ⟨-, hm, -⟩, -⟩ := decodeText_eq_some.1 hf
  have hword {n : Nat} (h : n < 2 ^ 64) : (BitVec.ofNat 64 n).toNat = n := by
    rw [BitVec.toNat_ofNat, Nat.mod_eq_of_lt h]
  refine ⟨_, _, exec_of_ok (deserCmd_ok.2 ⟨hc, hlen, f, hf, rfl, rfl⟩), rfl, rfl, rfl, rfl, hword hm64,
    hword hk64, decodeText_count hf, ?_, live_append rfl (hslots.trans (hword hm64).symm)⟩
  rw [List.length_append, spareSlots_length]
  omega

/-! ### The round trip (44_codec.md R153) -/

/-- The context holds the filter `f` of variant `var`: what `EQUALS` sees of a valid context (45_equality.md R161). -/
structure Holds (f : Machine.Filter) (var : Variant) (x : Ctx) : Prop where
  valid : x.valid = true
  filter : x.filter = f
  var : x.var = var

theorem exec_equals_of_holds {s : State} {ca cb : Nat} {f : Machine.Filter} {var : Variant} (hca : ca < s.cfg.nctx)
    (hcb : cb < s.cfg.nctx) (ha : Holds f var (s.ctx ca)) (hb : Holds f var (s.ctx cb)) :
    exec (.equals ca cb) s = .next (complete 1 s) := by
  have hsame : (s.ctx ca).same (s.ctx cb) = true :=
    same_eq_true.2 ⟨ha.filter.trans hb.filter.symm, ha.var.trans hb.var.symm⟩
  rw [exec_equals_of_ready ⟨hca, ha.valid⟩ ⟨hcb, hb.valid⟩, hsame, boolWord_eq_one.2 rfl]

/-- The text that `SER` leaves is within `SER_MAX` and decodes, as the context's variant, to the context's filter. -/
theorem exec_ser_decodes {s : State} {ca : Nat} (hs : EngineInv s) (h : Ready s ca) :
    ∃ t, exec (.ser ca) s = .next t ∧ t.err = .ok ∧ t.cfg = s.cfg ∧ t.ctxs = s.ctxs ∧
      t.serlen.toNat ≤ t.cfg.serMax ∧ decodeText t.cfg (s.ctx ca).var t.text = some (s.ctx ca).filter := by
  have hx := inv_ctx hs h.1
  obtain ⟨t, hser, ht, hserlen, htext, -⟩ := serWritesCanonicalText s ca hs h
  have hcfg : t.cfg = s.cfg := by rw [ht]
  refine ⟨t, hser, by rw [ht], hcfg, by rw [ht], ?_, ?_⟩
  · rw [hserlen, hcfg]
    exact serialize_filter_length_le hx h.2
  · rw [htext, hcfg]
    exact decodeText_eq_some.2 ⟨rfl, filter_fits hx h.2⟩

/-- Settles O39: the destination holds the source's filter, and so does the source, also where it is the destination. -/
theorem serDeserRoundTrip : Obligations.SerDeserRoundTrip := by
  intro s ca cb hs ha hcb
  obtain ⟨t, hser, hok, hcfg, hctxs, hlen, hdec⟩ := exec_ser_decodes hs ha
  obtain ⟨x, u, hdeser, hu, hvalid, hvar, hovf, hm, hk, hcount, -, hlive⟩ :=
    deserRebuildsFilter t cb _ (s.ctx ca).ovf _ (hcfg ▸ hcb) hlen hdec
  have hucfg : u.cfg = s.cfg := by rw [hu, hcfg]
  have hctx (c : Nat) : u.ctx c = (s.setCtx cb x).ctx c := by rw [hu, State.ctx, State.ctx, setCtx_ctxs, hctxs]
  have hdest : u.ctx cb = x := (hctx cb).trans (ctx_setCtx_same s x (ctx_lt hs hcb))
  have hfilter : x.filter = (s.ctx ca).filter := by rw [Ctx.filter, hm, hk, hcount, hlive]
  have hx : Holds (s.ctx ca).filter (s.ctx ca).var x := ⟨hvalid, hfilter, hvar⟩
  have hsource : Holds (s.ctx ca).filter (s.ctx ca).var (u.ctx ca) := by
    rw [hctx]
    exact ctx_setCtx_induction s cb ca x ⟨ha.2, rfl, rfl⟩ fun _ => hx
  obtain ⟨hm', hk', hcount', hlive'⟩ := filter_eq_iff.1 hfilter
  refine ⟨t, u, complete 1 u, hser, hok, hdeser, by rw [hu], ?_⟩
  rw [hdest]
  exact ⟨hm', hk', hcount', hlive', hvar, hovf,
    exec_equals_of_holds (hucfg ▸ ha.1) (hucfg ▸ hcb) hsource (hdest.symm ▸ hx), rfl, rfl⟩

end Sys2Proof.Proofs

/-! `EQUALS` (spec/45_equality.md R161, R162): the comparison of the live slots, slot by slot, and the relation it is on
contexts. -/

namespace Sys2Proof.Proofs

open Sys2Proof.Machine Sys2Proof.Safety Sys2Proof.Claims Sys2Proof.Laws

/-! ### What is compared (45_equality.md R161) -/

theorem boolWord_eq_zero_or_one (b : Bool) : boolWord b = 0 ∨ boolWord b = 1 :=
  b.eq_false_or_eq_true.symm.imp boolWord_eq_zero.2 boolWord_eq_one.2

/-- Two valid contexts of one size have equal live slots when they agree on each slot below that size. -/
theorem live_eq_iff {p : Config} {x y : Ctx} (hx : CtxOk p x) (hxv : x.valid = true) (hy : CtxOk p y)
    (hyv : y.valid = true) (hm : x.m = y.m) :
    x.live = y.live ↔ ∀ j, j < x.m.toNat → x.slots.getD j 0 = y.slots.getD j 0 := by
  have hlx := live_length hx hxv
  have hly := live_length hy hyv
  have hslots {j : Nat} (hj : j < x.m.toNat) :
      x.live.getD j 0 = x.slots.getD j 0 ∧ y.live.getD j 0 = y.slots.getD j 0 :=
    ⟨getD_live hj, getD_live (hm ▸ hj)⟩
  constructor
  · intro h j hj
    rw [← (hslots hj).1, h, (hslots hj).2]
  · intro h
    refine List.ext_getElem (by rw [hlx, hly, hm]) fun j hjx hjy => ?_
    obtain ⟨hgx, hgy⟩ := hslots (hlx ▸ hjx)
    rw [← List.getD_eq_getElem _ 0 hjx, ← List.getD_eq_getElem _ 0 hjy, hgx, hgy]
    exact h j (hlx ▸ hjx)

/-- Settles O32: the compared filter is `m`, `k`, `count` and the live slots, and those are equal slot by slot. -/
theorem equalsComparesFilters : Obligations.EqualsComparesFilters := by
  intro s ca cb hs ha hb
  refine ⟨_, exec_equals_of_ready ha hb, rfl, boolWord_eq_zero_or_one _, ?_⟩
  have hlive (hm : (s.ctx ca).m = (s.ctx cb).m) := live_eq_iff (inv_ctx hs ha.1) ha.2 (inv_ctx hs hb.1) hb.2 hm
  rw [complete_result, boolWord_eq_one, same_eq_true, filter_eq_iff, and_comm]
  exact and_congr_right fun _ => and_congr_right fun hm => and_congr_right fun _ => and_congr_right fun _ => hlive hm

/-! ### The relation (45_equality.md R162) -/

theorem same_refl (x : Ctx) : x.same x = true := same_eq_true.2 ⟨rfl, rfl⟩

theorem same_comm (x y : Ctx) : x.same y = y.same x := by
  rw [Bool.eq_iff_iff, same_eq_true, same_eq_true, eq_comm (a := x.filter), eq_comm (a := x.var)]

theorem same_trans {x y z : Ctx} (hxy : x.same y = true) (hyz : y.same z = true) : x.same z = true := by
  obtain ⟨hf, hvar⟩ := same_eq_true.1 hxy
  obtain ⟨hf', hvar'⟩ := same_eq_true.1 hyz
  exact same_eq_true.2 ⟨hf.trans hf', hvar.trans hvar'⟩

/-- Settles O33: on valid contexts `EQUALS` answers the relation `Ctx.same`, which is an equivalence. -/
theorem equalsIsEquivalence : Obligations.EqualsIsEquivalence := by
  intro s a b c ha hb hc
  refine ⟨⟨_, exec_equals_of_ready ha ha, ?refl⟩,
    ⟨_, _, exec_equals_of_ready ha hb, exec_equals_of_ready hb ha, ?symm⟩,
    ⟨_, _, _, exec_equals_of_ready ha hb, exec_equals_of_ready hb hc, exec_equals_of_ready ha hc, ?trans⟩⟩
  case refl => exact boolWord_eq_one.2 (same_refl _)
  case symm => exact congrArg boolWord (same_comm _ _)
  case trans =>
    simp only [complete_result, boolWord_eq_one]
    exact same_trans

end Sys2Proof.Proofs

/-! The errors and the interrupt (spec/60_exceptions.md): the engine's turn, the order in which a command's checks report,
what a failing command leaves, the contexts that a command reads and writes, and the interrupt line. -/

namespace Sys2Proof.Proofs

open Sys2Proof.Machine Sys2Proof.Safety Sys2Proof.Claims Sys2Proof.Laws

/-! ### The engine's turn (60_exceptions.md R171, 70_reset_and_hazards.md R198) -/

theorem engineTurn_of_decodes {s : State} {w : Word} {i : Instr} (hp : s.pending = some w) (hd : decode w = .ok i) :
    engineTurn s = exec i s := by
  simp only [engineTurn, hp, hd]

theorem engineTurn_of_rejects {s : State} {w : Word} {r : Reject} (hp : s.pending = some w) (hd : decode w = .error r) :
    engineTurn s = .next (raise .illegalCmd s) := by
  simp only [engineTurn, hp, hd]

theorem engineTurn_of_empty {s : State} (hp : s.pending = none) : engineTurn s = .next s := by
  simp only [engineTurn, hp]

/-- A word is its own table word: a command has one length, 64 bits (30_encoding.md R60). -/
theorem tableWord_toNat (w : Word) : tableWord 64 w.toNat = w := by
  rw [tableWord, Nat.mod_eq_of_lt w.isLt, BitVec.ofNat_toNat, BitVec.setWidth_eq]

/-- Settles O5: an empty schedule and a scheduled turn both come to `engineTurn`, and `withFetchWord` leaves the schedule
empty. -/
theorem stepRunsTheLatchedCommand : Obligations.StepRunsTheLatchedCommand := by
  refine ⟨fun s w i hp hd => ⟨fun h => ?_, fun rest h => ?_⟩, fun s w i hd => ?_,
    fun s hp => ⟨fun h => ?_, fun rest h => ?_⟩⟩
  · rw [step_of_nil h, engineTurn_of_decodes hp hd]
  · rw [step_of_cons h]
    exact engineTurn_of_decodes hp hd
  · rw [State.withFetchWord, tableWord_toNat, step_of_nil rfl]
    exact engineTurn_of_decodes rfl hd
  · rw [step_of_nil h, engineTurn_of_empty hp]
  · rw [step_of_cons h]
    exact engineTurn_of_empty hp

/-! ### The order of the checks (60_exceptions.md R167) -/

/-- A command started in `s` that ends as `r` reports the first failure of `checks`. -/
def Reports (s : State) (r : Except ErrCode (State × Word)) (checks : List (Bool × ErrCode)) : Prop :=
  (finish s r).err = firstFailure checks

/-- A command whose checks have all passed reports success. -/
theorem reports_ok (s : State) (p : State × Word) : Reports s (.ok p) [] := rfl

/-- A check of the command comes before the checks of what follows it. -/
theorem reports_require {s : State} {b : Bool} {e : ErrCode} {f : Unit → Except ErrCode (State × Word)}
    {checks : List (Bool × ErrCode)} (h : Reports s (f ()) checks) :
    Reports s (require b e >>= f) ((b, e) :: checks) := by
  cases b with
  | true => exact h
  | false => rfl

theorem reports_touchedSlots {s : State} {c : Nat} {f : List Nat → Except ErrCode (State × Word)}
    {checks : List (Bool × ErrCode)} (h : ∀ L, Reports s (f L) checks) :
    Reports s (touchedSlots s c >>= f)
      (((slotsForKey s.cfg s.key (s.ctx c).k.toNat (s.ctx c).m.toNat).isSome, .hash) :: checks) := by
  unfold touchedSlots
  cases slotsForKey s.cfg s.key (s.ctx c).k.toNat (s.ctx c).m.toNat with
  | none => rfl
  | some L => exact h L

/-- Two checks with one code are one check. -/
theorem require_require {β : Type} (b c : Bool) (e : ErrCode) (f : Unit → Except ErrCode β) :
    (require b e >>= fun _ => require c e >>= f) = (require (b && c) e >>= f) := by
  cases b <;> rfl

/-- The sizes that `CONFIG` takes: its three checks report one code (40_lifecycle.md R81). -/
theorem reports_configCmd (ca : Nat) (var : Variant) (ovf : Policy) (s : State) :
    Reports s (configCmd ca var ovf s) (checksOf s (.config ca var ovf)) := by
  have hsizes : decide (1 ≤ s.arg0.toNat ∧ s.arg0.toNat ≤ s.cfg.mMax ∧ s.arg1.toNat ≤ s.cfg.kMax) =
      (decide (s.arg0 ≠ 0) && decide (s.arg0.toNat ≤ s.cfg.mMax) && decide (s.arg1.toNat ≤ s.cfg.kMax)) := by
    simp [Nat.one_le_iff_ne_zero, BitVec.toNat_eq, Bool.and_assoc]
  rw [configCmd, require_require, require_require, checksOf, hsizes]
  exact reports_require (reports_require (reports_ok s _))

/-- `TESTREM` checks the key on a CBF only (42_slot_ops.md R119, R120). -/
theorem reports_testremCmd (ca : Nat) (s : State) : Reports s (testremCmd ca s) (checksOf s (.testrem ca)) := by
  refine reports_require (reports_require ?_)
  cases hvar : (s.ctx ca).var with
  | bf => rfl
  | cbf =>
    simp only [reduceCtorEq, decide_false, false_or, Bool.false_or]
    exact reports_require (reports_touchedSlots fun _ => reports_ok s _)

/-- Every command makes its checks in the table's order. -/
theorem reports_commandOf (i : Instr) (s : State) : Reports s (commandOf i s) (checksOf s i) := by
  cases i with
  | config ca var ovf => exact reports_configCmd ca var ovf s
  | destroy | getcfg => exact reports_require (reports_ok s _)
  | getm | getk | getcount => exact reports_require (reports_require (reports_ok s _))
  | getslot | ser => exact reports_require (reports_require (reports_require (reports_ok s _)))
  | slotidx ca =>
    refine reports_require (reports_require (reports_require (reports_require ?_)))
    cases slotIndex s.cfg s.key s.arg0.toNat (s.ctx ca).m.toNat <;> rfl
  | slots | test | add | testadd =>
    exact reports_require (reports_require (reports_require (reports_touchedSlots fun _ => reports_ok s _)))
  | testrem ca => exact reports_testremCmd ca s
  | tobf | equals => exact reports_require (reports_require (reports_require (reports_require (reports_ok s _))))
  | deser ca var ovf =>
    refine reports_require (reports_require ?_)
    cases decodeText s.cfg var s.text <;> rfl

/-- The checks do not read the schedule. -/
theorem checksOf_unscheduled (s : State) (i : Instr) : checksOf (unscheduled s) i = checksOf s i := by
  have hkey : (unscheduled s).key = s.key := key_of_mem rfl rfl rfl
  have htext : (unscheduled s).text = s.text := bytesAt_of_mem (s := s) (t := unscheduled s) rfl rfl _ _
  cases i with
  | slotidx | slots | test | add | testadd | testrem =>
    unfold checksOf
    rw [hkey]
    rfl
  | deser =>
    unfold checksOf
    rw [htext]
    rfl
  | config | destroy | getm | getk | getcount | getslot | getcfg | tobf | ser | equals => rfl

/-- Settles O6: a word that decodes reports by its command's checks, and one that does not fails before every check. -/
theorem firstErrorInOrderIsReported : Obligations.FirstErrorInOrderIsReported := by
  refine ⟨fun s w hturn hp => ?_, fun i s => ⟨_, exec_eq_finish i s, reports_commandOf i s⟩⟩
  rw [step_of_engineNext hturn]
  cases hd : decode w with
  | ok i =>
    refine ⟨_, (engineTurn_of_decodes (s := unscheduled s) hp hd).trans (exec_eq_finish i _), ?_, nofun⟩
    rintro _ ⟨⟩
    exact (reports_commandOf i (unscheduled s)).trans (congrArg firstFailure (checksOf_unscheduled s i))
  | error r => exact ⟨_, engineTurn_of_rejects hp hd, nofun, fun _ _ => rfl⟩

/-! ### What a failing command leaves (60_exceptions.md R172) -/

theorem exec_failed {i : Instr} {s t : State} (h : exec i s = .next t) (he : t.err ≠ .ok) : t = raise t.err s := by
  rcases exec_next_cases h with ⟨e, -, rfl⟩ | ⟨u, v, -, rfl⟩
  · rfl
  · exact absurd rfl he

/-- What the engine's turn is while a command is pending. -/
theorem engineTurn_busy_cases {s t : State} (hb : s.busy = true) (h : engineTurn s = .next t) :
    (∃ i, exec i s = .next t) ∨ t = raise .illegalCmd s := by
  obtain ⟨w, hp⟩ := Option.isSome_iff_exists.1 hb
  cases hd : decode w with
  | ok i => exact .inl ⟨i, (engineTurn_of_decodes hp hd).symm.trans h⟩
  | error r =>
    rw [engineTurn_of_rejects hp hd] at h
    cases h
    exact .inr rfl

/-- Settles O7: an error end is `raise`, on both forms of the engine's turn. -/
theorem failedCommandChangesNothingElse : Obligations.FailedCommandChangesNothingElse := by
  refine ⟨fun i s t h he => exec_failed h he, fun s t hb hturn h he => ?_⟩
  rw [step_of_engineNext hturn] at h
  rcases engineTurn_busy_cases (s := unscheduled s) hb h with ⟨i, hi⟩ | rfl
  · exact exec_failed hi he
  · rfl

/-! ### The contexts that a command reads and writes (60_exceptions.md R185) -/

theorem mem_namesCtx_of_writesCtx {i : Instr} {c : Nat} (h : writesCtx i = some c) : c ∈ namesCtx i := by
  cases i with
  | config | destroy | add | testadd | testrem | deser =>
    cases h
    exact .head _
  | tobf =>
    cases h
    exact .tail _ (.head _)
  | getm | getk | getcount | getslot | getcfg | slotidx | slots | test | ser | equals => cases h

/-- A context that the command's fields do not name as written is as before. -/
theorem exec_ctx_of_writesCtx_ne {i : Instr} {s t : State} {c : Nat} (h : exec i s = .next t)
    (hc : writesCtx i ≠ some c) : t.ctx c = s.ctx c := by
  rcases exec_next_cases h with ⟨e, -, rfl⟩ | ⟨u, v, hcmd, rfl⟩
  · rfl
  · rw [complete_ctx]
    have heffect := commandOf_ctxEffect hcmd c
    generalize u.ctx c = x at heffect ⊢
    cases heffect with
    | kept => rfl
    | counted L name => rcases name with rfl | rfl | ⟨rfl, -⟩ <;> exact absurd rfl hc
    | ended name | configured name | projected name | decoded name =>
      subst name
      exact absurd rfl hc

/-- The state with other contexts. -/
def withCtxs (s : State) (other : List Ctx) : State := { s with ctxs := other }

/-- The state `u'` is `u` but for its contexts, which are `other` treated as `u` treats those of `s`: left alone, or with
one context written, named as written and given the same value. -/
inductive SameEffect (i : Instr) (s : State) (other : List Ctx) : State → State → Prop where
  | kept {u : State} (ctxs : u.ctxs = s.ctxs) : SameEffect i s other u (withCtxs u other)
  | written {u : State} {c : Nat} {x : Ctx} (name : writesCtx i = some c) (ctxs : u.ctxs = s.ctxs.set c x) :
      SameEffect i s other u (withCtxs u (other.set c x))

/-- Two ends of the command `i`, in `s` and with `other` for its contexts, that are one error, or one result with the same
effect. -/
inductive SameEnd (i : Instr) (s : State) (other : List Ctx) :
    Except ErrCode (State × Word) → Except ErrCode (State × Word) → Prop where
  | failed (e : ErrCode) : SameEnd i s other (.error e) (.error e)
  | ended {u u' : State} (v : Word) (effect : SameEffect i s other u u') : SameEnd i s other (.ok (u, v)) (.ok (u', v))

section OtherContexts

variable {i : Instr} {s : State} {other : List Ctx}

/-- A part of a command that is the same in both states, and what follows it. -/
theorem SameEnd.bind {α : Type} {x x' : Except ErrCode α} {f f' : α → Except ErrCode (State × Word)} (hx : x' = x)
    (hf : ∀ a, SameEnd i s other (f a) (f' a)) : SameEnd i s other (x >>= f) (x' >>= f') := by
  subst hx
  cases x' with
  | error e => exact .failed e
  | ok a => exact hf a

theorem withCtxs_key : (withCtxs s other).key = s.key := key_of_mem rfl rfl rfl

theorem withCtxs_text : (withCtxs s other).text = s.text :=
  bytesAt_of_mem (s := s) (t := withCtxs s other) rfl rfl _ _

theorem decodeText_withCtxs (var : Variant) :
    decodeText (withCtxs s other).cfg var (withCtxs s other).text = decodeText s.cfg var s.text :=
  congrArg (decodeText s.cfg var) withCtxs_text

variable {c : Nat} (hctx : (withCtxs s other).ctx c = s.ctx c)
include hctx

theorem checkValid_withCtxs : checkValid (withCtxs s other) c = checkValid s c := by
  rw [checkValid, hctx, checkValid]

theorem touchedSlots_withCtxs : touchedSlots (withCtxs s other) c = touchedSlots s c := by
  rw [touchedSlots, hctx, withCtxs_key]
  rfl

theorem slotIndex_withCtxs : slotIndex (withCtxs s other).cfg (withCtxs s other).key (withCtxs s other).arg0.toNat
    ((withCtxs s other).ctx c).m.toNat = slotIndex s.cfg s.key s.arg0.toNat (s.ctx c).m.toNat := by
  rw [hctx, withCtxs_key]
  rfl

theorem mutate_withCtxs (f : Byte → Byte × Bool) (L : List Nat) :
    mutate (withCtxs s other) c f L = withCtxs (mutate s c f L) (other.set c (visited (s.ctx c) f L)) := by
  rw [mutate_eq_visited, hctx]
  rfl

/-- A command that begins with `check_ctx` and `check_valid`. -/
theorem SameEnd.bind_checks {f f' : Unit → Except ErrCode (State × Word)} (hf : SameEnd i s other (f ()) (f' ())) :
    SameEnd i s other (do checkCtx s c; checkValid s c >>= f)
      (do checkCtx (withCtxs s other) c; checkValid (withCtxs s other) c >>= f') :=
  .bind rfl fun _ => .bind (checkValid_withCtxs hctx) fun _ => hf

/-- A command that begins with the checks of a key command and the hash. -/
theorem SameEnd.bind_touchedSlots {f f' : List Nat → Except ErrCode (State × Word)}
    (hf : ∀ L, SameEnd i s other (f L) (f' L)) :
    SameEnd i s other (do checkKey s; touchedSlots s c >>= f)
      (do checkKey (withCtxs s other); touchedSlots (withCtxs s other) c >>= f') :=
  .bind rfl fun _ => .bind (touchedSlots_withCtxs hctx) hf

theorem sameEnd_accessorCmd (field : Ctx → Word) :
    SameEnd i s other (accessorCmd field c s) (accessorCmd field c (withCtxs s other)) := by
  refine .bind_checks hctx ?_
  rw [hctx]
  exact .ended _ (.kept rfl)

end OtherContexts

/-- A command ends alike when the contexts it names are the same. -/
theorem sameEnd_commandOf {i : Instr} {s : State} {other : List Ctx}
    (h : ∀ c ∈ namesCtx i, (withCtxs s other).ctx c = s.ctx c) :
    SameEnd i s other (commandOf i s) (commandOf i (withCtxs s other)) := by
  cases i with
  | config => exact .bind rfl fun _ => .bind rfl fun _ => .bind rfl fun _ => .bind rfl fun _ => .ended _ (.written rfl rfl)
  | destroy ca =>
    refine .bind rfl fun _ => ?_
    rw [h ca (.head _)]
    exact .ended _ (.written rfl rfl)
  | getm ca | getk ca | getcount ca => exact sameEnd_accessorCmd (h ca (.head _)) _
  | getslot ca | ser ca =>
    have hca := h ca (.head _)
    refine .bind_checks hca ?_
    rw [hca]
    exact .bind rfl fun _ => .ended _ (.kept rfl)
  | getcfg ca =>
    refine .bind rfl fun _ => ?_
    rw [h ca (.head _)]
    exact .ended _ (.kept rfl)
  | slotidx ca =>
    have hca := h ca (.head _)
    refine .bind_checks hca (.bind rfl fun _ => .bind (by rw [hca]; rfl) fun _ => ?_)
    rw [slotIndex_withCtxs hca]
    cases slotIndex s.cfg s.key s.arg0.toNat (s.ctx ca).m.toNat with
    | none => exact .failed _
    | some r => exact .ended _ (.kept rfl)
  | slots ca | test ca =>
    have hca := h ca (.head _)
    refine .bind_checks hca (.bind_touchedSlots hca fun L => ?_)
    rw [hca]
    exact .ended _ (.kept rfl)
  | add ca | testadd ca =>
    have hca := h ca (.head _)
    refine .bind_checks hca (.bind_touchedSlots hca fun L => ?_)
    rw [hca, mutate_withCtxs hca]
    exact .ended _ (.written rfl rfl)
  | testrem ca =>
    have hca := h ca (.head _)
    refine .bind_checks hca ?_
    rw [hca]
    cases (s.ctx ca).var with
    | bf => exact .ended _ (.kept rfl)
    | cbf =>
      refine .bind_touchedSlots hca fun L => ?_
      rw [hca, mutate_withCtxs hca]
      cases member (s.ctx ca).slots L with
      | false => exact .ended _ (.kept rfl)
      | true => exact .ended _ (.written rfl rfl)
  | tobf ca cb =>
    have hca := h ca (.head _)
    refine .bind rfl fun _ => .bind rfl fun _ => .bind (checkValid_withCtxs hca) fun _ => ?_
    rw [hca]
    exact .bind rfl fun _ => .ended _ (.written rfl rfl)
  | deser ca var ovf =>
    refine .bind rfl fun _ => .bind rfl fun _ => ?_
    rw [decodeText_withCtxs]
    cases decodeText s.cfg var s.text with
    | none => exact .failed _
    | some f => exact .ended _ (.written rfl rfl)
  | equals ca cb =>
    have hca := h ca (.head _)
    have hcb := h cb (.tail _ (.head _))
    refine .bind rfl fun _ => .bind rfl fun _ =>
      .bind (checkValid_withCtxs hca) fun _ => .bind (checkValid_withCtxs hcb) fun _ => ?_
    rw [hca, hcb]
    exact .ended _ (.kept rfl)

/-- The end of a command adds nothing that differs. -/
theorem sameEffect_finish {i : Instr} {s : State} {other : List Ctx} {r r' : Except ErrCode (State × Word)}
    (h : SameEnd i s other r r') : SameEffect i s other (finish s r) (finish (withCtxs s other) r') := by
  cases h with
  | failed e => exact .kept rfl
  | ended v effect =>
    cases effect with
    | kept ctxs => exact .kept ctxs
    | written name ctxs => exact .written name ctxs

/-- A write of one entry in two lists of one length that agree on it before. -/
theorem getD_set_of_length_eq {l l' : List Ctx} {c : Nat} {d : Ctx} (hlen : l'.length = l.length)
    (h : l'.getD c d = l.getD c d) (x : Ctx) : (l'.set c x).getD c d = (l.set c x).getD c d := by
  by_cases hc : c < l.length
  · rw [List.getD_eq_getElem _ d (by simpa [hlen] using hc), List.getD_eq_getElem _ d (by simpa using hc),
      List.getElem_set_self, List.getElem_set_self]
  · have hle := Nat.le_of_not_lt hc
    rw [List.set_eq_of_length_le hle, List.set_eq_of_length_le (hlen ▸ hle), h]

/-- The context named as written has one value after both, when there are as many contexts. -/
theorem sameEffect_ctx {i : Instr} {s t t' : State} {other : List Ctx} (h : SameEffect i s other t t')
    (hlen : other.length = s.ctxs.length) {c : Nat} (hw : writesCtx i = some c)
    (hctx : (withCtxs s other).ctx c = s.ctx c) : t'.ctx c = t.ctx c := by
  cases h with
  | kept ctxs => exact hctx.trans (congrArg (List.getD · c Ctx.absent) ctxs.symm)
  | @written d x name ctxs =>
    obtain rfl : d = c := Option.some_inj.1 (name.symm.trans hw)
    exact (getD_set_of_length_eq hlen hctx x).trans (congrArg (List.getD · d Ctx.absent) ctxs.symm)

/-- Settles O41: what is written is named as written, and with other contexts the command does the same. -/
theorem commandsTouchOnlyNamedContexts : Obligations.CommandsTouchOnlyNamedContexts := by
  refine ⟨fun i s t c h hc => exec_ctx_of_writesCtx_ne h hc, fun i s t other h hsame => ?_⟩
  rw [exec_eq_finish] at h
  cases h
  have heffect := sameEffect_finish (sameEnd_commandOf (s := s) hsame)
  refine ⟨_, exec_eq_finish i (withCtxs s other), ?_, fun hlen c hw =>
    sameEffect_ctx heffect hlen hw (hsame c (mem_namesCtx_of_writesCtx hw))⟩
  generalize finish s (commandOf i s) = t, finish (withCtxs s other) (commandOf i (withCtxs s other)) = t' at heffect
  cases heffect <;> rfl

/-! ### The interrupt line (60_exceptions.md R176) -/

/-- Settles O54: every completion sets `DONE` and leaves `IE`, and the other events write the one or the other. -/
theorem irqFollowsDoneAndEnable : Obligations.IrqFollowsDoneAndEnable := by
  refine ⟨fun s => rfl, fun s t hturn hb h => ?_, fun s t v rest h => ⟨fun hs => ?_, fun hs hv => ?_, fun hs hb => ?_,
    fun hs => ?_⟩⟩
  · rw [step_of_engineNext hturn] at h
    rcases engineTurn_busy_cases (s := unscheduled s) hb h with ⟨i, hi⟩ | rfl
    · rw [exec_frame hi]
      rfl
    · rfl
  · rw [step_writeReg hs rfl] at h
    cases h
    rfl
  · rw [step_writeReg hs rfl] at h
    cases h
    simp [writeReg, State.irq, hv]
  · rw [step_writeReg_idle hb hs rfl rfl] at h
    cases h
    rfl
  · rw [step_reset hs] at h
    cases h
    rfl

end Sys2Proof.Proofs

/-! Reset and hazards (spec/70_reset_and_hazards.md): what a fresh filter holds, and the host's accesses while a command is
pending. -/

namespace Sys2Proof.Proofs

open Sys2Proof.Machine Sys2Proof.Safety Sys2Proof.Claims Sys2Proof.Laws

/-! ### A fresh filter (70_reset_and_hazards.md R200) -/

theorem member_eq_false_of_zero {slots : List Byte} {L : List Nat} (hL : L ≠ [])
    (hzero : ∀ j ∈ L, slots.getD j 0 = 0) : member slots L = false := by
  obtain ⟨j, hj⟩ := List.exists_mem_of_ne_nil L hL
  exact Bool.eq_false_iff.2 fun hall => member_eq_true.1 hall j hj (hzero j hj)

/-- A filter whose slots are all 0 holds no key: with `k > 0` there is a round, and the slot it touches is 0. -/
theorem exec_test_of_zero {s t : State} {c : Nat} (hm : 0 < (s.ctx c).m.toNat) (hk : 0 < (s.ctx c).k.toNat)
    (hzero : ∀ j, j < (s.ctx c).m.toNat → (s.ctx c).slots.getD j 0 = 0) (h : exec (.test c) s = .next t)
    (hok : t.err = .ok) : t.result = 0 := by
  obtain ⟨u, v, hcmd, rfl⟩ := exec_ok_cases h hok
  obtain ⟨-, -, -, L, hL, -, rfl⟩ := testCmd_ok.1 hcmd
  have hne : L ≠ [] := List.ne_nil_of_length_pos (slotsForKey_length hL ▸ hk)
  exact boolWord_eq_zero.2 (member_eq_false_of_zero hne fun j hj => hzero j (slotsForKey_lt hm hL j hj))

/-- What a completed `CONFIG` leaves in its context (40_lifecycle.md R81). -/
theorem exec_config_ctx {s t : State} {ca : Nat} {var : Variant} {ovf : Policy} (hs : EngineInv s)
    (h : exec (.config ca var ovf) s = .next t) (hok : t.err = .ok) :
    Ready t ca ∧ 0 < (t.ctx ca).m.toNat ∧ (t.ctx ca).m = s.arg0 ∧ (t.ctx ca).k = s.arg1 ∧ (t.ctx ca).count = 0 ∧
      ∀ j, j < s.arg0.toNat → (t.ctx ca).slots.getD j 0 = 0 := by
  obtain ⟨u, v, hcmd, rfl⟩ := exec_ok_cases h hok
  obtain ⟨hc, h0, -, -, rfl, -⟩ := configCmd_ok.1 hcmd
  have hctx := ctx_construct_same s var ovf s.arg0 s.arg1 0 (List.replicate s.arg0.toNat 0) (ctx_lt hs hc)
  rw [Ready, complete_ctx, hctx]
  refine ⟨⟨hc, rfl⟩, Nat.pos_of_ne_zero fun h => h0 (BitVec.eq_of_toNat_eq h), rfl, rfl, rfl, fun j hj => ?_⟩
  rw [List.getD_append _ _ _ _ (by rwa [List.length_replicate]), List.getD_replicate _ hj]

theorem ctx_of_ctxs {s t : State} (h : t.ctxs = s.ctxs) (c : Nat) : t.ctx c = s.ctx c := by
  rw [State.ctx, State.ctx, h]

/-- Settles O10: the constructed context is valid with count 0 and its slots 0, and `GETCOUNT` and `TEST` read no more of
the later state than that context, the key and the parameters. -/
theorem freshFilterHoldsNothing : Obligations.FreshFilterHoldsNothing := by
  intro s t u ca var ovf hs hconfig hok hcfg hctxs
  obtain ⟨⟨hc, hv⟩, hpos, hm, hk, hcount, hzero⟩ := exec_config_ctx hs hconfig hok
  rw [← hcfg] at hc
  rw [← ctx_of_ctxs hctxs ca] at hv hpos hm hk hcount hzero
  obtain ⟨-, -, hget⟩ := accessorsAnswerFields u ca ⟨hc, hv⟩
  refine ⟨⟨_, hget, rfl, hcount⟩, hzero, fun hk0 v htest hvok => ?_⟩
  exact exec_test_of_zero hpos (hk ▸ hk0) (hm ▸ hzero) htest hvok

/-! ### Writes while a command is pending (70_reset_and_hazards.md R203) -/

/-- A host write to a command input is an input write, whatever it would store. -/
theorem hostWrite_input {s : State} {a : Nat} (h : InputAddr s.cfg a) (v : Word) :
    ∃ t, hostWrite a v s = inputWrite s t := by
  rcases h with hreg | hbuf
  · simp only [List.mem_cons, List.not_mem_nil, or_false] at hreg
    rcases hreg with rfl | rfl | rfl | rfl | rfl <;> exact ⟨_, rfl⟩
  · exact ⟨_, hostWrite_byteBuffer hbuf v⟩

/-- Settles O44: `BUSY` decides for the command inputs only. -/
theorem busyWritesAreLost : Obligations.BusyWritesAreLost := by
  intro s a v rest hb h ha
  obtain ⟨hstatus, hctrl, -, -⟩ := statusAndCtrlAccess s v rest
  obtain ⟨-, hignored⟩ := reservedAddressesReadZero s a v rest ha
  refine ⟨fun hin => ?_, fun ha' => hstatus (ha' ▸ h), fun ha' => hctrl (ha' ▸ h), fun hign => hignored hign h⟩
  obtain ⟨t, ht⟩ := hostWrite_input (s := { s with schedule := rest }) hin v
  rw [step_write h ha, ht, inputWrite_busy (s := { s with schedule := rest }) t hb]

/-! ### Reads while a command is pending (70_reset_and_hazards.md R204) -/

/-- What stands at the addresses of R204 is a command output. -/
theorem isOutput_of_outputAddr {p : Config} {a : Nat} (h : OutputAddr p a) : (locate p a).isOutput = true := by
  rcases h with hreg | ⟨h1, h2⟩ | ⟨h1, h2⟩
  · simp only [List.mem_cons, List.not_mem_nil, or_false] at hreg
    rcases hreg with rfl | rfl | rfl <;> rfl
  · rw [locate_idxbuf p h1 h2, Location.isOutput]
  · rw [locate_serbuf p h1 h2, Location.isOutput]

/-- A register that is no command output reads its value at any time. -/
theorem step_read_register {s : State} {a b : PortAddr} {rest : List Event} (h : s.schedule = .read a 8 :: rest)
    (r : Reg) (hr : regAt b.toNat = some r) (ho : (Location.reg r).isOutput = false) (hab : a = b) :
    step s = .next { s with schedule := rest, rdata := readReg s r } := by
  subst hab
  exact step_readReg h hr (by rw [ho, Bool.and_false])

/-- `KEYBUF` is no command output: it reads its words at any time. -/
theorem step_read_keybuf {s : State} {a : PortAddr} {rest : List Event} (h : s.schedule = .read a 8 :: rest)
    (ha : a.toNat % 8 = 0) (h1 : 0x10000 ≤ a.toNat) (h2 : a.toNat < 0x10000 + s.cfg.keyMax) :
    step s = .next { s with schedule := rest, rdata := s.wordAt a.toNat } := by
  rw [step_read_value h ha (by rw [locate_keybuf _ h1 h2, Location.isOutput, Bool.and_false]),
    portValue_byteBuffer (.inl ⟨h1, h2⟩)]

/-- Settles O49: a busy read of an output is a draw, and no other location of the map is an output. -/
theorem busyReadsOfOutputsAreDrawn : Obligations.BusyReadsOfOutputsAreDrawn := by
  intro s a rest ha h
  refine ⟨fun hb hout => ?_, step_read_register h .cmd rfl rfl, step_read_register h .status rfl rfl,
    step_read_register h .ctrl rfl rfl, step_read_register h .arg0 rfl rfl, step_read_register h .arg1 rfl rfl,
    step_read_register h .keylen rfl rfl, step_read_register h .capNctx rfl rfl, step_read_register h .capMmax rfl rfl,
    step_read_register h .capKmax rfl rfl, step_read_register h .capKeymax rfl rfl,
    step_read_register h .capSermax rfl rfl, fun h1 h2 => ?_⟩
  · rw [step_read h ha, hostRead_draw (s := { s with schedule := rest }) hb (isOutput_of_outputAddr hout)]
  · exact ⟨_, step_read_keybuf h ha h1 h2, wordAt_byte s a.toNat⟩

end Sys2Proof.Proofs
